-- ==== Sys2Proof/Word.lean ====
section
/-! DEFINITION. The words and symbols of the block: `Bit`, the 32-bit register word, the trellis state, the code symbol,
the reference soft number domain (00_scope.md R9, R11, R12; 40_encoder.md R100, R103). -/
namespace Sys2Proof

/-- A binary value (00_scope.md R12, R16): `false` is 0 and `true` is 1. -/
abbrev Bit := Bool

/-- A control register or command word, 32 bits, bit 0 least significant (R11, 10_state.md §2). -/
abbrev Word := BitVec 32

/-- The rationals, "the reference instantiation" of the parameter `SOFT` (R9, R193). The model takes `SOFT` as an argument, the
type `S` of its definitions; the rationals are the value the machine under the fixed names takes (log 6). -/
abbrev Soft := Rat

/-- A trellis state, the last two bits fed in (40_encoder.md R100): `first` is the older, `second` the most recent. -/
structure EncState where
  first : Bit
  second : Bit
deriving DecidableEq, Repr, Fintype

/-- A code symbol, the pair of bits emitted for one input bit (40_encoder.md R103). A type of its own: no rule turns a
`State` into a `Sym` or back (R12). -/
structure Sym where
  c0 : Bit
  c1 : Bit
deriving DecidableEq, Repr, Fintype

end Sys2Proof
end

