-- ==== Sys2Proof/Config.lean ====
section
/-! DEFINITION. What an implementation fixes (00_scope.md R9) and the free values. -/
namespace Sys2Proof

/-- `GEN_ORDER`: which generator drives the first output bit `c0` (R9, 40_encoder.md R104). -/
inductive GenOrder where
  | g75
  | g57
deriving DecidableEq, Repr

/-- `SOFT_ENC`: the format of a soft sample as the host writes and reads it (R9, D5, I18), over patterns of any type `P`.
`decode` is the value a pattern maps to, none for a pattern that maps to no `Soft` (20_memory.md R55); `encode` is the pattern the
host reads of a value (10_state.md R32). An argument of the host accesses; State holds no format. -/
structure SoftEnc (S P : Type) where
  decode : P → Option S
  encode : S → P

/-- The legal formats: a value that some pattern maps to is read back as a pattern that maps to it, since the block never
converts a host value (20_memory.md R55). Of a value that no pattern maps to, the pattern read is left open (log 21). -/
abbrev SoftEnc.Legal {S P : Type} (enc : SoftEnc S P) : Prop := ∀ p x, enc.decode p = some x → enc.decode (enc.encode x) = some x

/-- Two host patterns stand for one value. -/
abbrev SoftEnc.Agree {S P : Type} (enc : SoftEnc S P) (p q : P) : Prop := ∃ x, enc.decode p = some x ∧ enc.decode q = some x

/-- The patterns of the machine under the fixed names: the values themselves. DESIGN CHOICE (log 6). -/
abbrev SoftBits := Soft

/-- The format of the machine under the fixed names: every pattern is the value it stands for. `SOFT_ENC` is OPEN in R9 and has no
reference value there: DESIGN CHOICE (log 6). -/
def referenceEnc : SoftEnc Soft SoftBits := { decode := some, encode := id }

/-- The parameters of R9 that are plain data and stay open. They are fixed for one machine; State carries them because the step has no other
argument (DESIGN CHOICE, log 5). -/
structure Params where
  /-- `N_MAX`, the capacity of each buffer in elements and the largest accepted `LEN`. -/
  nMax : Nat
  /-- `GEN_ORDER`. -/
  genOrder : GenOrder
deriving DecidableEq, Repr

/-- The legal values of R9: 3 ≤ `N_MAX` ≤ 65535; both generator orders are legal. -/
abbrev Params.Legal (p : Params) : Prop := 3 ≤ p.nMax ∧ p.nMax ≤ 65535

/-- FREE VALUE. `draw`, the tie-break Booleans of `HARD_TIE = 1` (R8, R9, 43_hard_viterbi.md R167), for a draw at a position
of the source that the outside has not supplied. No body: nothing can be proved of a value of it (log 7). -/
opaque Config.draw : Nat → Bool

end Sys2Proof
end

