-- ==== Sys2Proof/Syntax.lean ====
section
/-! DEFINITION. The commands of the block, one constructor per row of opcode_table.json (30_encoding.md R75). -/
namespace Sys2Proof

/-- A command with its operands (30_encoding.md R72). `len` is `N`, the number of elements. -/
inductive Instr where
  /-- `ENC_STEP` (40_encoder.md R110): one encoder transition from state `st` on bit `b`. -/
  | encStep (st : EncState) (b : Bit)
  /-- `ENC_SEQ` (R112): encode `len` bits from state `st`. -/
  | encSeq (st : EncState) (len : Nat)
  /-- `LA_BUILD` (42_lookahead.md R134): build the look-ahead table. -/
  | laBuild
  /-- `LA_LOOKUP` (R145): read the cell of state `st` and received symbols `s0`, `s1`, `s2`. -/
  | laLookup (st : EncState) (s0 s1 s2 : Sym)
  /-- `LA_DECODE` (R150): decode `len` hard observations by table lookup. -/
  | laDecode (len : Nat)
  /-- `HARD_DP` (43_hard_viterbi.md R171): decode `len` hard observations by hard-decision Viterbi. -/
  | hardDp (len : Nat)
  /-- `SOFT_DP` (44_soft_viterbi.md R196): decode `len` soft observations by soft-decision Viterbi. -/
  | softDp (len : Nat)
deriving DecidableEq, Repr

end Sys2Proof
end

