-- ==== Sys2Proof/WellFormed.lean ====
section
/-! DEFINITION. Which commands a command word can hold (30_encoding.md R70, R72, R73). -/
namespace Sys2Proof

/-- `LEN` is a 16-bit field (R70). The 2-bit operands hold every value of their types, so they need no check (R73). -/
def Instr.wellFormed : Instr → Bool
  | .encStep _ _ => true
  | .encSeq _ len => decide (len < 2 ^ 16)
  | .laBuild => true
  | .laLookup _ _ _ _ => true
  | .laDecode len => decide (len < 2 ^ 16)
  | .hardDp len => decide (len < 2 ^ 16)
  | .softDp len => decide (len < 2 ^ 16)

end Sys2Proof
end

