-- ==== Sys2Proof/Decode.lean ====
section
/-! DEFINITION. The decoder of command words (30_encoding.md R70 to R79), total, rejecting by name, and the assembler's
encoder (R80). -/
namespace Sys2Proof

/-- The dense index of a state, `{first, second}` (40_encoder.md R102). -/
def EncState.toBits (s : EncState) : BitVec 2 := BitVec.ofBool s.first ++ BitVec.ofBool s.second

/-- The state of a 2-bit field (R102; 30_encoding.md R72). -/
def EncState.ofBits (v : BitVec 2) : EncState := ⟨v.getLsbD 1, v.getLsbD 0⟩

/-- The dense index of a symbol, `{c0, c1}` (40_encoder.md R103). -/
def Sym.toBits (y : Sym) : BitVec 2 := BitVec.ofBool y.c0 ++ BitVec.ofBool y.c1

/-- The symbol of a 2-bit field (R103; 30_encoding.md R72). -/
def Sym.ofBits (v : BitVec 2) : Sym := ⟨v.getLsbD 1, v.getLsbD 0⟩

/-- The fields of the one command format (30_encoding.md R70). -/
structure CmdFields where
  len : BitVec 16
  rsv15 : BitVec 2
  s2 : BitVec 2
  s1 : BitVec 2
  s0 : BitVec 2
  rsv7 : BitVec 1
  b : BitVec 1
  st : BitVec 2
  opc : BitVec 4
deriving DecidableEq, Repr

/-- The fields of a command word, by the bit positions of R70. -/
def fieldsOf (w : Word) : CmdFields where
  len := w.extractLsb' 16 16
  rsv15 := w.extractLsb' 14 2
  s2 := w.extractLsb' 12 2
  s1 := w.extractLsb' 10 2
  s0 := w.extractLsb' 8 2
  rsv7 := w.extractLsb' 7 1
  b := w.extractLsb' 6 1
  st := w.extractLsb' 4 2
  opc := w.extractLsb' 0 4

/-- The assembled word `{len, rsv, s2, s1, s0, rsv, b, st, opc}` (R80). -/
def wordOf (f : CmdFields) : Word :=
  f.len ++ f.rsv15 ++ f.s2 ++ f.s1 ++ f.s0 ++ f.rsv7 ++ f.b ++ f.st ++ f.opc

/-- The seven assigned opcodes (R75). -/
inductive Opcode where
  | encStep
  | encSeq
  | laBuild
  | laLookup
  | laDecode
  | hardDp
  | softDp
deriving DecidableEq, Repr

/-- The opcode map of R75. Opcodes 0 and 8 to 15 are reserved (R78). -/
def Opcode.ofBits (v : BitVec 4) : Option Opcode :=
  match v.toNat with
  | 1 => some .encStep
  | 2 => some .encSeq
  | 3 => some .laBuild
  | 4 => some .laLookup
  | 5 => some .laDecode
  | 6 => some .hardDp
  | 7 => some .softDp
  | _ => none

/-- The number of an opcode (R75). -/
def Opcode.toBits : Opcode → BitVec 4
  | .encStep => 1
  | .encSeq => 2
  | .laBuild => 3
  | .laLookup => 4
  | .laDecode => 5
  | .hardDp => 6
  | .softDp => 7

/-- Whether a command uses `LEN` (the table of R74). -/
def Opcode.usesLen : Opcode → Bool
  | .encStep => false
  | .encSeq => true
  | .laBuild => false
  | .laLookup => false
  | .laDecode => true
  | .hardDp => true
  | .softDp => true

/-- Whether a command uses `S2`, `S1` and `S0` (the table of R74). -/
def Opcode.usesSyms : Opcode → Bool
  | .encStep => false
  | .encSeq => false
  | .laBuild => false
  | .laLookup => true
  | .laDecode => false
  | .hardDp => false
  | .softDp => false

/-- Whether a command uses `B` (the table of R74). -/
def Opcode.usesB : Opcode → Bool
  | .encStep => true
  | .encSeq => false
  | .laBuild => false
  | .laLookup => false
  | .laDecode => false
  | .hardDp => false
  | .softDp => false

/-- Whether a command uses `ST` (the table of R74). -/
def Opcode.usesSt : Opcode → Bool
  | .encStep => true
  | .encSeq => true
  | .laBuild => false
  | .laLookup => true
  | .laDecode => false
  | .hardDp => false
  | .softDp => false

/-- Every field the command does not use is 0 (R74). -/
def unusedFieldsZero (o : Opcode) (f : CmdFields) : Bool :=
  (o.usesLen || f.len == 0) && (o.usesSyms || (f.s2 == 0 && f.s1 == 0 && f.s0 == 0)) &&
    (o.usesB || f.b == 0) && (o.usesSt || f.st == 0)

/-- The command that an opcode and the word's fields stand for (R72, R77). -/
def instrOf (f : CmdFields) : Opcode → Instr
  | .encStep => .encStep (EncState.ofBits f.st) (f.b.getLsbD 0)
  | .encSeq => .encSeq (EncState.ofBits f.st) f.len.toNat
  | .laBuild => .laBuild
  | .laLookup => .laLookup (EncState.ofBits f.st) (Sym.ofBits f.s0) (Sym.ofBits f.s1) (Sym.ofBits f.s2)
  | .laDecode => .laDecode f.len.toNat
  | .hardDp => .hardDp f.len.toNat
  | .softDp => .softDp f.len.toNat

/-- Why a word is no command. Each is reported as `ILLEGAL` (R74, R77, R78). -/
inductive DecodeError where
  /-- `OPC` is 0 or at least 8 (R78). -/
  | reservedOpcode
  /-- Bit 15, 14 or 7 is set (R74). -/
  | reservedBits
  /-- A field the command does not use is nonzero (R74). -/
  | unusedField
deriving DecidableEq, Repr

/-- The decoder of R77, total on every 32-bit word; the checks stand in R77's order. -/
def decode (w : Word) : Except DecodeError Instr :=
  match Opcode.ofBits (fieldsOf w).opc with
  | none => .error .reservedOpcode
  | some o =>
    if (fieldsOf w).rsv15 ≠ 0 ∨ (fieldsOf w).rsv7 ≠ 0 then .error .reservedBits
    else if unusedFieldsZero o (fieldsOf w) then .ok (instrOf (fieldsOf w) o)
    else .error .unusedField

/-- The all-zero fields: an omitted operand is 0 (R80). -/
def CmdFields.ofOpcode (o : Opcode) : CmdFields :=
  { len := 0, rsv15 := 0, s2 := 0, s1 := 0, s0 := 0, rsv7 := 0, b := 0, st := 0, opc := o.toBits }

/-- The fields an instruction assembles to (R80). A `len` that does not fit 16 bits is cut: `Instr.wellFormed` rules it out. -/
def fieldsOfInstr : Instr → CmdFields
  | .encStep st b => { CmdFields.ofOpcode .encStep with st := st.toBits, b := BitVec.ofBool b }
  | .encSeq st len => { CmdFields.ofOpcode .encSeq with st := st.toBits, len := BitVec.ofNat 16 len }
  | .laBuild => CmdFields.ofOpcode .laBuild
  | .laLookup st s0 s1 s2 =>
    { CmdFields.ofOpcode .laLookup with st := st.toBits, s0 := s0.toBits, s1 := s1.toBits, s2 := s2.toBits }
  | .laDecode len => { CmdFields.ofOpcode .laDecode with len := BitVec.ofNat 16 len }
  | .hardDp len => { CmdFields.ofOpcode .hardDp with len := BitVec.ofNat 16 len }
  | .softDp len => { CmdFields.ofOpcode .softDp with len := BitVec.ofNat 16 len }

/-- The word of an instruction (R70, R80). -/
def encode (i : Instr) : Word := wordOf (fieldsOfInstr i)

/-- The instruction the decoder reads from the low `nbits` bits of `w`, the bits above being 0; none where it refuses.
A command is one whole 32-bit word with no byte order (30_encoding.md R70, 20_memory.md R58). -/
def decodeTableWord (nbits w : Nat) : Option Instr :=
  match decode (BitVec.ofNat 32 (w % 2 ^ nbits)) with
  | .ok i => some i
  | .error _ => none

end Sys2Proof
end

