-- ==== Sys2Proof/Machine/Strap.lean ====
section
/-! DEFINITION. The parameter values the reset state carries (00_scope.md R9). -/
namespace Sys2Proof.Machine

/-- `N_MAX` is OPEN (D6): 1024 is the model's choice, DESIGN CHOICE (log 5), unsafe for a claim that rests on the number;
`GEN_ORDER` takes R9's own value `G75`. -/
def strapParams : Params := { nMax := 1024, genOrder := .g75 }

end Sys2Proof.Machine
end

