-- ==== Sys2Proof/Machine/State.lean ====
section
/-! DEFINITION. The architectural state as plain data (10_state.md R20 to R47), the host's events, the reasons a step can
stop, and the state after reset (R46). -/
namespace Sys2Proof.Machine

/-- The outcome codes of `STATUS.ERR` (60_exceptions.md R210). Codes 7 to 15 are never written (R210), so they have no
constructor. -/
inductive ErrCode where
  | ok
  | illegal
  | length
  | notBuilt
  | tieState
  | tieVote
  | noPath
deriving DecidableEq, Repr

/-- The fields of `STATUS` (10_state.md R24). The reserved bits read as 0 and hold nothing (log 15). -/
structure Status where
  err : ErrCode
  laValid : Bool
  sticky : Bool
  busy : Bool
deriving DecidableEq, Repr

/-- The fields of `RESULT` (10_state.md R29). -/
structure Result where
  nextState : EncState
  symbol : Sym
  finalState : EncState
  lbit : Bit
deriving DecidableEq, Repr

/-- The fields of `CONFIG` (10_state.md R30). -/
structure ConfigReg where
  hardTie : Bool
  laTie : Bool
deriving DecidableEq, Repr

/-- An element buffer: the written elements by index, indices strictly rising. An index that is not listed is an unwritten
element: it has no value, and being listed is R40's `written` mark (log 14). -/
abbrev Buf (α : Type) := List (Nat × α)

/-- The six buffers (10_state.md R34 to R39), in the order of their regions (20_memory.md R50). -/
structure Memory (S : Type) where
  ibuf : Buf Bit
  hobs : Buf Sym
  sobsX : Buf S
  symout : Buf Sym
  bitout : Buf Bit
  sobsY : Buf S
deriving DecidableEq, Repr

/-- One slot for each of the four trellis states, named by the state's index (40_encoder.md R102). -/
structure PerState (α : Type) where
  at0 : α
  at1 : α
  at2 : α
  at3 : α
deriving DecidableEq, Repr

/-- A defined entry of the path memo (10_state.md R43). -/
structure Entry (κ : Type) where
  cost : κ
  pred : EncState
  bit : Bit
deriving DecidableEq, Repr

/-- `MEMO[*][t]` for one time `t`: an entry whose `valid` bit is clear is `none` (R43). -/
abbrev Column (κ : Type) := PerState (Option (Entry κ))

/-- The cost of a memo entry: "a `Nat` for `HARD_DP` or a `Soft` for `SOFT_DP`" (R43). -/
inductive Cost (S : Type) where
  | hard (n : Nat)
  | soft (x : S)
deriving DecidableEq, Repr

/-- The look-ahead table, 256 one-bit entries: entry `i` is bit `i`, by the linear index of 10_state.md R41. -/
abbrev LaTable := BitVec 256

/-- An element address `{region, index}` (20_memory.md R50). -/
structure Addr where
  region : BitVec 3
  index : BitVec 16
deriving DecidableEq, Repr

/-- The value one access moves (20_memory.md R60): a bit, a symbol or a register as a word, or one `Soft` as a pattern of the
format `SOFT_ENC` (R55, 10_state.md R32). -/
inductive HostValue (P : Type) where
  | word (w : Word)
  | soft (p : P)
deriving DecidableEq, Repr

/-- What the outside does to the block: a host read (R53), a host write (R54), the reset input (70_reset_and_hazards.md
R240). -/
inductive Event (P : Type) where
  | read (a : Addr)
  | write (a : Addr) (v : HostValue P)
  | reset
deriving DecidableEq, Repr

/-- The draw source (00_scope.md R8): the Booleans the outside has supplied and that are not taken yet, and those taken since
power-on, newest first. Its position (10_state.md R45) is the number taken. Model's own field (log 7). -/
structure DrawSource where
  supplied : List Bool
  taken : List Bool
deriving DecidableEq, Repr

end Sys2Proof.Machine
namespace Sys2Proof.Machine.Generic

/-- The whole state of the block and of the model (10_state.md R20), for a soft domain `S` and host patterns `P` of its
samples: R9's parameters `SOFT` and `SOFT_ENC` (D5, R47). -/
structure State (S P : Type) where
  /-- The parameters of the machine (00_scope.md R9); no step writes them (log 5). -/
  params : Params
  /-- `CMD` (R23). -/
  cmd : Word
  /-- `STATUS` (R24). -/
  status : Status
  /-- `RESULT` (R29). -/
  result : Result
  /-- `CONFIG` (R30). -/
  config : ConfigReg
  /-- `HMETRIC` (R31). -/
  hmetric : Word
  /-- `SMETRIC` (R32). -/
  smetric : S
  /-- The six buffers with their written marks (R34 to R40). -/
  mem : Memory S
  /-- `LA_TABLE` (R41). -/
  laTable : LaTable
  /-- `MEMO`, column `t` at position `t`; a column past the end has no valid entry (R43, R44). -/
  memo : List (Column (Cost S))
  /-- `faulted`, model only (R20, 60_exceptions.md R220). -/
  faulted : Bool
  /-- The host accesses not performed yet (R47's "program"), model's own field (log 3). -/
  pending : List (Event P)
  /-- The value the last host read returned, model's own field (log 4). -/
  readData : Option (HostValue P)
  /-- The draw source (R8, R45). -/
  draws : DrawSource
deriving DecidableEq, Repr

end Sys2Proof.Machine.Generic
namespace Sys2Proof.Machine

/-- The state of the machine under the fixed names: the reference instantiation of `SOFT`, with `referenceEnc`'s patterns
(log 6). -/
abbrev State := Generic.State Soft SoftBits

/-- The reasons of `raise ModelFault` (60_exceptions.md R220). They are no hardware events and the block goes on after them:
`step` catches both and marks the run `faulted`. Safe: no effect of the access or command is claimed. -/
inductive Fault where
  /-- Raised by a host access that R40, R51, R52, R55 or R56 do not admit (R57). Safe. -/
  | hostFault
  /-- Raised by a command that reads a buffer element never written since reset (R40). Safe. -/
  | unwritten
deriving DecidableEq, Repr

/-- The reasons a step can be refused. -/
inductive Refusal where
  /-- Raised by an arm of `exec` whose instruction has no meaning in the model. Safe: the machine stops. No arm raises it. -/
  | notModelled (mnemonic : String)
deriving DecidableEq, Repr

/-- `STATUS` after reset (R46). -/
def Status.atReset : Status := { err := .ok, laValid := false, sticky := false, busy := false }

/-- `RESULT` after reset (R46). -/
def Result.atReset : Result := { nextState := ⟨false, false⟩, symbol := ⟨false, false⟩, finalState := ⟨false, false⟩, lbit := false }

/-- The buffers after reset: every written mark clear (R40, R46). -/
def Memory.atReset {S : Type} : Memory S := { ibuf := [], hobs := [], sobsX := [], symout := [], bitout := [], sobsY := [] }

/-- The state after reset of a machine with parameters `p`, for every soft domain (10_state.md R46, 70_reset_and_hazards.md R240). `LA_TABLE` and
`MEMO` are unspecified there: the values are DESIGN CHOICES (log 9, log 11) that nothing can read. -/
def resetWith {S P : Type} [Zero S] (p : Params) : Generic.State S P where
  params := p
  cmd := 0
  status := Status.atReset
  result := Result.atReset
  config := { hardTie := false, laTie := false }
  hmetric := 0
  smetric := 0
  mem := Memory.atReset
  laTable := 0
  memo := []
  faulted := false
  pending := []
  readData := none
  draws := { supplied := [], taken := [] }

/-- The machine right after reset (R46). -/
def State.reset : State := resetWith strapParams

end Sys2Proof.Machine
end

