-- ==== Sys2Proof/Machine/Flags.lean ====
section
/-! DEFINITION. The words the host reads of the control registers, and the `CONFIG` fields of a word it writes
(10_state.md R24, R29, R30; 60_exceptions.md R210). -/
namespace Sys2Proof.Machine

/-- The number of an outcome code (60_exceptions.md R210). -/
def ErrCode.toBits : ErrCode → BitVec 4
  | .ok => 0
  | .illegal => 1
  | .length => 2
  | .notBuilt => 3
  | .tieState => 4
  | .tieVote => 5
  | .noPath => 6

/-- `STATUS` as the host reads it: `ERR` in 3:0, `LA_VALID` 4, `STICKY` 5, `BUSY` 6, bits 31:7 zero (R24). -/
def Status.toWord (t : Status) : Word :=
  0#25 ++ BitVec.ofBool t.busy ++ BitVec.ofBool t.sticky ++ BitVec.ofBool t.laValid ++ t.err.toBits

/-- `RESULT` as the host reads it: `NEXT_STATE` in 1:0, `SYMBOL` 3:2, `FINAL_STATE` 5:4, `LBIT` 6, bits 31:7 zero (R29). -/
def Result.toWord (r : Result) : Word :=
  0#25 ++ BitVec.ofBool r.lbit ++ r.finalState.toBits ++ r.symbol.toBits ++ r.nextState.toBits

/-- `CONFIG` as the host reads it: `HARD_TIE` in bit 0, `LA_TIE` in bit 1, bits 31:2 zero (R30). -/
def ConfigReg.toWord (c : ConfigReg) : Word := 0#30 ++ BitVec.ofBool c.laTie ++ BitVec.ofBool c.hardTie

/-- The `CONFIG` fields a written word sets; none when a reserved bit is 1, which is not admitted (R30, 20_memory.md R55). -/
def ConfigReg.ofWord (w : Word) : Option ConfigReg :=
  if w.extractLsb' 2 30 = 0 then some { hardTie := w.getLsbD 0, laTie := w.getLsbD 1 } else none

end Sys2Proof.Machine
end

