-- ==== Sys2Proof/Machine/Operands.lean ====
section
/-! DEFINITION. The buffers and the values that move in and out of them: one element, a run of elements, the canonical form
(10_state.md R34 to R40; 20_memory.md R50, R55, R60). -/
namespace Sys2Proof.Machine

variable {S P : Type}

/-- The element at an index, none when its written mark is clear (R40). -/
def Buf.read {α : Type} : Buf α → Nat → Option α
  | [], _ => none
  | (j, w) :: rest, i => if j = i then some w else Buf.read rest i

/-- Write one element and set its written mark (R40, R54); every other element stays. -/
def Buf.write {α : Type} : Buf α → Nat → α → Buf α
  | [], i, v => [(i, v)]
  | (j, w) :: rest, i, v =>
    if i < j then (i, v) :: (j, w) :: rest
    else if i = j then (i, v) :: rest
    else (j, w) :: Buf.write rest i v

/-- The elements `i .. i+n-1` in index order, none when one of them was never written (R40, R69). -/
def Buf.readSeq {α : Type} (b : Buf α) (i : Nat) : Nat → Option (List α)
  | 0 => some []
  | n + 1 =>
    match b.read i with
    | none => none
    | some v =>
      match Buf.readSeq b (i + 1) n with
      | none => none
      | some vs => some (v :: vs)

/-- Write a list of values at the indices from `i` on (R69: exactly the elements of the list's length). -/
def Buf.writeSeq {α : Type} (b : Buf α) (i : Nat) : List α → Buf α
  | [] => b
  | v :: vs => Buf.writeSeq (b.write i v) (i + 1) vs

/-- The canonical form of a buffer: indices strictly rising, so that equal contents are equal lists. -/
abbrev Buf.Sorted {α : Type} (b : Buf α) : Prop := b.Pairwise (fun x y => x.1 < y.1)

/-- Every listed index is below the capacity (20_memory.md R52). -/
abbrev Buf.Within {α : Type} (n : Nat) (b : Buf α) : Prop := ∀ c ∈ b, c.1 < n

/-- The canonical form of the memory of a machine with capacity `n`. No entry equals what an unlisted element reads as, since
an unlisted element has no value. -/
abbrev Memory.wf (n : Nat) (m : Memory S) : Prop :=
  (m.ibuf.Sorted ∧ m.hobs.Sorted ∧ m.sobsX.Sorted ∧ m.symout.Sorted ∧ m.bitout.Sorted ∧ m.sobsY.Sorted) ∧
  m.ibuf.Within n ∧ m.hobs.Within n ∧ m.sobsX.Within n ∧ m.symout.Within n ∧ m.bitout.Within n ∧ m.sobsY.Within n

/-- The slot of a trellis state (40_encoder.md R102). -/
def PerState.get {α : Type} (q : PerState α) : EncState → α
  | ⟨false, false⟩ => q.at0
  | ⟨false, true⟩ => q.at1
  | ⟨true, false⟩ => q.at2
  | ⟨true, true⟩ => q.at3

/-- Replace the slot of one trellis state. -/
def PerState.set {α : Type} (q : PerState α) (s : EncState) (v : α) : PerState α :=
  match s with
  | ⟨false, false⟩ => { q with at0 := v }
  | ⟨false, true⟩ => { q with at1 := v }
  | ⟨true, false⟩ => { q with at2 := v }
  | ⟨true, true⟩ => { q with at3 := v }

/-- State 0, "the all-zero state". -/
def stateZero : EncState := ⟨false, false⟩

/-- The four states in index order 0 to 3 (40_encoder.md R102). -/
def allStates : List EncState := [⟨false, false⟩, ⟨false, true⟩, ⟨true, false⟩, ⟨true, true⟩]

/-- The four symbols in index order 0 to 3 (40_encoder.md R103). -/
def allSyms : List Sym := [⟨false, false⟩, ⟨false, true⟩, ⟨true, false⟩, ⟨true, true⟩]

/-- A bit as the host reads it (20_memory.md R60). -/
def wordOfBit (b : Bit) : HostValue P := .word (BitVec.setWidth 32 (BitVec.ofBool b))

/-- A symbol as the host reads it (R60). -/
def wordOfSym (y : Sym) : HostValue P := .word (BitVec.setWidth 32 y.toBits)

/-- The bit a host value stands for; none when it does not fit, which is not admitted (R55: 0 or 1). -/
def bitOfValue : HostValue P → Option Bit
  | .word w => if w.toNat < 2 then some (w.getLsbD 0) else none
  | .soft _ => none

/-- The symbol a host value stands for; none when it does not fit (R55: 0 to 3). -/
def symOfValue : HostValue P → Option Sym
  | .word w => if w.toNat < 4 then some (Sym.ofBits (BitVec.setWidth 2 w)) else none
  | .soft _ => none

/-- The `Soft` a host value stands for in the format; none when it maps to none (R55). -/
def softOfValue (enc : SoftEnc S P) : HostValue P → Option S
  | .word _ => none
  | .soft p => enc.decode p

/-- A `Soft` as the host reads it, in the format (R60, 10_state.md R32). -/
def valueOfSoft (enc : SoftEnc S P) (x : S) : HostValue P := .soft (enc.encode x)

end Sys2Proof.Machine
end

