-- ==== Sys2Proof/Machine/Ops.lean ====
section
/-! DEFINITION. The shared operations of the machine: starting and completing a command, `raise CmdError`,
`raise ModelFault`, host accesses, reset, one draw, one
step (30_encoding.md R76; 20_memory.md R53 to R57; 60_exceptions.md R216, R220). -/
namespace Sys2Proof.Machine

variable {S P : Type}

/-! ### Commands -/

/-- The start of `issue(w)`: `CMD <- w`, `STATUS.BUSY <- 1` (R76). -/
def beginCommand (w : Word) (s : Generic.State S P) : Generic.State S P :=
  { s with cmd := w, status := { s.status with busy := true } }

/-- A command that completes without error: `STATUS.ERR <- 0`, `STATUS.BUSY <- 0` (R25, R76). `STICKY` stays (R27). -/
def complete (s : Generic.State S P) : Generic.State S P :=
  { s with status := { s.status with err := .ok, busy := false } }

/-- `raise CmdError(code)`: `ERR <- code`, `STICKY <- 1`, `BUSY <- 0` and nothing else (R216). This is the block's one error
entry: it has no handler, no saved state and no return (R219). -/
def raiseCmdError (c : ErrCode) (s : Generic.State S P) : Generic.State S P :=
  { s with status := { s.status with err := c, sticky := true, busy := false } }

/-- `raise ModelFault`: the run is marked faulted and nothing else changes (R220). -/
def markFaulted (s : Generic.State S P) : Generic.State S P := { s with faulted := true }

/-- A model fault does not stop the machine: it leaves the state `kept` it had without the faulting access's or command's
effects, marked faulted (R220). Any other outcome passes (log 1). -/
def absorbFault (kept : Generic.State S P) (o : Host.Outcome (Generic.State S P) Fault Refusal) : Host.Outcome (Generic.State S P) Fault Refusal :=
  match o with
  | .next s => .next s
  | .fault _ => .next (markFaulted kept)
  | .refused r => .refused r

/-- The accepted `LEN` of the three decoders: 2 ≤ `N` ≤ `N_MAX` (R212). -/
def decodeLengthOk (s : Generic.State S P) (len : Nat) : Bool := decide (2 ≤ len ∧ len ≤ s.params.nMax)

/-- The accepted `LEN` of `ENC_SEQ`: `N` ≤ `N_MAX` (R212). -/
def encodeLengthOk (s : Generic.State S P) (len : Nat) : Bool := decide (len ≤ s.params.nMax)

/-! ### Outputs of commands -/

/-- `RESULT.NEXT_STATE` and `RESULT.SYMBOL` (R29: the other fields keep their values). -/
def Generic.State.setTransition (s : Generic.State S P) (n : EncState) (y : Sym) : Generic.State S P :=
  { s with result := { s.result with nextState := n, symbol := y } }

/-- `RESULT.FINAL_STATE` (R29). -/
def Generic.State.setFinalState (s : Generic.State S P) (n : EncState) : Generic.State S P :=
  { s with result := { s.result with finalState := n } }

/-- `RESULT.LBIT` (R29). -/
def Generic.State.setLbit (s : Generic.State S P) (b : Bit) : Generic.State S P :=
  { s with result := { s.result with lbit := b } }

/-- `SYMOUT[0..]`, with their written marks (20_memory.md R69). -/
def Generic.State.writeSymout (s : Generic.State S P) (ys : List Sym) : Generic.State S P :=
  { s with mem := { s.mem with symout := s.mem.symout.writeSeq 0 ys } }

/-- `BITOUT[0..]`, with their written marks (R69). -/
def Generic.State.writeBitout (s : Generic.State S P) (bs : List Bit) : Generic.State S P :=
  { s with mem := { s.mem with bitout := s.mem.bitout.writeSeq 0 bs } }

/-- `LA_TABLE` and `STATUS.LA_VALID` (10_state.md R26). -/
def Generic.State.setTable (s : Generic.State S P) (t : LaTable) (valid : Bool) : Generic.State S P :=
  { s with laTable := t, status := { s.status with laValid := valid } }

/-- `MEMO[*][0..LEN]`: the columns of one decode; those past `LEN` keep what they held (10_state.md R44, log 11). -/
def Generic.State.storeMemo (s : Generic.State S P) (cols : List (Column (Cost S))) : Generic.State S P :=
  { s with memo := cols ++ s.memo.drop cols.length }

/-- The draw source after a command's draws (R45). -/
def Generic.State.setDraws (s : Generic.State S P) (d : DrawSource) : Generic.State S P := { s with draws := d }

/-- `HMETRIC` (R31): a cost of at most 2·`N_MAX` always fits its 32 bits (R10, log 16). -/
def Generic.State.setHmetric (s : Generic.State S P) (n : Nat) : Generic.State S P := { s with hmetric := BitVec.ofNat 32 n }

/-- `SMETRIC` (R32). -/
def Generic.State.setSmetric (s : Generic.State S P) (x : S) : Generic.State S P := { s with smetric := x }

/-! ### The draw source -/

/-- `draw()` (00_scope.md R13): the next Boolean, one the outside supplied while there is one, a free value after that. -/
def DrawSource.draw (d : DrawSource) : Bool × DrawSource :=
  match d.supplied with
  | v :: vs => (v, { supplied := vs, taken := v :: d.taken })
  | [] => (Config.draw d.taken.length, { supplied := [], taken := Config.draw d.taken.length :: d.taken })

/-! ### Host accesses -/

/-- The address of `CMD` (20_memory.md R51). -/
def cmdAddr : Addr := { region := 0, index := 0 }

/-- The value of a register of region 0; none at a reserved index (R51). -/
def readRegister (enc : SoftEnc S P) (s : Generic.State S P) (index : Nat) : Option (HostValue P) :=
  match index with
  | 0 => some (.word s.cmd)
  | 1 => some (.word s.status.toWord)
  | 2 => some (.word s.result.toWord)
  | 3 => some (.word s.config.toWord)
  | 4 => some (.word s.hmetric)
  | 5 => some (valueOfSoft enc s.smetric)
  | _ => none

/-- The value of an element as the host reads it; none when the buffer has no such element (R52) or it was never written
(R40). -/
def readElement {α : Type} (nMax : Nat) (b : Buf α) (show_ : α → HostValue P) (index : Nat) : Option (HostValue P) :=
  if index < nMax then (b.read index).map show_ else none

/-- The value a host read returns; none when the read is not admitted (R40, R51, R52, R53, R56). Region 7 holds nothing
(R50). -/
def hostValueAt (enc : SoftEnc S P) (s : Generic.State S P) (a : Addr) : Option (HostValue P) :=
  match a.region.toNat with
  | 0 => readRegister enc s a.index.toNat
  | 1 => readElement s.params.nMax s.mem.ibuf wordOfBit a.index.toNat
  | 2 => readElement s.params.nMax s.mem.hobs wordOfSym a.index.toNat
  | 3 => readElement s.params.nMax s.mem.sobsX (valueOfSoft enc) a.index.toNat
  | 4 => readElement s.params.nMax s.mem.symout wordOfSym a.index.toNat
  | 5 => readElement s.params.nMax s.mem.bitout wordOfBit a.index.toNat
  | 6 => readElement s.params.nMax s.mem.sobsY (valueOfSoft enc) a.index.toNat
  | _ => none

/-- A host read (R53): it returns the element and has no side effect on the block; a read that is not admitted is a host
fault (R57). -/
def hostRead (enc : SoftEnc S P) (a : Addr) (s : Generic.State S P) : Host.Outcome (Generic.State S P) Fault Refusal :=
  match hostValueAt enc s a with
  | some v => .next { s with readData := some v }
  | none => .fault .hostFault

/-- Store a host value in an input buffer; none when the index or the value is not admitted (R52, R55). -/
def writeElement {α : Type} (nMax : Nat) (b : Buf α) (value : Option α) (index : Nat) : Option (Buf α) :=
  if index < nMax then value.map (fun v => b.write index v) else none

/-- The state after a host write to a location other than `CMD`; none when it is not admitted (R51, R52, R55, R56): only
`CONFIG`, `IBUF`, `HOBS`, `SOBS_X` and `SOBS_Y` may be written. -/
def hostWritten (enc : SoftEnc S P) (s : Generic.State S P) (a : Addr) (v : HostValue P) : Option (Generic.State S P) :=
  match a.region.toNat with
  | 0 =>
    match a.index.toNat, v with
    | 3, .word w => (ConfigReg.ofWord w).map (fun c => { s with config := c })
    | _, _ => none
  | 1 =>
    (writeElement s.params.nMax s.mem.ibuf (bitOfValue v) a.index.toNat).map
      (fun b => { s with mem := { s.mem with ibuf := b } })
  | 2 =>
    (writeElement s.params.nMax s.mem.hobs (symOfValue v) a.index.toNat).map
      (fun b => { s with mem := { s.mem with hobs := b } })
  | 3 =>
    (writeElement s.params.nMax s.mem.sobsX (softOfValue enc v) a.index.toNat).map
      (fun b => { s with mem := { s.mem with sobsX := b } })
  | 6 =>
    (writeElement s.params.nMax s.mem.sobsY (softOfValue enc v) a.index.toNat).map
      (fun b => { s with mem := { s.mem with sobsY := b } })
  | _ => none

/-- A host write to a location other than `CMD` (R54); one that is not admitted is a host fault (R57). -/
def hostWrite (enc : SoftEnc S P) (a : Addr) (v : HostValue P) (s : Generic.State S P) : Host.Outcome (Generic.State S P) Fault Refusal :=
  match hostWritten enc s a v with
  | some t => .next t
  | none => .fault .hostFault

/-- The command word a host write issues: a 32-bit word written to `CMD` (R54, R55). -/
def commandWord (a : Addr) (v : HostValue P) : Option Word :=
  match v with
  | .word w => if a = cmdAddr then some w else none
  | .soft _ => none

/-! ### Reset and the host's events -/

/-- The reset input (70_reset_and_hazards.md R240): every piece of state at its reset value (10_state.md R46). The
parameters, the host's further accesses and the draw source are inputs (R47), not state, and stay (log 8). -/
def applyReset [Zero S] (s : Generic.State S P) : Generic.State S P :=
  { resetWith s.params with pending := s.pending, draws := s.draws }

/-- The next event of the host and the state without it. -/
def nextEvent (s : Generic.State S P) : Option (Event P × Generic.State S P) :=
  match s.pending with
  | [] => none
  | e :: rest => some (e, { s with pending := rest })

/-- The meaning of a decoded command: what `exec` is, an argument here so that the steps below stand once for every soft
domain. -/
abbrev Meaning (S P : Type) := Instr → Generic.State S P → Host.Outcome (Generic.State S P) Fault Refusal

/-- `issue(w)` (R76), one atomic step (00_scope.md R7). An undecodable word raises `ILLEGAL` (R77, R78). After a model fault
`CMD` holds the word and the rest is as before (R220, log 2). -/
def issue (run : Meaning S P) (w : Word) (s : Generic.State S P) : Host.Outcome (Generic.State S P) Fault Refusal :=
  match decode w with
  | .ok i => absorbFault { s with cmd := w } (run i (beginCommand w s))
  | .error _ => .next (raiseCmdError .illegal (beginCommand w s))

/-- One event of the host: a read, a write (of `CMD`: the command it issues), or the reset input. A host fault marks the run
(R57, R220). -/
def runEvent [Zero S] (run : Meaning S P) (enc : SoftEnc S P) (e : Event P) (s : Generic.State S P) :
    Host.Outcome (Generic.State S P) Fault Refusal :=
  match e with
  | .read a => absorbFault { s with readData := none } (hostRead enc a s)
  | .write a v =>
    match commandWord a v with
    | some w => issue run w s
    | none => absorbFault s (hostWrite enc a v s)
  | .reset => .next (applyReset s)

/-- One step: the next event of the host. With none pending the block waits for host accesses (70_reset_and_hazards.md R240,
log 3). -/
def stepWith [Zero S] (run : Meaning S P) (enc : SoftEnc S P) (s : Generic.State S P) :
    Host.Outcome (Generic.State S P) Fault Refusal :=
  match nextEvent s with
  | none => .next s
  | some (e, rest) => runEvent run enc e rest

/-- The event list that issues the command word `w` next (30_encoding.md R76). -/
def placeCommand (w : Word) (s : Generic.State S P) : Generic.State S P :=
  { s with pending := .write cmdAddr (.word w) :: s.pending }

end Sys2Proof.Machine
end

