-- ==== Sys2Proof/Machine/Encoder.lean ====
section
/-! DEFINITION. The encoder state machine: `next`, `out`, `dist`, and the commands `ENC_STEP` and `ENC_SEQ` (40_encoder.md). -/
namespace Sys2Proof.Machine

variable {S P : Type}

/-- `next(s, b)`: from `(first, second)`, bit `b` leads to `(second, b)` (R101, R102). -/
def nextState (s : EncState) (b : Bit) : EncState := ⟨s.second, b⟩

/-- `out(s, b)` (R104): generator 7 taps u[t], u[t-1], u[t-2]; generator 5 taps u[t], u[t-2]. Under `G57` the two bits are
swapped. -/
def outSym (g : GenOrder) (s : EncState) (b : Bit) : Sym :=
  match g with
  | .g75 => { c0 := b ^^ s.second ^^ s.first, c1 := b ^^ s.first }
  | .g57 => { c0 := b ^^ s.first, c1 := b ^^ s.second ^^ s.first }

/-- `dist(a, b)`, the Hamming distance of two symbols (R115). -/
def dist (a b : Sym) : Nat := (a.c0 ^^ b.c0).toNat + (a.c1 ^^ b.c1).toNat

/-- `encode_sequence`, the fold of the step function (R112): the final state and the symbols. -/
def encodeFrom (g : GenOrder) (s : EncState) : List Bit → EncState × List Sym
  | [] => (s, [])
  | b :: bs =>
    let rest := encodeFrom g (nextState s b) bs
    (rest.1, outSym g s b :: rest.2)

/-- `ENC_STEP` (R110). -/
def execEncStep (st : EncState) (b : Bit) (s : Generic.State S P) : Host.Outcome (Generic.State S P) Fault Refusal :=
  .next (complete (s.setTransition (nextState st b) (outSym s.params.genOrder st b)))

/-- `ENC_SEQ` (R112): the outputs are written only after every read succeeded. -/
def execEncSeq (st : EncState) (len : Nat) (s : Generic.State S P) : Host.Outcome (Generic.State S P) Fault Refusal :=
  if encodeLengthOk s len then
    match s.mem.ibuf.readSeq 0 len with
    | none => .fault .unwritten
    | some bits =>
      let r := encodeFrom s.params.genOrder st bits
      .next (complete ((s.writeSymout r.2).setFinalState r.1))
  else .next (raiseCmdError .length s)

end Sys2Proof.Machine
end

