-- ==== Sys2Proof/Machine/Trellis.lean ====
section
/-! DEFINITION. The trellis, the path memo, relaxation and traceback, shared by the hard and the soft decoder (43_hard_viterbi.md
R160, R163 to R170; 44_soft_viterbi.md R192). -/
namespace Sys2Proof.Machine

/-- The edges out of the nodes of one time in relaxation order: states 0 to 3, within a state bit 0 then bit 1 (R160, R164). -/
def trellisEdges : List (EncState × Bit) := allStates.flatMap fun s => [(s, false), (s, true)]

/-- A column in which every entry is undefined (R163). -/
def emptyColumn (κ : Type) : Column κ := ⟨none, none, none, none⟩

/-- The memo at time 0: `MEMO[0][0]` has cost 0, the other states are undefined (R163). Its `pred` and `bit` are not used
(R163); the model holds 0 there (log 12). -/
def initialColumn (κ : Type) [Zero κ] : Column κ := ⟨some ⟨0, stateZero, false⟩, none, none, none⟩

/-- `relax` into node `n` with the candidate entry `e` (R165): an undefined or dearer entry is replaced. On a tie the stored
entry is kept, or, in the randomized mode, one draw decides (R166, R167, 44_soft_viterbi.md R195). -/
def relax {κ : Type} [LT κ] [DecidableLT κ] [DecidableEq κ] (randomTie : Bool) (n : EncState) (e : Entry κ)
    (acc : Column κ × DrawSource) : Column κ × DrawSource :=
  match acc.1.get n with
  | none => (acc.1.set n (some e), acc.2)
  | some old =>
    if e.cost < old.cost then (acc.1.set n (some e), acc.2)
    else if e.cost = old.cost ∧ randomTie = true then
      (if acc.2.draw.1 then acc.1.set n (some e) else acc.1, acc.2.draw.2)
    else acc

/-- Relax the edge from `edge.1` on bit `edge.2` out of the column `prev`; an undefined state is skipped (R164, R165).
`metric` is the branch metric of the emitted symbol. -/
def relaxEdge {κ : Type} [Add κ] [LT κ] [DecidableLT κ] [DecidableEq κ] (g : GenOrder) (randomTie : Bool)
    (metric : Sym → κ) (prev : Column κ) (acc : Column κ × DrawSource) (edge : EncState × Bit) : Column κ × DrawSource :=
  match prev.get edge.1 with
  | none => acc
  | some p =>
    relax randomTie (nextState edge.1 edge.2) ⟨p.cost + metric (outSym g edge.1 edge.2), edge.1, edge.2⟩ acc

/-- One time step of the forward pass: the column `t+1` from the column `t` (R164). -/
def advance {κ : Type} [Add κ] [LT κ] [DecidableLT κ] [DecidableEq κ] (g : GenOrder) (randomTie : Bool)
    (metric : Sym → κ) (prev : Column κ) (d : DrawSource) : Column κ × DrawSource :=
  trellisEdges.foldl (relaxEdge g randomTie metric prev) (emptyColumn κ, d)

/-- The forward pass over the observations (R164): the columns of the times 1 to `N` and the draw source after it. -/
def forward {κ ω : Type} [Add κ] [LT κ] [DecidableLT κ] [DecidableEq κ] (g : GenOrder) (randomTie : Bool)
    (metric : ω → Sym → κ) : List ω → Column κ → DrawSource → List (Column κ) × DrawSource
  | [], _, d => ([], d)
  | o :: os, prev, d =>
    let r := advance g randomTie (metric o) prev d
    let rest := forward g randomTie metric os r.1 r.2
    (r.1 :: rest.1, rest.2)

/-- The walk of `traceback` (R169) over the columns of the times `t` down to 1, from state `s`; `acc` holds the bits of the
later steps. Every node it visits is valid (R170); none is its answer where one is not (log 13). -/
def walkBack {κ : Type} : List (Column κ) → EncState → List Bit → Option (List Bit)
  | [], _, acc => some acc
  | c :: older, s, acc =>
    match c.get s with
    | none => none
    | some e => walkBack older e.pred (e.bit :: acc)

/-- `traceback(N)` and `MEMO[0][N].cost` from the columns of the times 1 to `N` (R169, R172, 44_soft_viterbi.md R199); none
when no path reaches state 0 (R170). -/
def bestPath {κ : Type} (cols : List (Column κ)) : Option (List Bit × κ) :=
  match cols.reverse with
  | [] => none
  | last :: older =>
    match last.get stateZero with
    | none => none
    | some e => (walkBack (last :: older) stateZero []).map (fun bits => (bits, e.cost))

/-- A memo column with its costs tagged for `MEMO` (10_state.md R43). -/
def tagColumn {κ S : Type} (tag : κ → Cost S) (c : Column κ) : Column (Cost S) :=
  let tagEntry := fun (e : Option (Entry κ)) => e.map (fun e => (⟨tag e.cost, e.pred, e.bit⟩ : Entry (Cost S)))
  ⟨tagEntry c.at0, tagEntry c.at1, tagEntry c.at2, tagEntry c.at3⟩

end Sys2Proof.Machine
end

