-- ==== Sys2Proof/Machine/HardViterbi.lean ====
section
/-! DEFINITION. The hard-decision Viterbi decoder `HARD_DP` (43_hard_viterbi.md). -/
namespace Sys2Proof.Machine

variable {S P : Type}

/-- `bm_hard` (R162): the distance of the emitted symbol and the hard observation. -/
def bmHard (obs y : Sym) : Nat := dist y obs

/-- The forward pass of `HARD_DP` on the observations `hs` (R171). -/
def hardPass (s : Generic.State S P) (hs : List Sym) : List (Column Nat) × DrawSource :=
  forward s.params.genOrder s.config.hardTie bmHard hs (initialColumn Nat) s.draws

/-- `MEMO` and the draw source after the forward pass. -/
def afterHardPass (s : Generic.State S P) (hs : List Sym) : Generic.State S P :=
  (s.storeMemo ((initialColumn Nat :: (hardPass s hs).1).map (tagColumn .hard))).setDraws (hardPass s hs).2

/-- `HARD_DP` (R171). `NO_PATH` is checked and unreachable (R170). -/
def execHardDp (len : Nat) (s : Generic.State S P) : Host.Outcome (Generic.State S P) Fault Refusal :=
  if decodeLengthOk s len then
    match s.mem.hobs.readSeq 0 len with
    | none => .fault .unwritten
    | some hs =>
      match bestPath (hardPass s hs).1 with
      | none => .next (raiseCmdError .noPath (afterHardPass s hs))
      | some (bits, cost) => .next (complete (((afterHardPass s hs).writeBitout bits).setHmetric cost))
  else .next (raiseCmdError .length s)

end Sys2Proof.Machine
end

