-- ==== Sys2Proof/Machine/Lookahead.lean ====
section
/-! DEFINITION. The look-ahead table decoder: building the table, `LA_BUILD`, `LA_LOOKUP`, `LA_DECODE` (42_lookahead.md). -/
namespace Sys2Proof.Machine

variable {S P : Type}

/-- A survivor `(d, b0)` of one end state (R133). -/
structure Survivor where
  d : Nat
  b0 : Bit
deriving DecidableEq, Repr

/-- The survivors by end state; `none` is an end state that has none yet (R133). -/
abbrev Survivors := PerState (Option Survivor)

/-- Hypotheses `h = 0..7` as `(b0, b1, b2) = (h[2], h[1], h[0])`, in ascending order of `h` (R131). -/
def hypotheses : List (Bit × Bit × Bit) :=
  [(false, false, false), (false, false, true), (false, true, false), (false, true, true),
   (true, false, false), (true, false, true), (true, true, false), (true, true, true)]

/-- `replay` (R132): the end state and the distance accumulated over pairs of input bit and received symbol. -/
def replay (g : GenOrder) (x : EncState) (d : Nat) : List (Bit × Sym) → EncState × Nat
  | [] => (x, d)
  | (b, r) :: rest => replay g (nextState x b) (d + dist (outSym g x b) r) rest

/-- One hypothesis with end state `e`, distance `d` and first bit `b0` (R133): it becomes the survivor, replaces it, is
dropped, or (with `LA_TIE = 1`) aborts the build on a survivor tie (R137). -/
def consider (laTie : Bool) (e : EncState) (d : Nat) (b0 : Bit) (surv : Survivors) : Except ErrCode Survivors :=
  match surv.get e with
  | none => .ok (surv.set e (some ⟨d, b0⟩))
  | some old =>
    if d < old.d then .ok (surv.set e (some ⟨d, b0⟩))
    else if d = old.d ∧ laTie = true then .error .tieState
    else .ok surv

/-- The survivors after the hypotheses of a list, in its order (R131, R134). -/
def survivorsOf (g : GenOrder) (laTie : Bool) (s : EncState) (r0 r1 r2 : Sym) :
    List (Bit × Bit × Bit) → Survivors → Except ErrCode Survivors
  | [], surv => .ok surv
  | (b0, b1, b2) :: hs, surv =>
    let r := replay g s 0 [(b0, r0), (b1, r1), (b2, r2)]
    match consider laTie r.1 r.2 b0 surv with
    | .error c => .error c
    | .ok surv' => survivorsOf g laTie s r0 r1 r2 hs surv'

/-- What one survivor adds to the vote: its first bit; an absent survivor adds nothing (R135). -/
def firstBitOf : Option Survivor → Nat
  | none => 0
  | some v => v.b0.toNat

/-- The sum of the surviving first bits (R134, R135). -/
def voteSum (surv : Survivors) : Nat :=
  firstBitOf surv.at0 + firstBitOf surv.at1 + firstBitOf surv.at2 + firstBitOf surv.at3

/-- The better of the best survivor so far and the next end state's: the smaller distance, the earlier on equality (R136). -/
def betterSurvivor : Option Survivor → Option Survivor → Option Survivor
  | none, w => w
  | some v, none => some v
  | some v, some w => if w.d < v.d then some w else some v

/-- `resolve_vote` (R136): the first bit of the survivor of smallest distance, the lowest end state on equality. -/
def resolveVote (surv : Survivors) : Bit :=
  match betterSurvivor (betterSurvivor (betterSurvivor surv.at0 surv.at1) surv.at2) surv.at3 with
  | none => false
  | some v => v.b0

/-- The vote of R134: below 2 gives 0, above 2 gives 1, exactly 2 is a vote tie (R135, R136, R137). -/
def vote (laTie : Bool) (surv : Survivors) : Except ErrCode Bit :=
  if voteSum surv < 2 then .ok false
  else if 2 < voteSum surv then .ok true
  else if laTie then .error .tieVote
  else .ok (resolveVote surv)

/-- One cell of the table (R130, R134): its bit, or the tie that aborts the build. -/
def laCell (g : GenOrder) (laTie : Bool) (s : EncState) (r0 r1 r2 : Sym) : Except ErrCode Bit :=
  match survivorsOf g laTie s r0 r1 r2 hypotheses ⟨none, none, none, none⟩ with
  | .error c => .error c
  | .ok surv => vote laTie surv

/-- The linear index `{s, r0, r1, r2}` of a cell (10_state.md R41). -/
def laIndex (s : EncState) (r0 r1 r2 : Sym) : Nat :=
  (s.toBits ++ r0.toBits ++ r1.toBits ++ r2.toBits : BitVec 8).toNat

/-- `LA_TABLE[s][r0][r1][r2]` (R41). -/
def readTable (t : LaTable) (s : EncState) (r0 r1 r2 : Sym) : Bit := t.getLsbD (laIndex s r0 r1 r2)

/-- `LA_TABLE[s][r0][r1][r2] <- v` (R134). -/
def writeTable (t : LaTable) (s : EncState) (r0 r1 r2 : Sym) (v : Bit) : LaTable :=
  if v then t ||| BitVec.twoPow 256 (laIndex s r0 r1 r2) else t &&& ~~~(BitVec.twoPow 256 (laIndex s r0 r1 r2))

/-- The cells in loop order: `s` outermost, `r2` innermost (R134). -/
def laCells : List (EncState × Sym × Sym × Sym) :=
  allStates.flatMap fun s => allSyms.flatMap fun r0 => allSyms.flatMap fun r1 => allSyms.map fun r2 => (s, r0, r1, r2)

/-- The build loop (R134): the table after the cells of a list, and the tie that ended it if one did. The cells written before
an abort hold their values (R137). -/
def buildTable (g : GenOrder) (laTie : Bool) : List (EncState × Sym × Sym × Sym) → LaTable → LaTable × Option ErrCode
  | [], t => (t, none)
  | (s, r0, r1, r2) :: cells, t =>
    match laCell g laTie s r0 r1 r2 with
    | .error c => (t, some c)
    | .ok v => buildTable g laTie cells (writeTable t s r0 r1 r2 v)

/-- `LA_BUILD` (R134): `LA_VALID` is 0 from the start and becomes 1 only when all 256 cells are written (R138); an abort
leaves it 0 (R137). -/
def execLaBuild (s : Generic.State S P) : Host.Outcome (Generic.State S P) Fault Refusal :=
  match buildTable s.params.genOrder s.config.laTie laCells s.laTable with
  | (t, none) => .next (complete (s.setTable t true))
  | (t, some c) => .next (raiseCmdError c (s.setTable t false))

/-- `LA_LOOKUP` (R145). -/
def execLaLookup (st : EncState) (s0 s1 s2 : Sym) (s : Generic.State S P) : Host.Outcome (Generic.State S P) Fault Refusal :=
  if s.status.laValid then .next (complete (s.setLbit (readTable s.laTable st s0 s1 s2)))
  else .next (raiseCmdError .notBuilt s)

/-- The windows of R150: at each position the cell of the current state and the next three symbols gives a bit, and the
encoder transition on that bit gives the next state. -/
def lookupBits (t : LaTable) : EncState → List Sym → List Bit
  | s, h0 :: h1 :: h2 :: rest =>
    readTable t s h0 h1 h2 :: lookupBits t (nextState s (readTable t s h0 h1 h2)) (h1 :: h2 :: rest)
  | _, _ => []

/-- The observations the windows read: `HOBS[0..N-1]`, or no element when `N = 2` (R150, 20_memory.md R69). -/
def windowInput (b : Buf Sym) (len : Nat) : Option (List Sym) := if 3 ≤ len then b.readSeq 0 len else some []

/-- `LA_DECODE` (R150): `N-2` bits looked up, then two zero bits appended (R151). -/
def execLaDecode (len : Nat) (s : Generic.State S P) : Host.Outcome (Generic.State S P) Fault Refusal :=
  if decodeLengthOk s len then
    if s.status.laValid then
      match windowInput s.mem.hobs len with
      | none => .fault .unwritten
      | some hs => .next (complete (s.writeBitout (lookupBits s.laTable stateZero hs ++ [false, false])))
    else .next (raiseCmdError .notBuilt s)
  else .next (raiseCmdError .length s)

end Sys2Proof.Machine
end

