-- ==== Sys2Proof/Machine/Channel.lean ====
section
/-! DEFINITION. The constellation the soft metric uses, and the host-side channel functions that make decoder inputs
(41_channel_interface.md). Only `point` is used by the block; `addNoise` and `quantize` describe the environment (log 19). -/
namespace Sys2Proof.Machine

variable {S : Type}

/-- `pm(c)`: bit 1 maps to +1 and bit 0 to -1 (R121). -/
def pm [CommRing S] (c : Bit) : S := if c then 1 else -1

/-- `point(y)`, the constellation point of a symbol, for `c0` and for `c1` (R121). -/
def point [CommRing S] (y : Sym) : S × S := (pm y.c0, pm y.c1)

/-- `add_noise(y, sigma)` with the two standard-normal draws as arguments (R122). Host side. -/
def addNoise [CommRing S] (y : Sym) (sigma g0 g1 : S) : S × S := (pm y.c0 + sigma * g0, pm y.c1 + sigma * g1)

/-- `quantize`: non-negative maps to 1 and negative to 0 (R123). Host side. -/
def quantize [Zero S] [LinearOrder S] (x : S × S) : Sym := { c0 := decide (0 ≤ x.1), c1 := decide (0 ≤ x.2) }

end Sys2Proof.Machine
end

