-- ==== Sys2Proof/Machine/SoftViterbi.lean ====
section
/-! DEFINITION. The soft-decision Viterbi decoder `SOFT_DP` (44_soft_viterbi.md), over every ordered commutative
ring `S` (the parameter `SOFT`, 00_scope.md R9, R193). -/
namespace Sys2Proof.Machine

variable {S P : Type}

/-- `bm_soft` (R190): the squared Euclidean distance of the observation and the emitted symbol's constellation point. -/
def bmSoft [CommRing S] (obs : S × S) (y : Sym) : S :=
  (obs.1 - (point y).1) * (obs.1 - (point y).1) + (obs.2 - (point y).2) * (obs.2 - (point y).2)

/-- The pairs `(SOBS_X[t], SOBS_Y[t])` for `t` in `0..N-1`, none when an element was never written (R196). -/
def readSoftObs (m : Memory S) (len : Nat) : Option (List (S × S)) :=
  match m.sobsX.readSeq 0 len, m.sobsY.readSeq 0 len with
  | some xs, some ys => some (xs.zip ys)
  | _, _ => none

/-- The forward pass of `SOFT_DP`: ties keep the stored entry, whatever `CONFIG` holds, and no draw is taken (R195). -/
def softPass [CommRing S] [LinearOrder S] (s : Generic.State S P) (os : List (S × S)) : List (Column S) × DrawSource :=
  forward s.params.genOrder false bmSoft os (initialColumn S) s.draws

/-- `MEMO` after the forward pass. -/
def afterSoftPass [CommRing S] [LinearOrder S] (s : Generic.State S P) (os : List (S × S)) : Generic.State S P :=
  s.storeMemo ((initialColumn S :: (softPass s os).1).map (tagColumn .soft))

/-- `SOFT_DP` (R196). `NO_PATH` is checked and unreachable (R170, R192). -/
def execSoftDp [CommRing S] [LinearOrder S] (len : Nat) (s : Generic.State S P) : Host.Outcome (Generic.State S P) Fault Refusal :=
  if decodeLengthOk s len then
    match readSoftObs s.mem len with
    | none => .fault .unwritten
    | some os =>
      match bestPath (softPass s os).1 with
      | none => .next (raiseCmdError .noPath (afterSoftPass s os))
      | some (bits, cost) => .next (complete (((afterSoftPass s os).writeBitout bits).setSmetric cost))
  else .next (raiseCmdError .length s)

end Sys2Proof.Machine
end

