-- ==== Sys2Proof/Machine/Dispatch.lean ====
section
/-! DEFINITION. The dispatch of a decoded command to its meaning (30_encoding.md R75, R76). -/
namespace Sys2Proof.Machine

def exec (i : Instr) (s : State) : Host.Outcome State Fault Refusal :=
  match i with
  | .encStep st b => Sys2Proof.Machine.execEncStep st b s
  | .encSeq st len => Sys2Proof.Machine.execEncSeq st len s
  | .laBuild => Sys2Proof.Machine.execLaBuild s
  | .laLookup st s0 s1 s2 => Sys2Proof.Machine.execLaLookup st s0 s1 s2 s
  | .laDecode len => Sys2Proof.Machine.execLaDecode len s
  | .hardDp len => Sys2Proof.Machine.execHardDp len s
  | .softDp len => Sys2Proof.Machine.execSoftDp len s

end Sys2Proof.Machine
end

