-- ==== Sys2Proof/Machine/Step.lean ====
section
/-! DEFINITION. One step of the machine: the next event of the host, with the command a write to `CMD` issues
(20_memory.md R53, R54, R63; 30_encoding.md R76). -/
namespace Sys2Proof.Machine

/-- One step, with the commands' meanings of `exec` and the format `referenceEnc`. -/
def step (s : State) : Host.Outcome State Fault Refusal := stepWith exec referenceEnc s

/-- `s` with a command word as the host's next access: the next step issues exactly it (R76, log 3). -/
def State.withFetchWord (s : State) (nbits w : Nat) : State := placeCommand (BitVec.ofNat 32 (w % 2 ^ nbits)) s

end Sys2Proof.Machine
end

