-- ==== Sys2Proof/Machine/Assembler.lean ====
section
/-! DEFINITION. The host-access syntax and the pseudo-commands as lists of host events (30_encoding.md R80 to R82). What
they make of a list or a length beyond 16 bits is the model's DESIGN CHOICE (log 22). -/
namespace Sys2Proof.Machine

variable {P : Type}

/-- `CMD <mnemonic> <operands>`: a host write of the assembled word to `CMD` (R81). -/
def cmdEvent (i : Instr) : Event P := .write cmdAddr (.word (encode i))

/-- `WRSEQ <REGION> <- [v0, v1, ...]` from index `k` on: element `k` gets the first value, in index order (R81). With more values
than the 16-bit index can name the index wraps, which R81 leaves open: DESIGN CHOICE (log 22). -/
def wrSeq (region : BitVec 3) (k : Nat) : List (HostValue P) → List (Event P)
  | [] => []
  | v :: vs => .write { region := region, index := BitVec.ofNat 16 k } v :: wrSeq region (k + 1) vs

/-- `RD <REGION>[i]` for `i` from `k` on, `n` elements (R81). The index wraps as in `wrSeq`: DESIGN CHOICE (log 22). -/
def rdSeq (region : BitVec 3) (k : Nat) : Nat → List (Event P)
  | 0 => []
  | n + 1 => .read { region := region, index := BitVec.ofNat 16 k } :: rdSeq region (k + 1) n

/-- `ENCODE len=N` (R82): `ENC_SEQ` from the all-zero state. -/
def pseudoEncode (n : Nat) : List (Event P) := [cmdEvent (.encSeq stateZero n)]

/-- `ENCODE_BITS [b0..bN-1]` (R82). -/
def pseudoEncodeBits (bs : List Bit) : List (Event P) :=
  wrSeq 1 0 (bs.map wordOfBit) ++ [cmdEvent (.encSeq stateZero bs.length)]

/-- `DECODE_LA [h0..hN-1]` (R82). -/
def pseudoDecodeLa (hs : List Sym) : List (Event P) := wrSeq 2 0 (hs.map wordOfSym) ++ [cmdEvent (.laDecode hs.length)]

/-- `DECODE_HARD [h0..hN-1]` (R82). -/
def pseudoDecodeHard (hs : List Sym) : List (Event P) := wrSeq 2 0 (hs.map wordOfSym) ++ [cmdEvent (.hardDp hs.length)]

/-- `DECODE_SOFT [(x0,y0)..]` (R82), each value as a host pattern. -/
def pseudoDecodeSoft (os : List (P × P)) : List (Event P) :=
  wrSeq 3 0 (os.map fun o => .soft o.1) ++ wrSeq 6 0 (os.map fun o => .soft o.2) ++ [cmdEvent (.softDp os.length)]

end Sys2Proof.Machine
end

