-- ==== Sys2Proof/Machine/Generic.lean ====
section
/-! DEFINITION. The machine with R9's open parameters `SOFT` and `SOFT_ENC` taken as arguments (00_scope.md R9, R47, D5): any
ordered commutative ring and any format. `exec`, `step` and `State.reset` are these at the reference instantiation. -/
namespace Sys2Proof.Machine

variable {S P : Type}

/-- The dispatch of a decoded command (30_encoding.md R75, R76), over every soft domain. -/
def execOf [CommRing S] [LinearOrder S] (i : Instr) (s : Generic.State S P) : Host.Outcome (Generic.State S P) Fault Refusal :=
  match i with
  | .encStep st b => execEncStep st b s
  | .encSeq st len => execEncSeq st len s
  | .laBuild => execLaBuild s
  | .laLookup st s0 s1 s2 => execLaLookup st s0 s1 s2 s
  | .laDecode len => execLaDecode len s
  | .hardDp len => execHardDp len s
  | .softDp len => execSoftDp len s

/-- One step, over every soft domain and format. -/
def stepOf [CommRing S] [LinearOrder S] (enc : SoftEnc S P) (s : Generic.State S P) :
    Host.Outcome (Generic.State S P) Fault Refusal :=
  stepWith execOf enc s

/-- `k` steps, stopping at the first that does not answer a next state. -/
def runOf [CommRing S] [LinearOrder S] (enc : SoftEnc S P) : Nat → Generic.State S P →
    Host.Outcome (Generic.State S P) Fault Refusal
  | 0, s => .next s
  | k + 1, s =>
    match stepOf enc s with
    | .next t => runOf enc k t
    | o => o

end Sys2Proof.Machine
end

