-- ==== Sys2Proof/Safety.lean ====
section
/-! DEFINITION. What a safe state and a good run are, and the reference terms the statements are written in: paths, path
costs, what a buffer holds, which host accesses are admitted, which locations a command may write. -/
namespace Sys2Proof.Machine

variable {S P : Type}

/-! ### Safe states and runs -/

/-- The table every successful build of a generator order writes (10_state.md R42, 42_lookahead.md R140). -/
def builtTable (g : GenOrder) : LaTable := (buildTable g false laCells 0).1

/-- The invariant every step keeps. -/
structure Generic.State.Inv [Zero S] [LE S] (s : Generic.State S P) : Prop where
  /-- 00_scope.md R9. -/
  paramsLegal : s.params.Legal
  /-- Buffers in canonical form, no element beyond the capacity (20_memory.md R52). -/
  memWf : s.mem.wf s.params.nMax
  /-- No host access observes `BUSY = 1` (10_state.md R28). -/
  notBusy : s.status.busy = false
  /-- A command that ends with an error sets `STICKY`, and only reset clears it (R27). -/
  errSticky : s.status.err ≠ .ok → s.status.sticky = true
  /-- `HMETRIC` is at most 2·`N_MAX` (R31, 00_scope.md R10). -/
  hmetricBound : s.hmetric.toNat ≤ 2 * s.params.nMax
  /-- A soft path metric is a sum of squares (44_soft_viterbi.md R194). -/
  smetricNonneg : 0 ≤ s.smetric
  /-- A valid table is the one table of the generator order (10_state.md R42). -/
  tableBuilt : s.status.laValid = true → s.laTable = builtTable s.params.genOrder
  /-- `MEMO` has columns for the times 0 to `N_MAX` (R43). -/
  memoBound : s.memo.length ≤ s.params.nMax + 1

/-- A faulted state is never a good final state (60_exceptions.md R220). -/
abbrev Generic.State.Good (s : Generic.State S P) : Prop := s.faulted = false

/-- The observation of a run (70_reset_and_hazards.md R252): registers, buffers with their written marks, `faulted`, draws. -/
structure Observation (S : Type) where
  cmd : Word
  status : Word
  result : Word
  config : Word
  hmetric : Word
  smetric : S
  mem : Memory S
  faulted : Bool
  drawsTaken : List Bool
deriving DecidableEq, Repr

/-- What is observed of a final state (R252). -/
def observe (s : Generic.State S P) : Observation S where
  cmd := s.cmd
  status := s.status.toWord
  result := s.result.toWord
  config := s.config.toWord
  hmetric := s.hmetric
  smetric := s.smetric
  mem := s.mem
  faulted := s.faulted
  drawsTaken := s.draws.taken.reverse

/-- A run (R252): reset, then a finite sequence of host events, each one step. -/
def runFromReset [CommRing S] [LinearOrder S] (enc : SoftEnc S P) (p : Params) (es : List (Event P)) :
    Host.Outcome (Generic.State S P) Fault Refusal :=
  runOf enc es.length { resetWith p with pending := es }

/-! ### Paths through the trellis -/

/-- The state a path ends in (43_hard_viterbi.md R160). -/
def endState (s : EncState) (bits : List Bit) : EncState := bits.foldl nextState s

/-- The total branch metric of an input path from `s` over the observations (R160, R162, 44_soft_viterbi.md R190). -/
def pathCost {κ ω : Type} [Zero κ] [Add κ] (g : GenOrder) (metric : ω → Sym → κ) : EncState → List Bit → List ω → κ
  | s, b :: bs, o :: os => metric o (outSym g s b) + pathCost g metric (nextState s b) bs os
  | _, _, _ => 0

/-! ### Survivor paths

The forward pass told without a memo: each node keeps the cost and the whole input path of its survivor, and the draws are
numbered. -/

/-- Draw number `k` of a source from where it stands: the Boolean supplied, or the free value of its position (00_scope.md R8). -/
def drawAt (d : DrawSource) (k : Nat) : Bool :=
  match d.supplied[k]? with
  | some v => v
  | none => Config.draw (d.taken.length + k)

/-- A source after its next `k` draws (10_state.md R45; the record is log 7). -/
def afterDraws (d : DrawSource) (k : Nat) : DrawSource :=
  { supplied := d.supplied.drop k, taken := ((List.range k).map (drawAt d)).reverse ++ d.taken }

/-- The survivor of each node, none where no path leads, and how many draws were taken. -/
abbrev Survivals (κ : Type) := PerState (Option (κ × List Bit)) × Nat

/-- The survivor of one node (43_hard_viterbi.md R165 to R167) from the paths that reach it over its lower and its upper
predecessor: the cheaper path; on a tie the lower predecessor's, or in the randomized mode one draw, the upper one's when it is
true. -/
def survivorOf {κ : Type} [LinearOrder κ] (randomTie : Bool) (draws : Nat → Bool) (taken : Nat) :
    Option (κ × List Bit) → Option (κ × List Bit) → Option (κ × List Bit) × Nat
  | none, upper => (upper, taken)
  | some lower, none => (some lower, taken)
  | some lower, some upper =>
    if lower.1 < upper.1 then (some lower, taken)
    else if upper.1 < lower.1 then (some upper, taken)
    else if randomTie then (some (if draws taken then upper else lower), taken + 1)
    else (some lower, taken)

/-- One time step: the survivors of the nodes 0 to 3, in the order of their tie events (R108, R164). -/
def extendSurvivors {κ : Type} [Add κ] [LinearOrder κ] (g : GenOrder) (randomTie : Bool) (draws : Nat → Bool) (metric : Sym → κ)
    (v : Survivals κ) : Survivals κ :=
  let along := fun (p : EncState) (b : Bit) => (v.1.get p).map fun x => (x.1 + metric (outSym g p b), x.2 ++ [b])
  let node := fun (n : EncState) (taken : Nat) =>
    survivorOf randomTie draws taken (along ⟨false, n.first⟩ n.second) (along ⟨true, n.first⟩ n.second)
  let r0 := node ⟨false, false⟩ v.2
  let r1 := node ⟨false, true⟩ r0.2
  let r2 := node ⟨true, false⟩ r1.2
  let r3 := node ⟨true, true⟩ r2.2
  (⟨r0.1, r1.1, r2.1, r3.1⟩, r3.2)

/-- The survivors after the observations, from the empty path at state 0 (R163, R164). -/
def survivorPaths {κ ω : Type} [Zero κ] [Add κ] [LinearOrder κ] (g : GenOrder) (randomTie : Bool) (draws : Nat → Bool)
    (metric : ω → Sym → κ) (os : List ω) : Survivals κ :=
  os.foldl (fun v o => extendSurvivors g randomTie draws (metric o) v) (⟨some (0, []), none, none, none⟩, 0)

/-- The last two input bits are 0 (40_encoder.md R113). -/
abbrev TailForced (bits : List Bit) : Prop := ∃ front : List Bit, bits = front ++ [false, false]

/-- The number of end states `(b1, b2)` whose survivor has first bit 1: the hypothesis with first bit 1 is strictly nearer to
the received symbols than the one with first bit 0 (42_lookahead.md R132, R133). -/
def onesVote (g : GenOrder) (s : EncState) (r0 r1 r2 : Sym) : Nat :=
  let nearer := fun (b1 b2 : Bit) =>
    decide (pathCost g bmHard s [true, b1, b2] [r0, r1, r2] < pathCost g bmHard s [false, b1, b2] [r0, r1, r2])
  (nearer false false).toNat + (nearer false true).toNat + (nearer true false).toNat + (nearer true true).toNat

/-! ### Buffers -/

/-- The elements `0 .. vs.length-1` of the buffer are written and hold the list. -/
abbrev Buf.Holds {α : Type} (b : Buf α) (vs : List α) : Prop := ∀ i, i < vs.length → b.read i = vs[i]?

/-- `b'` is `b` with the list written at the indices from 0 on and every other element as before (20_memory.md R69). -/
abbrev Buf.Wrote {α : Type} (b b' : Buf α) (vs : List α) : Prop :=
  ∀ i, b'.read i = if i < vs.length then vs[i]? else b.read i

/-- R40's written mark of an element. -/
def elementWritten (m : Memory S) (a : Addr) : Bool :=
  match a.region.toNat with
  | 1 => (m.ibuf.read a.index.toNat).isSome
  | 2 => (m.hobs.read a.index.toNat).isSome
  | 3 => (m.sobsX.read a.index.toNat).isSome
  | 4 => (m.symout.read a.index.toNat).isSome
  | 5 => (m.bitout.read a.index.toNat).isSome
  | 6 => (m.sobsY.read a.index.toNat).isSome
  | _ => false

/-! ### Host accesses -/

/-- The host reads the rules R40, R51, R52 and R56 admit. -/
abbrev AdmittedRead (s : Generic.State S P) (a : Addr) : Prop :=
  (a.region = 0 ∧ a.index.toNat < 6) ∨
  (a.region ≠ 0 ∧ a.region ≠ 7 ∧ a.index.toNat < s.params.nMax ∧ elementWritten s.mem a = true)

/-- The host writes the rules R51, R52, R55 and R56 admit in a format, other than those of `CMD`. -/
abbrev AdmittedStore (enc : SoftEnc S P) (p : Params) (a : Addr) (v : HostValue P) : Prop :=
  (a = { region := 0, index := 3 } ∧ ∃ w : Word, v = .word w ∧ w.toNat < 4) ∨
  (a.region = 1 ∧ a.index.toNat < p.nMax ∧ ∃ w : Word, v = .word w ∧ w.toNat < 2) ∨
  (a.region = 2 ∧ a.index.toNat < p.nMax ∧ ∃ w : Word, v = .word w ∧ w.toNat < 4) ∨
  (a.region = 3 ∧ a.index.toNat < p.nMax ∧ ∃ q x, v = .soft q ∧ enc.decode q = some x) ∨
  (a.region = 6 ∧ a.index.toNat < p.nMax ∧ ∃ q x, v = .soft q ∧ enc.decode q = some x)

/-- A value read back stands for the value written: the same word, or a pattern of the same `Soft` (R55). -/
def SameValue (enc : SoftEnc S P) : HostValue P → HostValue P → Prop
  | .word w, .word u => w = u
  | .soft p, .soft q => enc.Agree p q
  | _, _ => False

/-- A host write of a command word to `CMD` (R55: any 32-bit word). -/
abbrev CommandWrite (a : Addr) (v : HostValue P) : Prop := a = { region := 0, index := 0 } ∧ ∃ w : Word, v = .word w

/-- The locations each command may write (the table of 20_memory.md R69, with `STATUS`, which every command writes). -/
def outputsOf (i : Instr) (a : Addr) : Bool :=
  a = { region := 0, index := 1 } ||
  match i with
  | .encStep _ _ => a = { region := 0, index := 2 }
  | .encSeq _ len => a = { region := 0, index := 2 } || (a.region == 4 && decide (a.index.toNat < len))
  | .laBuild => false
  | .laLookup _ _ _ _ => a = { region := 0, index := 2 }
  | .laDecode len => a.region == 5 && decide (a.index.toNat < len)
  | .hardDp len => a = { region := 0, index := 4 } || (a.region == 5 && decide (a.index.toNat < len))
  | .softDp len => a = { region := 0, index := 5 } || (a.region == 5 && decide (a.index.toNat < len))

/-! ### Encodings -/

/-- The mask and match of each row of opcode_table.json, in the table's order. -/
def tableRows : List (Word × Word) :=
  [(0xFFFFFF8F#32, 0x00000001#32), (0x0000FFCF#32, 0x00000002#32), (0xFFFFFFFF#32, 0x00000003#32),
   (0xFFFFC0CF#32, 0x00000004#32), (0x0000FFFF#32, 0x00000005#32), (0x0000FFFF#32, 0x00000006#32),
   (0x0000FFFF#32, 0x00000007#32)]

/-- A state's index as a number (40_encoder.md R102). -/
def stateNumber (s : EncState) : Nat := 2 * s.first.toNat + s.second.toNat

/-- A symbol's index as a number (R103). -/
def symNumber (y : Sym) : Nat := 2 * y.c0.toNat + y.c1.toNat

end Sys2Proof.Machine
end

