-- ==== Sys2Proof/Certificates/Slice0/Obligations.lean ====
section
/-! DEFINITION. The statements for the provers, one `def Obligations.<Name> : Prop` each, listed in OBLIGATIONS.json. A
docstring names the rules of spec/ a statement formalises, and the log entry where a clause is the model's own choice. A
statement over types `S` and `P` holds for every soft domain `SOFT` and every type of host patterns, and one over `enc` for every
format `SOFT_ENC` (00_scope.md R9); `exec` and `step` are the instance of `ReferenceMachineIsAnInstance`. -/
open Sys2Proof Sys2Proof.Machine

/-! ## Encoding -/

/-- The words of 30_encoding.md R83, written out from the format of R70: each decodes to its command and is what the command
assembles to. -/
def Obligations.CommandWordsOfTheSpecDecode : Prop :=
  ∀ r ∈ ([(0x00000041#32, .encStep ⟨false, false⟩ true), (0x00000031#32, .encStep ⟨true, true⟩ false),
      (0x00060002#32, .encSeq ⟨false, false⟩ 6), (0x00040002#32, .encSeq ⟨false, false⟩ 4), (0x00000003#32, .laBuild),
      (0x00000B04#32, .laLookup ⟨false, false⟩ ⟨true, true⟩ ⟨true, false⟩ ⟨false, false⟩), (0x00060005#32, .laDecode 6),
      (0x00060006#32, .hardDp 6), (0x00040006#32, .hardDp 4), (0x00060007#32, .softDp 6)] : List (Word × Instr)),
    decode r.1 = .ok r.2 ∧ encode r.2 = r.1

/-- Decoding the assembled word of a well-formed command gives it back, with every operand (30_encoding.md R70, R72, R80). -/
def Obligations.DecodeInvertsEncode : Prop :=
  ∀ i : Instr, i.wellFormed = true → decode (encode i) = .ok i

/-- Every word that decodes is the assembled word of the well-formed command it decodes to: no two words mean one command
(R70, R74, R79). -/
def Obligations.EncodeInvertsDecode : Prop :=
  ∀ (w : Word) (i : Instr), decode w = .ok i → i.wellFormed = true ∧ encode i = w

/-- A word decodes to a command exactly when it meets the mask and match of a row of opcode_table.json (R74, R77, R78). -/
def Obligations.DecodeAcceptsExactlyTheTableRows : Prop :=
  ∀ w : Word, (∃ i, decode w = .ok i) ↔ ∃ r ∈ tableRows, w &&& r.1 = r.2

/-- A word with a reserved opcode, a nonzero reserved bit or a nonzero unused field (no row of the table matches it) completes
with `ILLEGAL`, sets `STICKY` and, `CMD` apart, changes nothing else (R78). -/
def Obligations.IllegalWordChangesOnlyStatus : Prop :=
  ∀ (s : State) (rest : List (Event SoftBits)) (w : Word),
    s.pending = .write { region := 0, index := 0 } (.word w) :: rest →
    (∀ r ∈ tableRows, w &&& r.1 ≠ r.2) →
    step s = .next { s with
      pending := rest, cmd := w,
      status := { err := .illegal, laValid := s.status.laValid, sticky := true, busy := false } }

/-! ## Steps and host accesses -/

/-- A host write of a decodable word to `CMD` runs the decoded command on the state with `CMD` holding the word and `BUSY` set
(R76). A model fault marks the run and leaves, beside `CMD`, everything as it was (R220; that `CMD` keeps the word is the model's
choice, log 2). -/
def Obligations.StepRunsTheDecodedCommand : Prop :=
  ∀ (s : State) (rest : List (Event SoftBits)) (w : Word) (i : Instr),
    s.pending = .write { region := 0, index := 0 } (.word w) :: rest → decode w = .ok i →
    (∀ t, exec i { s with pending := rest, cmd := w, status := { s.status with busy := true } } = .next t → step s = .next t) ∧
    (∀ f, exec i { s with pending := rest, cmd := w, status := { s.status with busy := true } } = .fault f →
      step s = .next { s with pending := rest, cmd := w, faulted := true })

/-- With no host access pending the block waits (70_reset_and_hazards.md R240; log 3). -/
def Obligations.BlockWaitsWithoutHostAccess : Prop :=
  ∀ s : State, s.pending = [] → step s = .next s

/-- Every host event completes in one step and the next step starts with the next event, whatever the event and the state. An
access and a command complete (20_memory.md R63, 60_exceptions.md R219); that the machine goes on after a model fault is log 1, that
the accesses are a list is log 3, that the reset input keeps the rest of the list is log 8. -/
def Obligations.StepCompletesEachEventInOrder : Prop :=
  ∀ (s : State) (e : Event SoftBits) (rest : List (Event SoftBits)), s.pending = e :: rest →
    ∃ t, step s = .next t ∧ t.pending = rest

/-- Only the reset input clears `faulted` (60_exceptions.md R220). -/
def Obligations.FaultedIsClearedByResetOnly : Prop :=
  ∀ s t : State, s.faulted = true → (∀ rest, s.pending ≠ .reset :: rest) → step s = .next t → t.faulted = true

/-- A command that reads a buffer element never written raises `ModelFault(unwritten)` and no other outcome
(10_state.md R40), for each command that reads a buffer and each element it reads. -/
def Obligations.UnwrittenInputRaisesModelFault : Prop :=
  (∀ (s : State) (st : EncState) (len k : Nat), len ≤ s.params.nMax → k < len → s.mem.ibuf.read k = none →
    exec (.encSeq st len) s = .fault .unwritten) ∧
  (∀ (s : State) (len k : Nat), 3 ≤ len → len ≤ s.params.nMax → s.status.laValid = true → k < len →
    s.mem.hobs.read k = none → exec (.laDecode len) s = .fault .unwritten) ∧
  (∀ (s : State) (len k : Nat), 2 ≤ len → len ≤ s.params.nMax → k < len → s.mem.hobs.read k = none →
    exec (.hardDp len) s = .fault .unwritten) ∧
  (∀ (s : State) (len k : Nat), 2 ≤ len → len ≤ s.params.nMax → k < len →
    s.mem.sobsX.read k = none ∨ s.mem.sobsY.read k = none → exec (.softDp len) s = .fault .unwritten)

/-- A host write the rules do not admit changes no state and marks the run faulted (20_memory.md R51, R52, R55 to R57, R220). That
a value of the wrong kind for its location (a plain word to a soft buffer, a soft pattern to a register or a bit buffer) is among
the writes not admitted is log 17. -/
def Obligations.RefusedHostWriteChangesNothing : Prop :=
  ∀ (S P : Type) [CommRing S] [LinearOrder S] [IsStrictOrderedRing S] (enc : SoftEnc S P)
    (s : Generic.State S P) (rest : List (Event P)) (a : Addr) (v : HostValue P), s.pending = .write a v :: rest →
    ¬ AdmittedStore enc s.params a v → ¬ CommandWrite a v →
    stepOf enc s = .next { s with pending := rest, faulted := true }

/-- An admitted host write other than of `CMD` stores the value: its location reads the value afterwards (for a soft sample, a
pattern of the same `Soft`), every other location of the address space reads as before, and nothing but `CONFIG` and the buffers
changes (20_memory.md R54, R55, R56). That a soft sample reads back so, and the premise that the format is one that does, is the
model's deduction (log 21); R9 admits any format, and one that does not read back is left out here. -/
def Obligations.HostWriteStoresTheElement : Prop :=
  ∀ (S P : Type) [CommRing S] [LinearOrder S] [IsStrictOrderedRing S] (enc : SoftEnc S P)
    (s : Generic.State S P) (rest : List (Event P)) (a : Addr) (v : HostValue P), enc.Legal → s.pending = .write a v :: rest →
    AdmittedStore enc s.params a v →
    ∃ c m u, stepOf enc s = .next { s with pending := rest, config := c, mem := m } ∧
      hostValueAt enc { s with pending := rest, config := c, mem := m } a = some u ∧ SameValue enc v u ∧
      ∀ b, b ≠ a → hostValueAt enc { s with pending := rest, config := c, mem := m } b = hostValueAt enc s b

/-- An admitted host read returns the element and has no side effect on the block (20_memory.md R53); the value is kept in the
model's `readData` (log 4). The clauses are the six buffers, a soft sample as the format's pattern of it; the registers are
`RegisterWordsFollowTheLayout` with `HostReadIsAdmittedOrFaults`. -/
def Obligations.HostReadReturnsTheElement : Prop :=
  ∀ (S P : Type) [CommRing S] [LinearOrder S] [IsStrictOrderedRing S] (enc : SoftEnc S P)
    (s : Generic.State S P) (rest : List (Event P)) (n : BitVec 16), n.toNat < s.params.nMax →
    (∀ b, s.pending = .read { region := 1, index := n } :: rest → s.mem.ibuf.read n.toNat = some b →
      stepOf enc s = .next { s with pending := rest, readData := some (.word (BitVec.ofNat 32 b.toNat)) }) ∧
    (∀ y, s.pending = .read { region := 2, index := n } :: rest → s.mem.hobs.read n.toNat = some y →
      stepOf enc s = .next { s with pending := rest, readData := some (.word (BitVec.ofNat 32 (symNumber y))) }) ∧
    (∀ x, s.pending = .read { region := 3, index := n } :: rest → s.mem.sobsX.read n.toNat = some x →
      stepOf enc s = .next { s with pending := rest, readData := some (.soft (enc.encode x)) }) ∧
    (∀ y, s.pending = .read { region := 4, index := n } :: rest → s.mem.symout.read n.toNat = some y →
      stepOf enc s = .next { s with pending := rest, readData := some (.word (BitVec.ofNat 32 (symNumber y))) }) ∧
    (∀ b, s.pending = .read { region := 5, index := n } :: rest → s.mem.bitout.read n.toNat = some b →
      stepOf enc s = .next { s with pending := rest, readData := some (.word (BitVec.ofNat 32 b.toNat)) }) ∧
    (∀ x, s.pending = .read { region := 6, index := n } :: rest → s.mem.sobsY.read n.toNat = some x →
      stepOf enc s = .next { s with pending := rest, readData := some (.soft (enc.encode x)) })

/-- A host read the rules admit returns what the location holds, register or buffer element, as the host reads it; one they do not
admit changes no state of the block and marks the run faulted (20_memory.md R51, R52, R53, R56, R57, 10_state.md R40; the model's
`readData`, and that it is then empty, is log 4). -/
def Obligations.HostReadIsAdmittedOrFaults : Prop :=
  ∀ (S P : Type) [CommRing S] [LinearOrder S] [IsStrictOrderedRing S] (enc : SoftEnc S P)
    (s : Generic.State S P) (rest : List (Event P)) (a : Addr), s.pending = .read a :: rest →
    (AdmittedRead s a → ∃ v, hostValueAt enc s a = some v ∧
      stepOf enc s = .next { s with pending := rest, readData := some v }) ∧
    (¬ AdmittedRead s a → stepOf enc s = .next { s with pending := rest, readData := none, faulted := true })

/-- What the host reads of the six registers: the field positions of 10_state.md R24, R29 and R30 with the reserved bits 0, the
seven codes of 60_exceptions.md R210, the whole of `CMD` and `HMETRIC`, and `SMETRIC` in the format (R32). -/
def Obligations.RegisterWordsFollowTheLayout : Prop :=
  ∀ (S P : Type) [CommRing S] [LinearOrder S] [IsStrictOrderedRing S] (enc : SoftEnc S P) (s : Generic.State S P),
    hostValueAt enc s { region := 0, index := 0 } = some (.word s.cmd) ∧
    (∃ w : Word, hostValueAt enc s { region := 0, index := 1 } = some (.word w) ∧
      w.toNat = (match s.status.err with
          | .ok => 0 | .illegal => 1 | .length => 2 | .notBuilt => 3 | .tieState => 4 | .tieVote => 5 | .noPath => 6) +
        16 * s.status.laValid.toNat + 32 * s.status.sticky.toNat + 64 * s.status.busy.toNat) ∧
    (∃ w : Word, hostValueAt enc s { region := 0, index := 2 } = some (.word w) ∧
      w.toNat = stateNumber s.result.nextState + 4 * symNumber s.result.symbol + 16 * stateNumber s.result.finalState +
        64 * s.result.lbit.toNat) ∧
    (∃ w : Word, hostValueAt enc s { region := 0, index := 3 } = some (.word w) ∧
      w.toNat = s.config.hardTie.toNat + 2 * s.config.laTie.toNat) ∧
    hostValueAt enc s { region := 0, index := 4 } = some (.word s.hmetric) ∧
    hostValueAt enc s { region := 0, index := 5 } = some (.soft (enc.encode s.smetric))

/-- No host access other than a command word written to `CMD` changes any field of `STATUS`: `STATUS` is read-only to the host
(10_state.md R24), `ERR` (R25) and `LA_VALID` (R26) are not changed by an access, only reset clears `STICKY` (R27), no access
observes `BUSY` set (R28), and a write that is not admitted changes nothing (20_memory.md R57). -/
def Obligations.HostAccessNeverChangesStatus : Prop :=
  ∀ (s t : State) (rest : List (Event SoftBits)) (a : Addr) (v : HostValue SoftBits),
    (s.pending = .read a :: rest ∨ (s.pending = .write a v :: rest ∧ ¬ CommandWrite a v)) →
    step s = .next t → t.status = s.status

/-! ## Reset and the whole-machine invariant -/

/-- The reset values of 10_state.md R46, for every choice of the parameters; `LA_TABLE` and `MEMO`, which R46 leaves
unspecified, are not named. -/
def Obligations.ResetValuesOfTheSpec : Prop :=
  ∀ (S P : Type) [CommRing S] [LinearOrder S] [IsStrictOrderedRing S] (enc : SoftEnc S P) (p : Params),
    (resetWith p : Generic.State S P).cmd = 0#32 ∧
    hostValueAt enc (resetWith p : Generic.State S P) { region := 0, index := 1 } = some (.word 0#32) ∧
    hostValueAt enc (resetWith p : Generic.State S P) { region := 0, index := 2 } = some (.word 0#32) ∧
    hostValueAt enc (resetWith p : Generic.State S P) { region := 0, index := 3 } = some (.word 0#32) ∧
    (resetWith p : Generic.State S P).hmetric = 0#32 ∧ (resetWith p : Generic.State S P).smetric = 0 ∧
    (resetWith p : Generic.State S P).faulted = false ∧
    ∀ a : Addr, elementWritten (resetWith p : Generic.State S P).mem a = false

/-- The reset input leaves what the state after reset holds, whatever the state was (70_reset_and_hazards.md R240): the values of
10_state.md R46, and the model's own values of what R46 leaves unspecified, `LA_TABLE` zeros (log 9) and `MEMO` empty (log 11), and of
its field `readData`, none (log 4). The parameters, the further host accesses and the draw source are inputs and stay (log 8). -/
def Obligations.ResetInputRestoresResetValues : Prop :=
  ∀ (s : State) (rest : List (Event SoftBits)), s.pending = .reset :: rest →
    step s = .next { resetWith s.params with pending := rest, draws := s.draws }

/-- The state after reset meets the invariant, for every soft domain and every legal choice of the parameters and for the one the
model carries. -/
def Obligations.ResetStateMeetsInvariant : Prop :=
  (∀ (S P : Type) [CommRing S] [LinearOrder S] [IsStrictOrderedRing S] (p : Params), p.Legal → (resetWith p : Generic.State S P).Inv) ∧
  State.reset.Inv

/-- Every step keeps the invariant, for every soft domain and format: legal parameters, buffers in canonical form within the capacity, `BUSY` clear between
events, `STICKY` set whenever `ERR` is not 0, `HMETRIC` at most 2·`N_MAX`, `SMETRIC` not negative, a valid table the one table
of the generator, `MEMO` within its size (00_scope.md R9, R10; 10_state.md R27, R28, R31, R42, R43; 20_memory.md R52; R194). -/
def Obligations.StepKeepsTheInvariant : Prop :=
  (∀ s t : State, s.Inv → step s = .next t → t.Inv) ∧
  ∀ (S P : Type) [CommRing S] [LinearOrder S] [IsStrictOrderedRing S] (enc : SoftEnc S P) (s t : Generic.State S P),
    s.Inv → stepOf enc s = .next t → t.Inv

/-- Every command that completes with `ERR` not 0 sets `STICKY` (a command that raises a model fault does not complete), and
only the reset clears it (10_state.md R27). -/
def Obligations.StickyIsClearedByResetOnly : Prop :=
  (∀ (s t : State) (rest : List (Event SoftBits)) (w : Word), s.pending = .write { region := 0, index := 0 } (.word w) :: rest →
    step s = .next t → t.faulted = false → t.status.err ≠ .ok → t.status.sticky = true) ∧
  ∀ s t : State, s.status.sticky = true → (∀ rest, s.pending ≠ .reset :: rest) → step s = .next t → t.status.sticky = true

/-- Only `LA_BUILD` and reset change `STATUS.LA_VALID` (10_state.md R26). -/
def Obligations.LaValidIsWrittenByLaBuildOnly : Prop :=
  ∀ s t : State, step s = .next t → t.status.laValid ≠ s.status.laValid →
    (∃ rest, s.pending = .reset :: rest) ∨
    (∃ rest, s.pending = .write { region := 0, index := 0 } (.word 0x00000003#32) :: rest)

/-! ## What commands change -/

/-- A command writes no location outside its row of 20_memory.md R69: every other address of the address space (all six
registers and all six buffers, read as the host reads them) reads as before. -/
def Obligations.CommandsWriteOnlyTheirOutputs : Prop :=
  ∀ (S P : Type) [CommRing S] [LinearOrder S] [IsStrictOrderedRing S] (enc : SoftEnc S P) (i : Instr)
    (s t : Generic.State S P) (a : Addr), execOf i s = .next t → outputsOf i a = false →
    hostValueAt enc t a = hostValueAt enc s a

/-- The frame of the state no address reaches, and of the single `RESULT` fields (10_state.md R26, R29, R44, R45). -/
def Obligations.CommandsKeepTheOtherState : Prop :=
  ∀ (i : Instr) (s t : State), exec i s = .next t →
    t.params = s.params ∧ t.faulted = s.faulted ∧ t.pending = s.pending ∧ t.readData = s.readData ∧
    t.mem.ibuf = s.mem.ibuf ∧ t.mem.hobs = s.mem.hobs ∧ t.mem.sobsX = s.mem.sobsX ∧ t.mem.sobsY = s.mem.sobsY ∧
    (i ≠ .laBuild → t.laTable = s.laTable ∧ t.status.laValid = s.status.laValid) ∧
    ((∀ n, i ≠ .hardDp n) → t.draws = s.draws) ∧
    ((∀ n, i ≠ .hardDp n) → (∀ n, i ≠ .softDp n) → t.memo = s.memo) ∧
    ((∀ st b, i ≠ .encStep st b) → t.result.nextState = s.result.nextState ∧ t.result.symbol = s.result.symbol) ∧
    ((∀ st n, i ≠ .encSeq st n) → t.result.finalState = s.result.finalState) ∧
    ((∀ st a b c, i ≠ .laLookup st a b c) → t.result.lbit = s.result.lbit)

/-- An error leaves the state as it was, `STATUS` apart (60_exceptions.md R216), and a decoded command raises no error but
`LENGTH` and `NOT_BUILT`: under both generator orders no tie and no missing path arises (42_lookahead.md R140,
43_hard_viterbi.md R170). -/
def Obligations.CommandErrorsArePrecise : Prop :=
  ∀ (i : Instr) (s t : State), exec i s = .next t → t.status.err ≠ .ok →
    (t.status.err = .length ∨ t.status.err = .notBuilt) ∧
    t = { s with status := { err := t.status.err, laValid := s.status.laValid, sticky := true, busy := false } }

/-- `LEN` outside a command's range raises `LENGTH`, before the table is looked at and before any element is read; inside the
range no command reports `LENGTH` (60_exceptions.md R212, R213). -/
def Obligations.LengthOutOfRangeRaisesLength : Prop :=
  ∀ (s : State) (len : Nat),
    (s.params.nMax < len → ∀ st, exec (.encSeq st len) s =
      .next { s with status := { s.status with err := .length, sticky := true, busy := false } }) ∧
    (len < 2 ∨ s.params.nMax < len →
      exec (.laDecode len) s = .next { s with status := { s.status with err := .length, sticky := true, busy := false } } ∧
      exec (.hardDp len) s = .next { s with status := { s.status with err := .length, sticky := true, busy := false } } ∧
      exec (.softDp len) s = .next { s with status := { s.status with err := .length, sticky := true, busy := false } }) ∧
    (len ≤ s.params.nMax → ∀ st t, exec (.encSeq st len) s = .next t → t.status.err ≠ .length) ∧
    (2 ≤ len → len ≤ s.params.nMax → ∀ t,
      exec (.laDecode len) s = .next t ∨ exec (.hardDp len) s = .next t ∨ exec (.softDp len) s = .next t →
      t.status.err ≠ .length)

/-! ## The encoder -/

/-- `ENC_STEP` writes the next state and the symbol of its transition and completes, in every state of the block; the symbol is
c0 = b ⊕ s[0] ⊕ s[1], c1 = b ⊕ s[1] under `G75` and the two swapped under `G57` (40_encoder.md R101, R104, R110, R111). -/
def Obligations.EncStepWritesTheTransition : Prop :=
  ∀ (s : State) (st : EncState) (b : Bit),
    exec (.encStep st b) s = .next { s with
      result := { s.result with
        nextState := ⟨st.second, b⟩,
        symbol := match s.params.genOrder with
          | .g75 => ⟨b ^^ st.second ^^ st.first, b ^^ st.first⟩
          | .g57 => ⟨b ^^ st.first, b ^^ st.second ^^ st.first⟩ },
      status := { s.status with err := .ok, busy := false } }

/-- The transition table of 40_encoder.md R105, all eight cases, and its symbols with the two bits exchanged under `G57`. -/
def Obligations.TransitionTableOfTheCode : Prop :=
  (∀ f s b : Bit, nextState ⟨f, s⟩ b = ⟨s, b⟩) ∧
  outSym .g75 ⟨false, false⟩ false = ⟨false, false⟩ ∧ outSym .g75 ⟨false, false⟩ true = ⟨true, true⟩ ∧
  outSym .g75 ⟨false, true⟩ false = ⟨true, false⟩ ∧ outSym .g75 ⟨false, true⟩ true = ⟨false, true⟩ ∧
  outSym .g75 ⟨true, false⟩ false = ⟨true, true⟩ ∧ outSym .g75 ⟨true, false⟩ true = ⟨false, false⟩ ∧
  outSym .g75 ⟨true, true⟩ false = ⟨false, true⟩ ∧ outSym .g75 ⟨true, true⟩ true = ⟨true, false⟩ ∧
  ∀ s b, outSym .g57 s b = ⟨(outSym .g75 s b).c1, (outSym .g75 s b).c0⟩

/-- The two transitions out of a state land on two distinct states and emit complementary symbols; a state has exactly the two
predecessors `n >> 1` and `(n >> 1) + 2`, both on bit `n[0]` (40_encoder.md R107, R108). -/
def Obligations.TransitionsAreDistinctWithTwoPredecessors : Prop :=
  (∀ (g : GenOrder) (s : EncState), nextState s false ≠ nextState s true ∧
    (nextState s false).second ≠ (nextState s true).second ∧ outSym g s false ≠ outSym g s true ∧
    outSym g s true = ⟨!(outSym g s false).c0, !(outSym g s false).c1⟩) ∧
  (∀ (p n : EncState) (b : Bit), nextState p b = n ↔
    (stateNumber p = stateNumber n / 2 ∨ stateNumber p = stateNumber n / 2 + 2) ∧ b.toNat = stateNumber n % 2)

/-- The symbol distance is the number of differing bits, symmetric, zero exactly on equal symbols, and satisfies the triangle
inequality (40_encoder.md R115, R116). -/
def Obligations.SymbolDistanceIsAMetric : Prop :=
  (∀ a b, dist a b = (if a.c0 = b.c0 then 0 else 1) + (if a.c1 = b.c1 then 0 else 1)) ∧
  (∀ a b, dist a b = dist b a) ∧ (∀ a b, dist a b = 0 ↔ a = b) ∧ (∀ a b c, dist a c ≤ dist a b + dist b c)

/-- `ENC_SEQ` on a written input of accepted length completes: symbol `i` is the output of the state the first `i` bits lead
to, on bit `i`; `FINAL_STATE` is the state after the last bit; elements of `SYMOUT` from `N` on keep their values
(40_encoder.md R112, 20_memory.md R69). -/
def Obligations.EncSeqEncodesTheInput : Prop :=
  ∀ (s : State) (st : EncState) (bits : List Bit), bits.length ≤ s.params.nMax → s.mem.ibuf.Holds bits →
    ∃ m : Buf Sym,
      exec (.encSeq st bits.length) s = .next { s with
        mem := { s.mem with symout := m },
        result := { s.result with finalState := endState st bits },
        status := { s.status with err := .ok, busy := false } } ∧
      ∀ i, m.read i =
        if i < bits.length then some (outSym s.params.genOrder (endState st (bits.take i)) (bits.getD i false))
        else s.mem.symout.read i

/-- The final state is the last two input bits, whatever `ST` is, so it is 0 exactly when the tail is forced; for one bit it is `{ST[0], IBUF[0]}` (40_encoder.md R114);
for none it is `ST` (R112). -/
def Obligations.FinalStateIsTheLastTwoBits : Prop :=
  ∀ (s t : State) (st : EncState) (len : Nat), exec (.encSeq st len) s = .next t → t.status.err = .ok →
    (2 ≤ len → s.mem.ibuf.read (len - 2) = some t.result.finalState.first ∧
      s.mem.ibuf.read (len - 1) = some t.result.finalState.second ∧
      (t.result.finalState = stateZero ↔
        s.mem.ibuf.read (len - 2) = some false ∧ s.mem.ibuf.read (len - 1) = some false)) ∧
    (len = 1 → t.result.finalState.first = st.second ∧ s.mem.ibuf.read 0 = some t.result.finalState.second) ∧
    (len = 0 → t.result.finalState = st)

/-! ## The look-ahead decoder -/

/-- `LA_BUILD` completes in every state, under both tie policies: it sets `LA_VALID` and every one of the 256 cells holds the
majority vote of the four survivors, whose sum is never 2 (42_lookahead.md R132 to R135, R138, R140). -/
def Obligations.LaBuildWritesTheMajorityVote : Prop :=
  ∀ s : State, ∃ t : LaTable,
    exec .laBuild s = .next { s with
      laTable := t, status := { err := .ok, laValid := true, sticky := s.status.sticky, busy := false } } ∧
    ∀ st r0 r1 r2, onesVote s.params.genOrder st r0 r1 r2 ≠ 2 ∧
      readTable t st r0 r1 r2 = decide (2 < onesVote s.params.genOrder st r0 r1 r2)

/-- `LA_LOOKUP` on a valid table writes `RESULT.LBIT` with the cell at linear index 64·s + 16·r0 + 4·r1 + r2 and changes only
that field (42_lookahead.md R145, 10_state.md R41). -/
def Obligations.LaLookupReadsTheCell : Prop :=
  ∀ (s : State) (st : EncState) (s0 s1 s2 : Sym), s.status.laValid = true →
    exec (.laLookup st s0 s1 s2) s = .next { s with
      result := { s.result with
        lbit := s.laTable.getLsbD (64 * stateNumber st + 16 * symNumber s0 + 4 * symNumber s1 + symNumber s2) },
      status := { s.status with err := .ok, busy := false } }

/-- `LA_LOOKUP`, and `LA_DECODE` of an accepted length, raise `NOT_BUILT` when `LA_VALID` is 0 (60_exceptions.md R211). -/
def Obligations.LookAheadNeedsABuiltTable : Prop :=
  ∀ s : State, s.status.laValid = false →
    (∀ st s0 s1 s2, exec (.laLookup st s0 s1 s2) s =
      .next { s with status := { s.status with err := .notBuilt, sticky := true, busy := false } }) ∧
    (∀ len, 2 ≤ len → len ≤ s.params.nMax → exec (.laDecode len) s =
      .next { s with status := { s.status with err := .notBuilt, sticky := true, busy := false } })

/-- `LA_DECODE` on a valid table completes: bit `i` is the cell of the state the decoded bits lead to and the three symbols
from `i` on, for `i < N-2`, and the last two bits are 0. For `N = 2` no observation is read. Elements of `BITOUT` from `N` on
keep their values (42_lookahead.md R150, R151). -/
def Obligations.LaDecodeSlidesTheWindow : Prop :=
  ∀ (s : State) (hs : List Sym), 2 ≤ hs.length → hs.length ≤ s.params.nMax → s.status.laValid = true →
    (3 ≤ hs.length → s.mem.hobs.Holds hs) →
    ∃ (m : Buf Bit) (bits : List Bit),
      exec (.laDecode hs.length) s = .next { s with
        mem := { s.mem with bitout := m }, status := { s.status with err := .ok, busy := false } } ∧
      bits.length = hs.length ∧ s.mem.bitout.Wrote m bits ∧
      (∀ i, i + 2 < hs.length → bits[i]? = some (readTable s.laTable (endState stateZero (bits.take i))
        (hs.getD i ⟨false, false⟩) (hs.getD (i + 1) ⟨false, false⟩) (hs.getD (i + 2) ⟨false, false⟩))) ∧
      bits[hs.length - 2]? = some false ∧ bits[hs.length - 1]? = some false

/-- Zero-noise correctness of the look-ahead decoder (42_lookahead.md R152): the cell of the three symbols of an input triple
holds its first bit; and, encoding any tail-forced input of length at least 2 from state 0, any state with the built table that
holds the symbols in `HOBS` gets the input back from `LA_DECODE`. `ENC_SEQ` is stated to complete from state 0
here, and from every state in `EncSeqEncodesTheInput`. -/
def Obligations.LaDecodeRoundTripsAtZeroNoise : Prop :=
  (∀ (g : GenOrder) (x : EncState) (b0 b1 b2 : Bit),
    readTable (builtTable g) x (outSym g x b0) (outSym g (nextState x b0) b1)
      (outSym g (nextState (nextState x b0) b1) b2) = b0) ∧
  ∀ (s u : State) (bits : List Bit), bits.length ≤ s.params.nMax → TailForced bits → s.mem.ibuf.Holds bits →
    u.params = s.params → u.status.laValid = true → u.laTable = builtTable u.params.genOrder →
    ∃ t, exec (.encSeq stateZero bits.length) s = .next t ∧
      ((∀ i, i < bits.length → u.mem.hobs.read i = t.mem.symout.read i) →
        ∃ v, exec (.laDecode bits.length) u = .next v ∧ v.status.err = .ok ∧ v.mem.bitout.Holds bits)

/-! ## The Viterbi decoders -/

/-- Relaxation, for costs of every kind (43_hard_viterbi.md R165 to R167, 44_soft_viterbi.md R195): an undefined or dearer entry is
replaced; a cheaper one is kept; at a tie mode 0 keeps the stored entry and mode 1 takes one draw and overwrites when it is true. The
draw is the next Boolean supplied, and the free `Config.draw` of the source's position when none is left; that the draws taken are
recorded in `taken`, newest first, is the model's choice (log 7). -/
def Obligations.RelaxReplacesKeepsOrDraws : Prop :=
  ∀ (κ : Type) [LinearOrder κ] (randomTie : Bool) (n : EncState) (e : Entry κ) (c : Column κ) (d : DrawSource),
    (c.get n = none → relax randomTie n e (c, d) = (c.set n (some e), d)) ∧
    (∀ old, c.get n = some old →
      (e.cost < old.cost → relax randomTie n e (c, d) = (c.set n (some e), d)) ∧
      (old.cost < e.cost → relax randomTie n e (c, d) = (c, d)) ∧
      (e.cost = old.cost → randomTie = false → relax randomTie n e (c, d) = (c, d)) ∧
      (e.cost = old.cost → randomTie = true →
        (∀ v vs, d.supplied = v :: vs → relax randomTie n e (c, d) =
          (if v then c.set n (some e) else c, { supplied := vs, taken := v :: d.taken })) ∧
        (d.supplied = [] → relax randomTie n e (c, d) =
          (if Config.draw d.taken.length then c.set n (some e) else c,
            { supplied := [], taken := Config.draw d.taken.length :: d.taken }))))

/-- In the deterministic mode the entry of a node with both predecessors defined is the cheaper candidate, and on a tie the one
of the lower-indexed predecessor `n >> 1` (R108, R164, R166), for costs of every kind, hard and soft (44_soft_viterbi.md R195). -/
def Obligations.LowerPredecessorWinsTies : Prop :=
  ∀ (κ : Type) [Add κ] [LinearOrder κ] (g : GenOrder) (n : EncState) (d : DrawSource) (metric : Sym → κ) (prev : Column κ)
    (e0 e1 : Entry κ),
    prev.get ⟨false, n.first⟩ = some e0 → prev.get ⟨true, n.first⟩ = some e1 →
    (advance g false metric prev d).1.get n =
      if e1.cost + metric (outSym g ⟨true, n.first⟩ n.second) < e0.cost + metric (outSym g ⟨false, n.first⟩ n.second)
      then some ⟨e1.cost + metric (outSym g ⟨true, n.first⟩ n.second), ⟨true, n.first⟩, n.second⟩
      else some ⟨e0.cost + metric (outSym g ⟨false, n.first⟩ n.second), ⟨false, n.first⟩, n.second⟩

/-- `HARD_DP` on written observations of accepted length completes, in both tie modes and for every draw: `BITOUT` gets an
input path from state 0 to state 0, `HMETRIC` its Hamming distance to the observations, and no other such path is nearer
(43_hard_viterbi.md R171, R172, R173). `MEMO` and the draw source are left open. -/
def Obligations.HardDpFindsTheNearestPath : Prop :=
  ∀ (s : State) (hs : List Sym), s.params.Legal → 2 ≤ hs.length → hs.length ≤ s.params.nMax → s.mem.hobs.Holds hs →
    ∃ (m : Buf Bit) (bits : List Bit) (h : Word) (memo : List (Column (Cost Soft))) (d : DrawSource),
      exec (.hardDp hs.length) s = .next { s with
        mem := { s.mem with bitout := m }, hmetric := h, memo := memo, draws := d,
        status := { s.status with err := .ok, busy := false } } ∧
      bits.length = hs.length ∧ s.mem.bitout.Wrote m bits ∧ endState stateZero bits = stateZero ∧
      h.toNat = pathCost s.params.genOrder bmHard stateZero bits hs ∧
      ∀ other : List Bit, other.length = hs.length → endState stateZero other = stateZero →
        pathCost s.params.genOrder bmHard stateZero bits hs ≤ pathCost s.params.genOrder bmHard stateZero other hs

/-- With `HARD_TIE = 0`, `HARD_DP` takes no draw and its result does not depend on the draw source (R166, D32). -/
def Obligations.HardDpModeZeroIgnoresDraws : Prop :=
  ∀ (s : State) (hs : List Sym) (d : DrawSource), 2 ≤ hs.length → hs.length ≤ s.params.nMax → s.mem.hobs.Holds hs →
    s.config.hardTie = false →
    ∃ t, exec (.hardDp hs.length) s = .next t ∧ t.draws = s.draws ∧
      exec (.hardDp hs.length) { s with draws := d } = .next { t with draws := d }

/-- In the randomized mode the draws are taken from the source in its order, at most four for each step (one for each node that
two edges reach), and recorded (43_hard_viterbi.md R164, R167; the recording is log 7). -/
def Obligations.HardDpTakesDrawsInOrder : Prop :=
  ∀ (s : State) (hs : List Sym), 2 ≤ hs.length → hs.length ≤ s.params.nMax → s.mem.hobs.Holds hs →
    4 * hs.length ≤ s.draws.supplied.length →
    ∃ t k, exec (.hardDp hs.length) s = .next t ∧ k ≤ 4 * hs.length ∧
      t.draws = { supplied := s.draws.supplied.drop k, taken := (s.draws.supplied.take k).reverse ++ s.draws.taken }

/-- `HMETRIC` does not depend on the draws (43_hard_viterbi.md R168). -/
def Obligations.HardMetricIgnoresDraws : Prop :=
  ∀ (s : State) (hs : List Sym) (d : DrawSource), 2 ≤ hs.length → hs.length ≤ s.params.nMax → s.mem.hobs.Holds hs →
    ∃ t u, exec (.hardDp hs.length) s = .next t ∧ exec (.hardDp hs.length) { s with draws := d } = .next u ∧
      u.hmetric = t.hmetric ∧ u.status = t.status

/-- Zero-noise round trip of the hard decoder, in both tie modes and for every draw, with `HMETRIC` 0 (43_hard_viterbi.md
R174). `ENC_SEQ` is stated to complete from state 0 here, and from every state in `EncSeqEncodesTheInput`. -/
def Obligations.HardDpRoundTripsAtZeroNoise : Prop :=
  ∀ (s u : State) (bits : List Bit), bits.length ≤ s.params.nMax → TailForced bits → s.mem.ibuf.Holds bits →
    u.params = s.params →
    ∃ t, exec (.encSeq stateZero bits.length) s = .next t ∧
      ((∀ i, i < bits.length → u.mem.hobs.read i = t.mem.symout.read i) →
        ∃ v, exec (.hardDp bits.length) u = .next v ∧ v.status.err = .ok ∧ v.hmetric = 0#32 ∧ v.mem.bitout.Holds bits)

/-- The last two decoded bits of a successful `HARD_DP`, `SOFT_DP` or `LA_DECODE` are 0, whatever the observations
(43_hard_viterbi.md R175, 44_soft_viterbi.md R196, 42_lookahead.md R151). -/
def Obligations.DecodedTailBitsAreZero : Prop :=
  ∀ (s t : State) (len : Nat),
    (exec (.hardDp len) s = .next t ∨ exec (.softDp len) s = .next t ∨ exec (.laDecode len) s = .next t) → t.status.err = .ok →
    t.mem.bitout.read (len - 2) = some false ∧ t.mem.bitout.read (len - 1) = some false

/-- `SOFT_DP` on written observations of accepted length completes, over every soft domain: `BITOUT` gets an input path from state
0 to state 0, `SMETRIC` its total squared Euclidean distance to the observations, and no other such path is nearer
(44_soft_viterbi.md R193, R196, R199). `MEMO` is left open. The last clause says that `exec` runs `SOFT_DP` so over the rationals. -/
def Obligations.SoftDpFindsTheNearestPath : Prop :=
  (∀ (S P : Type) [CommRing S] [LinearOrder S] [IsStrictOrderedRing S] (s : Generic.State S P) (os : List (S × S)),
    2 ≤ os.length → os.length ≤ s.params.nMax →
    s.mem.sobsX.Holds (os.map (·.1)) → s.mem.sobsY.Holds (os.map (·.2)) →
    ∃ (m : Buf Bit) (bits : List Bit) (memo : List (Column (Cost S))),
      execOf (.softDp os.length) s = .next { s with
        mem := { s.mem with bitout := m }, smetric := pathCost s.params.genOrder bmSoft stateZero bits os, memo := memo,
        status := { s.status with err := .ok, busy := false } } ∧
      bits.length = os.length ∧ s.mem.bitout.Wrote m bits ∧ endState stateZero bits = stateZero ∧
      ∀ other : List Bit, other.length = os.length → endState stateZero other = stateZero →
        pathCost s.params.genOrder bmSoft stateZero bits os ≤ pathCost s.params.genOrder bmSoft stateZero other os) ∧
  ∀ (s : State) (len : Nat), exec (.softDp len) s = execOf (.softDp len) s

/-- `SOFT_DP` takes no draw and reads neither `CONFIG` nor `HOBS` (44_soft_viterbi.md R191, R195). -/
def Obligations.SoftDpIgnoresTieModeAndDraws : Prop :=
  ∀ (s : State) (os : List (Soft × Soft)) (c : ConfigReg) (d : DrawSource) (h : Buf Sym), 2 ≤ os.length →
    os.length ≤ s.params.nMax → s.mem.sobsX.Holds (os.map (·.1)) → s.mem.sobsY.Holds (os.map (·.2)) →
    ∃ t, exec (.softDp os.length) s = .next t ∧ t.draws = s.draws ∧
      exec (.softDp os.length) { s with config := c, draws := d, mem := { s.mem with hobs := h } } =
        .next { t with config := c, draws := d, mem := { t.mem with hobs := h } }

/-- Zero-noise round trip of the soft decoder, over every soft domain: the constellation points of the encoded symbols decode to
the input with `SMETRIC` 0 (44_soft_viterbi.md R198, 41_channel_interface.md R121). `ENC_SEQ` is stated to complete from state 0 here, and from every state in `EncSeqEncodesTheInput`. -/
def Obligations.SoftDpRoundTripsAtZeroNoise : Prop :=
  ∀ (S P : Type) [CommRing S] [LinearOrder S] [IsStrictOrderedRing S] (s u : Generic.State S P) (bits : List Bit),
    bits.length ≤ s.params.nMax → TailForced bits → s.mem.ibuf.Holds bits → u.params = s.params →
    ∃ t, execOf (.encSeq stateZero bits.length) s = .next t ∧
      ((∀ i, i < bits.length → ∀ y, t.mem.symout.read i = some y →
          u.mem.sobsX.read i = some (if y.c0 then 1 else -1) ∧ u.mem.sobsY.read i = some (if y.c1 then 1 else -1)) →
        ∃ v, execOf (.softDp bits.length) u = .next v ∧ v.status.err = .ok ∧ v.smetric = 0 ∧ v.mem.bitout.Holds bits)

/-- Noise of magnitude below 1 on every coordinate leaves the soft decoder exact, over every soft domain (95_test_vectors.md §1.6,
derived there from R121 and R190). `ENC_SEQ` is stated to complete from state 0 here, and from every state in `EncSeqEncodesTheInput`. -/
def Obligations.SoftDpCorrectsNoiseBelowOne : Prop :=
  ∀ (S P : Type) [CommRing S] [LinearOrder S] [IsStrictOrderedRing S] (s u : Generic.State S P) (bits : List Bit),
    bits.length ≤ s.params.nMax → TailForced bits → s.mem.ibuf.Holds bits → u.params = s.params →
    ∃ t, execOf (.encSeq stateZero bits.length) s = .next t ∧
      ((∀ i, i < bits.length → ∀ y, t.mem.symout.read i = some y →
          ∃ e0 e1 : S, -1 < e0 ∧ e0 < 1 ∧ -1 < e1 ∧ e1 < 1 ∧
            u.mem.sobsX.read i = some ((point y : S × S).1 + e0) ∧ u.mem.sobsY.read i = some ((point y : S × S).2 + e1)) →
        ∃ v, execOf (.softDp bits.length) u = .next v ∧ v.status.err = .ok ∧ v.mem.bitout.Holds bits)

/-- All-zero observations decode to all zeros with `SMETRIC` 2N, over every soft domain (44_soft_viterbi.md R200). -/
def Obligations.SoftDpDecodesAllZeroObservations : Prop :=
  ∀ (S P : Type) [CommRing S] [LinearOrder S] [IsStrictOrderedRing S] (s : Generic.State S P) (n : Nat), 2 ≤ n → n ≤ s.params.nMax →
    (∀ i, i < n → s.mem.sobsX.read i = some 0 ∧ s.mem.sobsY.read i = some 0) →
    ∃ t, execOf (.softDp n) s = .next t ∧ t.status.err = .ok ∧ t.smetric = 2 * (n : S) ∧
      ∀ i, i < n → t.mem.bitout.read i = some false

/-- The soft branch metric, over every soft domain: the squared Euclidean distance to the ±1 constellation (44_soft_viterbi.md R190), not negative and
0 only at the constellation point (R194), and equal to (x0² + x1² + 2) − 2·(x0·p0 + x1·p1) (R197). -/
def Obligations.SoftBranchMetricIsSquaredDistance : Prop :=
  ∀ (S : Type) [CommRing S] [LinearOrder S] [IsStrictOrderedRing S] (x0 x1 : S) (y : Sym),
    bmSoft (x0, x1) y = (x0 - (if y.c0 then 1 else -1)) ^ 2 + (x1 - (if y.c1 then 1 else -1)) ^ 2 ∧
    0 ≤ bmSoft (x0, x1) y ∧
    (bmSoft (x0, x1) y = 0 → x0 = (if y.c0 then 1 else -1) ∧ x1 = (if y.c1 then 1 else -1)) ∧
    bmSoft (x0, x1) y = (x0 ^ 2 + x1 ^ 2 + 2) - 2 * (x0 * (if y.c0 then 1 else -1) + x1 * (if y.c1 then 1 else -1))

/-- Quantization gives back the symbol when every noise term has magnitude below 1 (41_channel_interface.md R121 to R123,
95_test_vectors.md §1.6), so at zero noise too (R124). Host side, over every soft domain. -/
def Obligations.QuantizeRemovesNoiseBelowOne : Prop :=
  ∀ (S : Type) [CommRing S] [LinearOrder S] [IsStrictOrderedRing S],
    (∀ (y : Sym) (sigma g0 g1 : S), -1 < sigma * g0 → sigma * g0 < 1 → -1 < sigma * g1 → sigma * g1 < 1 →
      quantize (addNoise y sigma g0 g1) = y) ∧
    (∀ (y : Sym) (g0 g1 : S), addNoise y 0 g0 g1 = point y) ∧ (∀ y, quantize (point y : S × S) = y)

/-! ## The parameters -/

/-- `exec`, `step` and `State.reset` are the machine over every `SOFT` and `SOFT_ENC` (00_scope.md R9, 10_state.md R47) at the
rationals, R9's reference instantiation, with the legal format `referenceEnc` (log 6): what is stated over every soft domain and
format holds of them. -/
def Obligations.ReferenceMachineIsAnInstance : Prop :=
  (∀ (i : Instr) (s : State), exec i s = execOf i s) ∧ (∀ s : State, step s = stepOf referenceEnc s) ∧
  (State.reset = resetWith State.reset.params ∧ State.reset.params.Legal) ∧ referenceEnc.Legal

/-! ## Ties at the command -/

/-- `HARD_DP` decodes the survivor path of state 0 under `CONFIG.HARD_TIE` (10_state.md R30, 43_hard_viterbi.md R164 to R167): with
1 each tie event takes one draw, the draws are taken in relaxation order and none otherwise, and the upper predecessor wins exactly
when the draw is true; with 0 the lower one wins and no draw is taken. `BITOUT` gets the path, `HMETRIC` its cost, and the draw
source stands after as many draws as there were tie events (their record is log 7). `MEMO` is left open. -/
def Obligations.HardDpResolvesEachTieByOneDraw : Prop :=
  ∀ (s : State) (hs : List Sym), 2 ≤ hs.length → hs.length ≤ s.params.nMax → s.mem.hobs.Holds hs →
    ∃ (m : Buf Bit) (bits : List Bit) (cost : Nat) (memo : List (Column (Cost Soft))),
      (survivorPaths s.params.genOrder s.config.hardTie (drawAt s.draws) bmHard hs).1.get stateZero = some (cost, bits) ∧
      bits.length = hs.length ∧ s.mem.bitout.Wrote m bits ∧
      exec (.hardDp hs.length) s = .next { s with
        mem := { s.mem with bitout := m }, hmetric := BitVec.ofNat 32 cost, memo := memo,
        draws := afterDraws s.draws (survivorPaths s.params.genOrder s.config.hardTie (drawAt s.draws) bmHard hs).2,
        status := { s.status with err := .ok, busy := false } }

/-- `SOFT_DP` decodes the survivor path of state 0 with the lower predecessor's path on every tie, over every soft domain
(44_soft_viterbi.md R195, 43_hard_viterbi.md R164, R165). `MEMO` is left open. -/
def Obligations.SoftDpKeepsTheLowerSurvivor : Prop :=
  ∀ (S P : Type) [CommRing S] [LinearOrder S] [IsStrictOrderedRing S] (s : Generic.State S P) (os : List (S × S)),
    2 ≤ os.length → os.length ≤ s.params.nMax →
    s.mem.sobsX.Holds (os.map (·.1)) → s.mem.sobsY.Holds (os.map (·.2)) →
    ∃ (m : Buf Bit) (bits : List Bit) (cost : S) (memo : List (Column (Cost S))),
      (survivorPaths s.params.genOrder false (drawAt s.draws) bmSoft os).1.get stateZero = some (cost, bits) ∧
      bits.length = os.length ∧ s.mem.bitout.Wrote m bits ∧
      execOf (.softDp os.length) s = .next { s with
        mem := { s.mem with bitout := m }, smetric := cost, memo := memo, status := { s.status with err := .ok, busy := false } }
end

