-- ==== Sys2Proof/Laws/Buffers.lean ====
section
/-! SUPPORT. The laws of the element buffers: read after write, runs of elements, the canonical form (10_state.md R40;
20_memory.md R52, R69). -/
namespace Sys2Proof.Machine

variable {α : Type}

/-! ### One element -/

@[simp] theorem read_nil (i : Nat) : Buf.read ([] : Buf α) i = none := rfl

@[simp] theorem read_write_same (b : Buf α) (i : Nat) (v : α) : (b.write i v).read i = some v := by
  induction b with
  | nil => simp [Buf.write, Buf.read]
  | cons c rest ih =>
    obtain ⟨j, w⟩ := c
    simp only [Buf.write]
    split
    · simp [Buf.read]
    · split
      · simp [Buf.read]
      · rename_i hne
        simpa [Buf.read, Ne.symm hne] using ih

theorem read_write_ne (b : Buf α) {i k : Nat} (v : α) (h : k ≠ i) : (b.write i v).read k = b.read k := by
  induction b with
  | nil => simp [Buf.write, Buf.read, Ne.symm h]
  | cons c rest ih =>
    obtain ⟨j, w⟩ := c
    simp only [Buf.write]
    split
    · simp [Buf.read, Ne.symm h]
    · split
      · rename_i heq
        subst heq
        simp [Buf.read, Ne.symm h]
      · simp [Buf.read, ih]

theorem mem_write {b : Buf α} {i : Nat} {v : α} {c : Nat × α} (h : c ∈ b.write i v) : c = (i, v) ∨ c ∈ b := by
  induction b with
  | nil => simpa [Buf.write] using h
  | cons d rest ih =>
    obtain ⟨j, w⟩ := d
    simp only [Buf.write] at h
    split at h
    · simpa using h
    · split at h
      · rcases List.mem_cons.mp h with h | h
        · exact .inl h
        · exact .inr (List.mem_cons_of_mem _ h)
      · rcases List.mem_cons.mp h with h | h
        · exact .inr (h ▸ List.mem_cons_self)
        · exact (ih h).imp id (List.mem_cons_of_mem _)

theorem write_sorted {b : Buf α} (i : Nat) (v : α) (h : b.Sorted) : (b.write i v).Sorted := by
  induction b with
  | nil => simp [Buf.write]
  | cons c rest ih =>
    obtain ⟨j, w⟩ := c
    have hrest := List.pairwise_cons.mp h
    simp only [Buf.write]
    split
    · rename_i hlt
      refine List.pairwise_cons.mpr ⟨fun d hd => ?_, h⟩
      rcases List.mem_cons.mp hd with rfl | hd
      · exact hlt
      · exact lt_trans hlt (hrest.1 d hd)
    · split
      · rename_i heq
        subst heq
        exact List.pairwise_cons.mpr ⟨hrest.1, hrest.2⟩
      · refine List.pairwise_cons.mpr ⟨fun d hd => ?_, ih hrest.2⟩
        rcases mem_write hd with rfl | hd
        · show j < i
          omega
        · exact hrest.1 d hd

theorem write_within {b : Buf α} {n i : Nat} (v : α) (hi : i < n) (h : Buf.Within n b) : Buf.Within n (b.write i v) := by
  intro c hc
  rcases mem_write hc with rfl | hc
  · exact hi
  · exact h c hc

theorem read_eq_none_of_lt {b : Buf α} {i : Nat} (h : ∀ c ∈ b, i < c.1) : b.read i = none := by
  induction b with
  | nil => rfl
  | cons c rest ih =>
    have hc : c.1 ≠ i := (h c List.mem_cons_self).ne'
    simp only [Buf.read, hc, if_false]
    exact ih fun d hd => h d (List.mem_cons_of_mem _ hd)

theorem read_eq_none_of_le {b : Buf α} {n i : Nat} (h : Buf.Within n b) (hi : n ≤ i) : b.read i = none := by
  induction b with
  | nil => rfl
  | cons c rest ih =>
    have hc : c.1 ≠ i := by have := h c List.mem_cons_self; omega
    simp only [Buf.read, hc, if_false]
    exact ih fun d hd => h d (List.mem_cons_of_mem _ hd)

/-- Buffers in canonical form that read the same are the same list. -/
theorem sorted_ext {b c : Buf α} (hb : b.Sorted) (hc : c.Sorted) (h : ∀ i, b.read i = c.read i) : b = c := by
  induction b generalizing c with
  | nil =>
    cases c with
    | nil => rfl
    | cons d rest => have := h d.1; simp [Buf.read] at this
  | cons a rest ih =>
    cases c with
    | nil => have := h a.1; simp [Buf.read] at this
    | cons d rest' =>
      obtain ⟨j, v⟩ := a
      obtain ⟨k, w⟩ := d
      obtain ⟨hb1, hb2⟩ := List.pairwise_cons.mp hb
      obtain ⟨hc1, hc2⟩ := List.pairwise_cons.mp hc
      have hjk : j = k := by
        rcases Nat.lt_trichotomy j k with hlt | heq | hgt
        · have hn : Buf.read ((k, w) :: rest') j = none :=
            read_eq_none_of_lt fun c hc' => by
              rcases List.mem_cons.mp hc' with rfl | hc'
              · exact hlt
              · exact lt_trans hlt (hc1 c hc')
          have := h j
          rw [hn] at this
          simp [Buf.read] at this
        · exact heq
        · have hn : Buf.read ((j, v) :: rest) k = none :=
            read_eq_none_of_lt fun c hc' => by
              rcases List.mem_cons.mp hc' with rfl | hc'
              · exact hgt
              · exact lt_trans hgt (hb1 c hc')
          have := h k
          rw [hn] at this
          simp [Buf.read] at this
      subst hjk
      have hvw : v = w := by have := h j; simpa [Buf.read] using this
      subst hvw
      congr 1
      refine ih hb2 hc2 fun i => ?_
      by_cases hi : j = i
      · subst hi
        rw [read_eq_none_of_lt hb1, read_eq_none_of_lt hc1]
      · have := h i
        simpa [Buf.read, hi] using this

/-! ### Runs of elements -/

theorem writeSeq_sorted {b : Buf α} (i : Nat) (vs : List α) (h : b.Sorted) : (b.writeSeq i vs).Sorted := by
  induction vs generalizing b i with
  | nil => exact h
  | cons v vs ih => exact ih (i + 1) (write_sorted i v h)

theorem writeSeq_within {b : Buf α} {n : Nat} (i : Nat) (vs : List α) (hi : i + vs.length ≤ n) (h : Buf.Within n b) :
    Buf.Within n (b.writeSeq i vs) := by
  induction vs generalizing b i with
  | nil => exact h
  | cons v vs ih =>
    simp only [List.length_cons] at hi
    exact ih (i + 1) (by omega) (write_within v (by omega) h)

/-- What a run of writes leaves at every index (20_memory.md R69): the list's value inside the run, the old value outside. -/
theorem read_writeSeq (b : Buf α) (i : Nat) (vs : List α) (k : Nat) :
    (b.writeSeq i vs).read k = if i ≤ k ∧ k < i + vs.length then vs[k - i]? else b.read k := by
  induction vs generalizing b i with
  | nil => simp [Buf.writeSeq]
  | cons v vs ih =>
    simp only [Buf.writeSeq, ih, List.length_cons]
    rcases Nat.lt_trichotomy k i with hlt | heq | hgt
    · rw [if_neg (by omega), if_neg (by omega), read_write_ne b v (by omega)]
    · subst heq
      rw [if_neg (by omega), if_pos (by omega), read_write_same]
      simp
    · obtain ⟨d, rfl⟩ : ∃ d, k = i + d + 1 := ⟨k - i - 1, by omega⟩
      have h1 : i + d + 1 - (i + 1) = d := by omega
      have h2 : i + d + 1 - i = d + 1 := by omega
      rw [h1, h2, read_write_ne b v (by omega)]
      by_cases hd : d < vs.length
      · rw [if_pos (by omega), if_pos (by omega)]
        simp
      · rw [if_neg (by omega), if_neg (by omega)]

/-- A run that reads is a run that is written: its values, in index order (10_state.md R40). -/
theorem readSeq_eq_some_iff (b : Buf α) (i n : Nat) (vs : List α) :
    b.readSeq i n = some vs ↔ vs.length = n ∧ ∀ k, k < n → b.read (i + k) = vs[k]? := by
  induction n generalizing i vs with
  | zero => cases vs <;> simp [Buf.readSeq]
  | succ n ih =>
    simp only [Buf.readSeq]
    constructor
    · intro h
      split at h
      · cases h
      · rename_i v hv
        split at h
        · cases h
        · rename_i ws hws
          cases h
          obtain ⟨hlen, hget⟩ := (ih (i + 1) ws).mp hws
          refine ⟨by simp [hlen], fun k hk => ?_⟩
          cases k with
          | zero => simpa using hv
          | succ k =>
            have := hget k (by omega)
            rw [show i + (k + 1) = i + 1 + k by omega, this]
            simp
    · rintro ⟨hlen, hget⟩
      cases vs with
      | nil => simp at hlen
      | cons v ws =>
        have h0 : b.read i = some v := by simpa using hget 0 (by omega)
        have hrest : b.readSeq (i + 1) n = some ws := by
          refine (ih (i + 1) ws).mpr ⟨by simpa using hlen, fun k hk => ?_⟩
          have := hget (k + 1) (by omega)
          rw [show i + 1 + k = i + (k + 1) by omega, this]
          simp
        simp [h0, hrest]

/-- A run does not read exactly when one of its elements was never written (R40). -/
theorem readSeq_eq_none_iff (b : Buf α) (i n : Nat) : b.readSeq i n = none ↔ ∃ k, k < n ∧ b.read (i + k) = none := by
  induction n generalizing i with
  | zero => simp [Buf.readSeq]
  | succ n ih =>
    simp only [Buf.readSeq]
    cases hv : b.read i with
    | none => simpa using ⟨0, by omega, by simpa using hv⟩
    | some v =>
      simp only
      constructor
      · intro h
        split at h
        · rename_i hn
          obtain ⟨k, hk, hr⟩ := (ih (i + 1)).mp hn
          exact ⟨k + 1, by omega, by rw [show i + (k + 1) = i + 1 + k by omega]; exact hr⟩
        · cases h
      · rintro ⟨k, hk, hr⟩
        cases k with
        | zero => simp [hv] at hr
        | succ k =>
          have : b.readSeq (i + 1) n = none :=
            (ih (i + 1)).mpr ⟨k, by omega, by rw [show i + 1 + k = i + (k + 1) by omega]; exact hr⟩
          simp [this]

end Sys2Proof.Machine
end

