-- ==== Sys2Proof/Laws/Encoder.lean ====
section
/-! SUPPORT. The laws of the transition function, of paths and of the sequence encoder (40_encoder.md R101 to R116). -/
namespace Sys2Proof.Machine

/-! ### Transitions -/

@[simp] theorem nextState_first (s : EncState) (b : Bit) : (nextState s b).first = s.second := rfl

@[simp] theorem nextState_second (s : EncState) (b : Bit) : (nextState s b).second = b := rfl

/-- The symbol of the other input bit is the complement (R107). -/
theorem outSym_ne (g : GenOrder) (s : EncState) : outSym g s true ≠ outSym g s false := by
  obtain ⟨_ | _, _ | _⟩ := s <;> cases g <;> decide

theorem dist_self (a : Sym) : dist a a = 0 := by simp [dist]

theorem dist_comm (a b : Sym) : dist a b = dist b a := by simp [dist, Bool.xor_comm]

theorem dist_eq_zero_iff (a b : Sym) : dist a b = 0 ↔ a = b := by
  obtain ⟨_ | _, _ | _⟩ := a <;> obtain ⟨_ | _, _ | _⟩ := b <;> decide

theorem dist_le_two (a b : Sym) : dist a b ≤ 2 := by
  obtain ⟨_ | _, _ | _⟩ := a <;> obtain ⟨_ | _, _ | _⟩ := b <;> decide

/-! ### Paths -/

@[simp] theorem endState_nil (s : EncState) : endState s [] = s := rfl

@[simp] theorem endState_cons (s : EncState) (b : Bit) (bs : List Bit) :
    endState s (b :: bs) = endState (nextState s b) bs := rfl

theorem endState_append (s : EncState) (bs cs : List Bit) : endState s (bs ++ cs) = endState (endState s bs) cs := by
  simp [endState, List.foldl_append]

/-- A path of two more bits ends in the state of those bits, whatever came before (R114). -/
theorem endState_append_two (s : EncState) (bs : List Bit) (a b : Bit) : endState s (bs ++ [a, b]) = ⟨a, b⟩ := by
  rw [endState_append]
  rfl

@[simp] theorem pathCost_nil {κ ω : Type} [Zero κ] [Add κ] (g : GenOrder) (metric : ω → Sym → κ) (s : EncState) (os : List ω) :
    pathCost g metric s [] os = 0 := by cases os <;> rfl

@[simp] theorem pathCost_cons {κ ω : Type} [Zero κ] [Add κ] (g : GenOrder) (metric : ω → Sym → κ) (s : EncState) (b : Bit)
    (bs : List Bit) (o : ω) (os : List ω) :
    pathCost g metric s (b :: bs) (o :: os) = metric o (outSym g s b) + pathCost g metric (nextState s b) bs os := rfl

/-! ### The sequence encoder (R112) -/

@[simp] theorem encodeFrom_state (g : GenOrder) (s : EncState) (bits : List Bit) : (encodeFrom g s bits).1 = endState s bits := by
  induction bits generalizing s with
  | nil => rfl
  | cons b bs ih => simpa [encodeFrom] using ih (nextState s b)

@[simp] theorem length_encodeFrom (g : GenOrder) (s : EncState) (bits : List Bit) :
    (encodeFrom g s bits).2.length = bits.length := by
  induction bits generalizing s with
  | nil => rfl
  | cons b bs ih => simpa [encodeFrom] using ih (nextState s b)

/-- Symbol `i` is the output of the state the first `i` bits lead to, on bit `i`. -/
theorem encodeFrom_get (g : GenOrder) (s : EncState) (bits : List Bit) (i : Nat) (h : i < bits.length) :
    (encodeFrom g s bits).2[i]? = some (outSym g (endState s (bits.take i)) bits[i]) := by
  induction bits generalizing s i with
  | nil => simp at h
  | cons b bs ih =>
    cases i with
    | zero => simp [encodeFrom]
    | succ i =>
      simp only [List.length_cons] at h
      simpa [encodeFrom] using ih (nextState s b) i (by omega)

end Sys2Proof.Machine
end

