-- ==== Sys2Proof/Laws/State.lean ====
section
/-! SUPPORT. What each named update of State leaves in each field: one lemma per field per update, true by definition, so that
no proof unfolds a record update. -/
namespace Sys2Proof.Machine

variable {S P : Type}

/-! ### `beginCommand` -/

@[simp] theorem beginCommand_params (w : Word) (s : Generic.State S P) : (beginCommand w s).params = s.params := rfl
@[simp] theorem beginCommand_cmd (w : Word) (s : Generic.State S P) : (beginCommand w s).cmd = w := rfl
@[simp] theorem beginCommand_status (w : Word) (s : Generic.State S P) : (beginCommand w s).status = { s.status with busy := true } := rfl
@[simp] theorem beginCommand_result (w : Word) (s : Generic.State S P) : (beginCommand w s).result = s.result := rfl
@[simp] theorem beginCommand_config (w : Word) (s : Generic.State S P) : (beginCommand w s).config = s.config := rfl
@[simp] theorem beginCommand_hmetric (w : Word) (s : Generic.State S P) : (beginCommand w s).hmetric = s.hmetric := rfl
@[simp] theorem beginCommand_smetric (w : Word) (s : Generic.State S P) : (beginCommand w s).smetric = s.smetric := rfl
@[simp] theorem beginCommand_mem (w : Word) (s : Generic.State S P) : (beginCommand w s).mem = s.mem := rfl
@[simp] theorem beginCommand_laTable (w : Word) (s : Generic.State S P) : (beginCommand w s).laTable = s.laTable := rfl
@[simp] theorem beginCommand_memo (w : Word) (s : Generic.State S P) : (beginCommand w s).memo = s.memo := rfl
@[simp] theorem beginCommand_faulted (w : Word) (s : Generic.State S P) : (beginCommand w s).faulted = s.faulted := rfl
@[simp] theorem beginCommand_pending (w : Word) (s : Generic.State S P) : (beginCommand w s).pending = s.pending := rfl
@[simp] theorem beginCommand_readData (w : Word) (s : Generic.State S P) : (beginCommand w s).readData = s.readData := rfl
@[simp] theorem beginCommand_draws (w : Word) (s : Generic.State S P) : (beginCommand w s).draws = s.draws := rfl

/-! ### `complete` -/

@[simp] theorem complete_params (s : Generic.State S P) : (complete s).params = s.params := rfl
@[simp] theorem complete_cmd (s : Generic.State S P) : (complete s).cmd = s.cmd := rfl
@[simp] theorem complete_status (s : Generic.State S P) : (complete s).status = { s.status with err := .ok, busy := false } := rfl
@[simp] theorem complete_result (s : Generic.State S P) : (complete s).result = s.result := rfl
@[simp] theorem complete_config (s : Generic.State S P) : (complete s).config = s.config := rfl
@[simp] theorem complete_hmetric (s : Generic.State S P) : (complete s).hmetric = s.hmetric := rfl
@[simp] theorem complete_smetric (s : Generic.State S P) : (complete s).smetric = s.smetric := rfl
@[simp] theorem complete_mem (s : Generic.State S P) : (complete s).mem = s.mem := rfl
@[simp] theorem complete_laTable (s : Generic.State S P) : (complete s).laTable = s.laTable := rfl
@[simp] theorem complete_memo (s : Generic.State S P) : (complete s).memo = s.memo := rfl
@[simp] theorem complete_faulted (s : Generic.State S P) : (complete s).faulted = s.faulted := rfl
@[simp] theorem complete_pending (s : Generic.State S P) : (complete s).pending = s.pending := rfl
@[simp] theorem complete_readData (s : Generic.State S P) : (complete s).readData = s.readData := rfl
@[simp] theorem complete_draws (s : Generic.State S P) : (complete s).draws = s.draws := rfl

/-! ### `raiseCmdError` -/

@[simp] theorem raiseCmdError_params (c : ErrCode) (s : Generic.State S P) : (raiseCmdError c s).params = s.params := rfl
@[simp] theorem raiseCmdError_cmd (c : ErrCode) (s : Generic.State S P) : (raiseCmdError c s).cmd = s.cmd := rfl
@[simp] theorem raiseCmdError_status (c : ErrCode) (s : Generic.State S P) : (raiseCmdError c s).status = { s.status with err := c, sticky := true, busy := false } := rfl
@[simp] theorem raiseCmdError_result (c : ErrCode) (s : Generic.State S P) : (raiseCmdError c s).result = s.result := rfl
@[simp] theorem raiseCmdError_config (c : ErrCode) (s : Generic.State S P) : (raiseCmdError c s).config = s.config := rfl
@[simp] theorem raiseCmdError_hmetric (c : ErrCode) (s : Generic.State S P) : (raiseCmdError c s).hmetric = s.hmetric := rfl
@[simp] theorem raiseCmdError_smetric (c : ErrCode) (s : Generic.State S P) : (raiseCmdError c s).smetric = s.smetric := rfl
@[simp] theorem raiseCmdError_mem (c : ErrCode) (s : Generic.State S P) : (raiseCmdError c s).mem = s.mem := rfl
@[simp] theorem raiseCmdError_laTable (c : ErrCode) (s : Generic.State S P) : (raiseCmdError c s).laTable = s.laTable := rfl
@[simp] theorem raiseCmdError_memo (c : ErrCode) (s : Generic.State S P) : (raiseCmdError c s).memo = s.memo := rfl
@[simp] theorem raiseCmdError_faulted (c : ErrCode) (s : Generic.State S P) : (raiseCmdError c s).faulted = s.faulted := rfl
@[simp] theorem raiseCmdError_pending (c : ErrCode) (s : Generic.State S P) : (raiseCmdError c s).pending = s.pending := rfl
@[simp] theorem raiseCmdError_readData (c : ErrCode) (s : Generic.State S P) : (raiseCmdError c s).readData = s.readData := rfl
@[simp] theorem raiseCmdError_draws (c : ErrCode) (s : Generic.State S P) : (raiseCmdError c s).draws = s.draws := rfl

/-! ### `markFaulted` -/

@[simp] theorem markFaulted_params (s : Generic.State S P) : (markFaulted s).params = s.params := rfl
@[simp] theorem markFaulted_cmd (s : Generic.State S P) : (markFaulted s).cmd = s.cmd := rfl
@[simp] theorem markFaulted_status (s : Generic.State S P) : (markFaulted s).status = s.status := rfl
@[simp] theorem markFaulted_result (s : Generic.State S P) : (markFaulted s).result = s.result := rfl
@[simp] theorem markFaulted_config (s : Generic.State S P) : (markFaulted s).config = s.config := rfl
@[simp] theorem markFaulted_hmetric (s : Generic.State S P) : (markFaulted s).hmetric = s.hmetric := rfl
@[simp] theorem markFaulted_smetric (s : Generic.State S P) : (markFaulted s).smetric = s.smetric := rfl
@[simp] theorem markFaulted_mem (s : Generic.State S P) : (markFaulted s).mem = s.mem := rfl
@[simp] theorem markFaulted_laTable (s : Generic.State S P) : (markFaulted s).laTable = s.laTable := rfl
@[simp] theorem markFaulted_memo (s : Generic.State S P) : (markFaulted s).memo = s.memo := rfl
@[simp] theorem markFaulted_faulted (s : Generic.State S P) : (markFaulted s).faulted = true := rfl
@[simp] theorem markFaulted_pending (s : Generic.State S P) : (markFaulted s).pending = s.pending := rfl
@[simp] theorem markFaulted_readData (s : Generic.State S P) : (markFaulted s).readData = s.readData := rfl
@[simp] theorem markFaulted_draws (s : Generic.State S P) : (markFaulted s).draws = s.draws := rfl

/-! ### `setTransition` -/

@[simp] theorem setTransition_params (s : Generic.State S P) (n : EncState) (y : Sym) : (s.setTransition n y).params = s.params := rfl
@[simp] theorem setTransition_cmd (s : Generic.State S P) (n : EncState) (y : Sym) : (s.setTransition n y).cmd = s.cmd := rfl
@[simp] theorem setTransition_status (s : Generic.State S P) (n : EncState) (y : Sym) : (s.setTransition n y).status = s.status := rfl
@[simp] theorem setTransition_result (s : Generic.State S P) (n : EncState) (y : Sym) : (s.setTransition n y).result = { s.result with nextState := n, symbol := y } := rfl
@[simp] theorem setTransition_config (s : Generic.State S P) (n : EncState) (y : Sym) : (s.setTransition n y).config = s.config := rfl
@[simp] theorem setTransition_hmetric (s : Generic.State S P) (n : EncState) (y : Sym) : (s.setTransition n y).hmetric = s.hmetric := rfl
@[simp] theorem setTransition_smetric (s : Generic.State S P) (n : EncState) (y : Sym) : (s.setTransition n y).smetric = s.smetric := rfl
@[simp] theorem setTransition_mem (s : Generic.State S P) (n : EncState) (y : Sym) : (s.setTransition n y).mem = s.mem := rfl
@[simp] theorem setTransition_laTable (s : Generic.State S P) (n : EncState) (y : Sym) : (s.setTransition n y).laTable = s.laTable := rfl
@[simp] theorem setTransition_memo (s : Generic.State S P) (n : EncState) (y : Sym) : (s.setTransition n y).memo = s.memo := rfl
@[simp] theorem setTransition_faulted (s : Generic.State S P) (n : EncState) (y : Sym) : (s.setTransition n y).faulted = s.faulted := rfl
@[simp] theorem setTransition_pending (s : Generic.State S P) (n : EncState) (y : Sym) : (s.setTransition n y).pending = s.pending := rfl
@[simp] theorem setTransition_readData (s : Generic.State S P) (n : EncState) (y : Sym) : (s.setTransition n y).readData = s.readData := rfl
@[simp] theorem setTransition_draws (s : Generic.State S P) (n : EncState) (y : Sym) : (s.setTransition n y).draws = s.draws := rfl

/-! ### `setFinalState` -/

@[simp] theorem setFinalState_params (s : Generic.State S P) (n : EncState) : (s.setFinalState n).params = s.params := rfl
@[simp] theorem setFinalState_cmd (s : Generic.State S P) (n : EncState) : (s.setFinalState n).cmd = s.cmd := rfl
@[simp] theorem setFinalState_status (s : Generic.State S P) (n : EncState) : (s.setFinalState n).status = s.status := rfl
@[simp] theorem setFinalState_result (s : Generic.State S P) (n : EncState) : (s.setFinalState n).result = { s.result with finalState := n } := rfl
@[simp] theorem setFinalState_config (s : Generic.State S P) (n : EncState) : (s.setFinalState n).config = s.config := rfl
@[simp] theorem setFinalState_hmetric (s : Generic.State S P) (n : EncState) : (s.setFinalState n).hmetric = s.hmetric := rfl
@[simp] theorem setFinalState_smetric (s : Generic.State S P) (n : EncState) : (s.setFinalState n).smetric = s.smetric := rfl
@[simp] theorem setFinalState_mem (s : Generic.State S P) (n : EncState) : (s.setFinalState n).mem = s.mem := rfl
@[simp] theorem setFinalState_laTable (s : Generic.State S P) (n : EncState) : (s.setFinalState n).laTable = s.laTable := rfl
@[simp] theorem setFinalState_memo (s : Generic.State S P) (n : EncState) : (s.setFinalState n).memo = s.memo := rfl
@[simp] theorem setFinalState_faulted (s : Generic.State S P) (n : EncState) : (s.setFinalState n).faulted = s.faulted := rfl
@[simp] theorem setFinalState_pending (s : Generic.State S P) (n : EncState) : (s.setFinalState n).pending = s.pending := rfl
@[simp] theorem setFinalState_readData (s : Generic.State S P) (n : EncState) : (s.setFinalState n).readData = s.readData := rfl
@[simp] theorem setFinalState_draws (s : Generic.State S P) (n : EncState) : (s.setFinalState n).draws = s.draws := rfl

/-! ### `setLbit` -/

@[simp] theorem setLbit_params (s : Generic.State S P) (b : Bit) : (s.setLbit b).params = s.params := rfl
@[simp] theorem setLbit_cmd (s : Generic.State S P) (b : Bit) : (s.setLbit b).cmd = s.cmd := rfl
@[simp] theorem setLbit_status (s : Generic.State S P) (b : Bit) : (s.setLbit b).status = s.status := rfl
@[simp] theorem setLbit_result (s : Generic.State S P) (b : Bit) : (s.setLbit b).result = { s.result with lbit := b } := rfl
@[simp] theorem setLbit_config (s : Generic.State S P) (b : Bit) : (s.setLbit b).config = s.config := rfl
@[simp] theorem setLbit_hmetric (s : Generic.State S P) (b : Bit) : (s.setLbit b).hmetric = s.hmetric := rfl
@[simp] theorem setLbit_smetric (s : Generic.State S P) (b : Bit) : (s.setLbit b).smetric = s.smetric := rfl
@[simp] theorem setLbit_mem (s : Generic.State S P) (b : Bit) : (s.setLbit b).mem = s.mem := rfl
@[simp] theorem setLbit_laTable (s : Generic.State S P) (b : Bit) : (s.setLbit b).laTable = s.laTable := rfl
@[simp] theorem setLbit_memo (s : Generic.State S P) (b : Bit) : (s.setLbit b).memo = s.memo := rfl
@[simp] theorem setLbit_faulted (s : Generic.State S P) (b : Bit) : (s.setLbit b).faulted = s.faulted := rfl
@[simp] theorem setLbit_pending (s : Generic.State S P) (b : Bit) : (s.setLbit b).pending = s.pending := rfl
@[simp] theorem setLbit_readData (s : Generic.State S P) (b : Bit) : (s.setLbit b).readData = s.readData := rfl
@[simp] theorem setLbit_draws (s : Generic.State S P) (b : Bit) : (s.setLbit b).draws = s.draws := rfl

/-! ### `writeSymout` -/

@[simp] theorem writeSymout_params (s : Generic.State S P) (ys : List Sym) : (s.writeSymout ys).params = s.params := rfl
@[simp] theorem writeSymout_cmd (s : Generic.State S P) (ys : List Sym) : (s.writeSymout ys).cmd = s.cmd := rfl
@[simp] theorem writeSymout_status (s : Generic.State S P) (ys : List Sym) : (s.writeSymout ys).status = s.status := rfl
@[simp] theorem writeSymout_result (s : Generic.State S P) (ys : List Sym) : (s.writeSymout ys).result = s.result := rfl
@[simp] theorem writeSymout_config (s : Generic.State S P) (ys : List Sym) : (s.writeSymout ys).config = s.config := rfl
@[simp] theorem writeSymout_hmetric (s : Generic.State S P) (ys : List Sym) : (s.writeSymout ys).hmetric = s.hmetric := rfl
@[simp] theorem writeSymout_smetric (s : Generic.State S P) (ys : List Sym) : (s.writeSymout ys).smetric = s.smetric := rfl
@[simp] theorem writeSymout_mem (s : Generic.State S P) (ys : List Sym) : (s.writeSymout ys).mem = { s.mem with symout := s.mem.symout.writeSeq 0 ys } := rfl
@[simp] theorem writeSymout_laTable (s : Generic.State S P) (ys : List Sym) : (s.writeSymout ys).laTable = s.laTable := rfl
@[simp] theorem writeSymout_memo (s : Generic.State S P) (ys : List Sym) : (s.writeSymout ys).memo = s.memo := rfl
@[simp] theorem writeSymout_faulted (s : Generic.State S P) (ys : List Sym) : (s.writeSymout ys).faulted = s.faulted := rfl
@[simp] theorem writeSymout_pending (s : Generic.State S P) (ys : List Sym) : (s.writeSymout ys).pending = s.pending := rfl
@[simp] theorem writeSymout_readData (s : Generic.State S P) (ys : List Sym) : (s.writeSymout ys).readData = s.readData := rfl
@[simp] theorem writeSymout_draws (s : Generic.State S P) (ys : List Sym) : (s.writeSymout ys).draws = s.draws := rfl

/-! ### `writeBitout` -/

@[simp] theorem writeBitout_params (s : Generic.State S P) (bs : List Bit) : (s.writeBitout bs).params = s.params := rfl
@[simp] theorem writeBitout_cmd (s : Generic.State S P) (bs : List Bit) : (s.writeBitout bs).cmd = s.cmd := rfl
@[simp] theorem writeBitout_status (s : Generic.State S P) (bs : List Bit) : (s.writeBitout bs).status = s.status := rfl
@[simp] theorem writeBitout_result (s : Generic.State S P) (bs : List Bit) : (s.writeBitout bs).result = s.result := rfl
@[simp] theorem writeBitout_config (s : Generic.State S P) (bs : List Bit) : (s.writeBitout bs).config = s.config := rfl
@[simp] theorem writeBitout_hmetric (s : Generic.State S P) (bs : List Bit) : (s.writeBitout bs).hmetric = s.hmetric := rfl
@[simp] theorem writeBitout_smetric (s : Generic.State S P) (bs : List Bit) : (s.writeBitout bs).smetric = s.smetric := rfl
@[simp] theorem writeBitout_mem (s : Generic.State S P) (bs : List Bit) : (s.writeBitout bs).mem = { s.mem with bitout := s.mem.bitout.writeSeq 0 bs } := rfl
@[simp] theorem writeBitout_laTable (s : Generic.State S P) (bs : List Bit) : (s.writeBitout bs).laTable = s.laTable := rfl
@[simp] theorem writeBitout_memo (s : Generic.State S P) (bs : List Bit) : (s.writeBitout bs).memo = s.memo := rfl
@[simp] theorem writeBitout_faulted (s : Generic.State S P) (bs : List Bit) : (s.writeBitout bs).faulted = s.faulted := rfl
@[simp] theorem writeBitout_pending (s : Generic.State S P) (bs : List Bit) : (s.writeBitout bs).pending = s.pending := rfl
@[simp] theorem writeBitout_readData (s : Generic.State S P) (bs : List Bit) : (s.writeBitout bs).readData = s.readData := rfl
@[simp] theorem writeBitout_draws (s : Generic.State S P) (bs : List Bit) : (s.writeBitout bs).draws = s.draws := rfl

/-! ### `setTable` -/

@[simp] theorem setTable_params (s : Generic.State S P) (t : LaTable) (v : Bool) : (s.setTable t v).params = s.params := rfl
@[simp] theorem setTable_cmd (s : Generic.State S P) (t : LaTable) (v : Bool) : (s.setTable t v).cmd = s.cmd := rfl
@[simp] theorem setTable_status (s : Generic.State S P) (t : LaTable) (v : Bool) : (s.setTable t v).status = { s.status with laValid := v } := rfl
@[simp] theorem setTable_result (s : Generic.State S P) (t : LaTable) (v : Bool) : (s.setTable t v).result = s.result := rfl
@[simp] theorem setTable_config (s : Generic.State S P) (t : LaTable) (v : Bool) : (s.setTable t v).config = s.config := rfl
@[simp] theorem setTable_hmetric (s : Generic.State S P) (t : LaTable) (v : Bool) : (s.setTable t v).hmetric = s.hmetric := rfl
@[simp] theorem setTable_smetric (s : Generic.State S P) (t : LaTable) (v : Bool) : (s.setTable t v).smetric = s.smetric := rfl
@[simp] theorem setTable_mem (s : Generic.State S P) (t : LaTable) (v : Bool) : (s.setTable t v).mem = s.mem := rfl
@[simp] theorem setTable_laTable (s : Generic.State S P) (t : LaTable) (v : Bool) : (s.setTable t v).laTable = t := rfl
@[simp] theorem setTable_memo (s : Generic.State S P) (t : LaTable) (v : Bool) : (s.setTable t v).memo = s.memo := rfl
@[simp] theorem setTable_faulted (s : Generic.State S P) (t : LaTable) (v : Bool) : (s.setTable t v).faulted = s.faulted := rfl
@[simp] theorem setTable_pending (s : Generic.State S P) (t : LaTable) (v : Bool) : (s.setTable t v).pending = s.pending := rfl
@[simp] theorem setTable_readData (s : Generic.State S P) (t : LaTable) (v : Bool) : (s.setTable t v).readData = s.readData := rfl
@[simp] theorem setTable_draws (s : Generic.State S P) (t : LaTable) (v : Bool) : (s.setTable t v).draws = s.draws := rfl

/-! ### `storeMemo` -/

@[simp] theorem storeMemo_params (s : Generic.State S P) (cols : List (Column (Cost S))) : (s.storeMemo cols).params = s.params := rfl
@[simp] theorem storeMemo_cmd (s : Generic.State S P) (cols : List (Column (Cost S))) : (s.storeMemo cols).cmd = s.cmd := rfl
@[simp] theorem storeMemo_status (s : Generic.State S P) (cols : List (Column (Cost S))) : (s.storeMemo cols).status = s.status := rfl
@[simp] theorem storeMemo_result (s : Generic.State S P) (cols : List (Column (Cost S))) : (s.storeMemo cols).result = s.result := rfl
@[simp] theorem storeMemo_config (s : Generic.State S P) (cols : List (Column (Cost S))) : (s.storeMemo cols).config = s.config := rfl
@[simp] theorem storeMemo_hmetric (s : Generic.State S P) (cols : List (Column (Cost S))) : (s.storeMemo cols).hmetric = s.hmetric := rfl
@[simp] theorem storeMemo_smetric (s : Generic.State S P) (cols : List (Column (Cost S))) : (s.storeMemo cols).smetric = s.smetric := rfl
@[simp] theorem storeMemo_mem (s : Generic.State S P) (cols : List (Column (Cost S))) : (s.storeMemo cols).mem = s.mem := rfl
@[simp] theorem storeMemo_laTable (s : Generic.State S P) (cols : List (Column (Cost S))) : (s.storeMemo cols).laTable = s.laTable := rfl
@[simp] theorem storeMemo_memo (s : Generic.State S P) (cols : List (Column (Cost S))) : (s.storeMemo cols).memo = cols ++ s.memo.drop cols.length := rfl
@[simp] theorem storeMemo_faulted (s : Generic.State S P) (cols : List (Column (Cost S))) : (s.storeMemo cols).faulted = s.faulted := rfl
@[simp] theorem storeMemo_pending (s : Generic.State S P) (cols : List (Column (Cost S))) : (s.storeMemo cols).pending = s.pending := rfl
@[simp] theorem storeMemo_readData (s : Generic.State S P) (cols : List (Column (Cost S))) : (s.storeMemo cols).readData = s.readData := rfl
@[simp] theorem storeMemo_draws (s : Generic.State S P) (cols : List (Column (Cost S))) : (s.storeMemo cols).draws = s.draws := rfl

/-! ### `setDraws` -/

@[simp] theorem setDraws_params (s : Generic.State S P) (d : DrawSource) : (s.setDraws d).params = s.params := rfl
@[simp] theorem setDraws_cmd (s : Generic.State S P) (d : DrawSource) : (s.setDraws d).cmd = s.cmd := rfl
@[simp] theorem setDraws_status (s : Generic.State S P) (d : DrawSource) : (s.setDraws d).status = s.status := rfl
@[simp] theorem setDraws_result (s : Generic.State S P) (d : DrawSource) : (s.setDraws d).result = s.result := rfl
@[simp] theorem setDraws_config (s : Generic.State S P) (d : DrawSource) : (s.setDraws d).config = s.config := rfl
@[simp] theorem setDraws_hmetric (s : Generic.State S P) (d : DrawSource) : (s.setDraws d).hmetric = s.hmetric := rfl
@[simp] theorem setDraws_smetric (s : Generic.State S P) (d : DrawSource) : (s.setDraws d).smetric = s.smetric := rfl
@[simp] theorem setDraws_mem (s : Generic.State S P) (d : DrawSource) : (s.setDraws d).mem = s.mem := rfl
@[simp] theorem setDraws_laTable (s : Generic.State S P) (d : DrawSource) : (s.setDraws d).laTable = s.laTable := rfl
@[simp] theorem setDraws_memo (s : Generic.State S P) (d : DrawSource) : (s.setDraws d).memo = s.memo := rfl
@[simp] theorem setDraws_faulted (s : Generic.State S P) (d : DrawSource) : (s.setDraws d).faulted = s.faulted := rfl
@[simp] theorem setDraws_pending (s : Generic.State S P) (d : DrawSource) : (s.setDraws d).pending = s.pending := rfl
@[simp] theorem setDraws_readData (s : Generic.State S P) (d : DrawSource) : (s.setDraws d).readData = s.readData := rfl
@[simp] theorem setDraws_draws (s : Generic.State S P) (d : DrawSource) : (s.setDraws d).draws = d := rfl

/-! ### `setHmetric` -/

@[simp] theorem setHmetric_params (s : Generic.State S P) (n : Nat) : (s.setHmetric n).params = s.params := rfl
@[simp] theorem setHmetric_cmd (s : Generic.State S P) (n : Nat) : (s.setHmetric n).cmd = s.cmd := rfl
@[simp] theorem setHmetric_status (s : Generic.State S P) (n : Nat) : (s.setHmetric n).status = s.status := rfl
@[simp] theorem setHmetric_result (s : Generic.State S P) (n : Nat) : (s.setHmetric n).result = s.result := rfl
@[simp] theorem setHmetric_config (s : Generic.State S P) (n : Nat) : (s.setHmetric n).config = s.config := rfl
@[simp] theorem setHmetric_hmetric (s : Generic.State S P) (n : Nat) : (s.setHmetric n).hmetric = BitVec.ofNat 32 n := rfl
@[simp] theorem setHmetric_smetric (s : Generic.State S P) (n : Nat) : (s.setHmetric n).smetric = s.smetric := rfl
@[simp] theorem setHmetric_mem (s : Generic.State S P) (n : Nat) : (s.setHmetric n).mem = s.mem := rfl
@[simp] theorem setHmetric_laTable (s : Generic.State S P) (n : Nat) : (s.setHmetric n).laTable = s.laTable := rfl
@[simp] theorem setHmetric_memo (s : Generic.State S P) (n : Nat) : (s.setHmetric n).memo = s.memo := rfl
@[simp] theorem setHmetric_faulted (s : Generic.State S P) (n : Nat) : (s.setHmetric n).faulted = s.faulted := rfl
@[simp] theorem setHmetric_pending (s : Generic.State S P) (n : Nat) : (s.setHmetric n).pending = s.pending := rfl
@[simp] theorem setHmetric_readData (s : Generic.State S P) (n : Nat) : (s.setHmetric n).readData = s.readData := rfl
@[simp] theorem setHmetric_draws (s : Generic.State S P) (n : Nat) : (s.setHmetric n).draws = s.draws := rfl

/-! ### `setSmetric` -/

@[simp] theorem setSmetric_params (s : Generic.State S P) (x : S) : (s.setSmetric x).params = s.params := rfl
@[simp] theorem setSmetric_cmd (s : Generic.State S P) (x : S) : (s.setSmetric x).cmd = s.cmd := rfl
@[simp] theorem setSmetric_status (s : Generic.State S P) (x : S) : (s.setSmetric x).status = s.status := rfl
@[simp] theorem setSmetric_result (s : Generic.State S P) (x : S) : (s.setSmetric x).result = s.result := rfl
@[simp] theorem setSmetric_config (s : Generic.State S P) (x : S) : (s.setSmetric x).config = s.config := rfl
@[simp] theorem setSmetric_hmetric (s : Generic.State S P) (x : S) : (s.setSmetric x).hmetric = s.hmetric := rfl
@[simp] theorem setSmetric_smetric (s : Generic.State S P) (x : S) : (s.setSmetric x).smetric = x := rfl
@[simp] theorem setSmetric_mem (s : Generic.State S P) (x : S) : (s.setSmetric x).mem = s.mem := rfl
@[simp] theorem setSmetric_laTable (s : Generic.State S P) (x : S) : (s.setSmetric x).laTable = s.laTable := rfl
@[simp] theorem setSmetric_memo (s : Generic.State S P) (x : S) : (s.setSmetric x).memo = s.memo := rfl
@[simp] theorem setSmetric_faulted (s : Generic.State S P) (x : S) : (s.setSmetric x).faulted = s.faulted := rfl
@[simp] theorem setSmetric_pending (s : Generic.State S P) (x : S) : (s.setSmetric x).pending = s.pending := rfl
@[simp] theorem setSmetric_readData (s : Generic.State S P) (x : S) : (s.setSmetric x).readData = s.readData := rfl
@[simp] theorem setSmetric_draws (s : Generic.State S P) (x : S) : (s.setSmetric x).draws = s.draws := rfl

/-! ### `placeCommand` -/

@[simp] theorem placeCommand_params (w : Word) (s : Generic.State S P) : (placeCommand w s).params = s.params := rfl
@[simp] theorem placeCommand_cmd (w : Word) (s : Generic.State S P) : (placeCommand w s).cmd = s.cmd := rfl
@[simp] theorem placeCommand_status (w : Word) (s : Generic.State S P) : (placeCommand w s).status = s.status := rfl
@[simp] theorem placeCommand_result (w : Word) (s : Generic.State S P) : (placeCommand w s).result = s.result := rfl
@[simp] theorem placeCommand_config (w : Word) (s : Generic.State S P) : (placeCommand w s).config = s.config := rfl
@[simp] theorem placeCommand_hmetric (w : Word) (s : Generic.State S P) : (placeCommand w s).hmetric = s.hmetric := rfl
@[simp] theorem placeCommand_smetric (w : Word) (s : Generic.State S P) : (placeCommand w s).smetric = s.smetric := rfl
@[simp] theorem placeCommand_mem (w : Word) (s : Generic.State S P) : (placeCommand w s).mem = s.mem := rfl
@[simp] theorem placeCommand_laTable (w : Word) (s : Generic.State S P) : (placeCommand w s).laTable = s.laTable := rfl
@[simp] theorem placeCommand_memo (w : Word) (s : Generic.State S P) : (placeCommand w s).memo = s.memo := rfl
@[simp] theorem placeCommand_faulted (w : Word) (s : Generic.State S P) : (placeCommand w s).faulted = s.faulted := rfl
@[simp] theorem placeCommand_pending (w : Word) (s : Generic.State S P) : (placeCommand w s).pending = .write cmdAddr (.word w) :: s.pending := rfl
@[simp] theorem placeCommand_readData (w : Word) (s : Generic.State S P) : (placeCommand w s).readData = s.readData := rfl
@[simp] theorem placeCommand_draws (w : Word) (s : Generic.State S P) : (placeCommand w s).draws = s.draws := rfl

/-! ### `applyReset` -/

@[simp] theorem applyReset_params [Zero S] (s : Generic.State S P) : (applyReset s).params = s.params := rfl
@[simp] theorem applyReset_cmd [Zero S] (s : Generic.State S P) : (applyReset s).cmd = 0 := rfl
@[simp] theorem applyReset_status [Zero S] (s : Generic.State S P) : (applyReset s).status = Status.atReset := rfl
@[simp] theorem applyReset_result [Zero S] (s : Generic.State S P) : (applyReset s).result = Result.atReset := rfl
@[simp] theorem applyReset_config [Zero S] (s : Generic.State S P) : (applyReset s).config = { hardTie := false, laTie := false } := rfl
@[simp] theorem applyReset_hmetric [Zero S] (s : Generic.State S P) : (applyReset s).hmetric = 0 := rfl
@[simp] theorem applyReset_smetric [Zero S] (s : Generic.State S P) : (applyReset s).smetric = 0 := rfl
@[simp] theorem applyReset_mem [Zero S] (s : Generic.State S P) : (applyReset s).mem = Memory.atReset := rfl
@[simp] theorem applyReset_laTable [Zero S] (s : Generic.State S P) : (applyReset s).laTable = 0 := rfl
@[simp] theorem applyReset_memo [Zero S] (s : Generic.State S P) : (applyReset s).memo = [] := rfl
@[simp] theorem applyReset_faulted [Zero S] (s : Generic.State S P) : (applyReset s).faulted = false := rfl
@[simp] theorem applyReset_pending [Zero S] (s : Generic.State S P) : (applyReset s).pending = s.pending := rfl
@[simp] theorem applyReset_readData [Zero S] (s : Generic.State S P) : (applyReset s).readData = none := rfl
@[simp] theorem applyReset_draws [Zero S] (s : Generic.State S P) : (applyReset s).draws = s.draws := rfl

/-! ### The memo and the draws of a forward pass -/

@[simp] theorem afterHardPass_params (s : Generic.State S P) (hs : List Sym) : (afterHardPass s hs).params = s.params := rfl
@[simp] theorem afterHardPass_cmd (s : Generic.State S P) (hs : List Sym) : (afterHardPass s hs).cmd = s.cmd := rfl
@[simp] theorem afterHardPass_status (s : Generic.State S P) (hs : List Sym) : (afterHardPass s hs).status = s.status := rfl
@[simp] theorem afterHardPass_result (s : Generic.State S P) (hs : List Sym) : (afterHardPass s hs).result = s.result := rfl
@[simp] theorem afterHardPass_config (s : Generic.State S P) (hs : List Sym) : (afterHardPass s hs).config = s.config := rfl
@[simp] theorem afterHardPass_hmetric (s : Generic.State S P) (hs : List Sym) : (afterHardPass s hs).hmetric = s.hmetric := rfl
@[simp] theorem afterHardPass_smetric (s : Generic.State S P) (hs : List Sym) : (afterHardPass s hs).smetric = s.smetric := rfl
@[simp] theorem afterHardPass_mem (s : Generic.State S P) (hs : List Sym) : (afterHardPass s hs).mem = s.mem := rfl
@[simp] theorem afterHardPass_laTable (s : Generic.State S P) (hs : List Sym) : (afterHardPass s hs).laTable = s.laTable := rfl
@[simp] theorem afterHardPass_faulted (s : Generic.State S P) (hs : List Sym) : (afterHardPass s hs).faulted = s.faulted := rfl
@[simp] theorem afterHardPass_pending (s : Generic.State S P) (hs : List Sym) : (afterHardPass s hs).pending = s.pending := rfl
@[simp] theorem afterHardPass_readData (s : Generic.State S P) (hs : List Sym) : (afterHardPass s hs).readData = s.readData := rfl
@[simp] theorem afterHardPass_draws (s : Generic.State S P) (hs : List Sym) : (afterHardPass s hs).draws = (hardPass s hs).2 := rfl
@[simp] theorem afterSoftPass_params [CommRing S] [LinearOrder S] (s : Generic.State S P) (os : List (S × S)) : (afterSoftPass s os).params = s.params := rfl
@[simp] theorem afterSoftPass_cmd [CommRing S] [LinearOrder S] (s : Generic.State S P) (os : List (S × S)) : (afterSoftPass s os).cmd = s.cmd := rfl
@[simp] theorem afterSoftPass_status [CommRing S] [LinearOrder S] (s : Generic.State S P) (os : List (S × S)) : (afterSoftPass s os).status = s.status := rfl
@[simp] theorem afterSoftPass_result [CommRing S] [LinearOrder S] (s : Generic.State S P) (os : List (S × S)) : (afterSoftPass s os).result = s.result := rfl
@[simp] theorem afterSoftPass_config [CommRing S] [LinearOrder S] (s : Generic.State S P) (os : List (S × S)) : (afterSoftPass s os).config = s.config := rfl
@[simp] theorem afterSoftPass_hmetric [CommRing S] [LinearOrder S] (s : Generic.State S P) (os : List (S × S)) : (afterSoftPass s os).hmetric = s.hmetric := rfl
@[simp] theorem afterSoftPass_smetric [CommRing S] [LinearOrder S] (s : Generic.State S P) (os : List (S × S)) : (afterSoftPass s os).smetric = s.smetric := rfl
@[simp] theorem afterSoftPass_mem [CommRing S] [LinearOrder S] (s : Generic.State S P) (os : List (S × S)) : (afterSoftPass s os).mem = s.mem := rfl
@[simp] theorem afterSoftPass_laTable [CommRing S] [LinearOrder S] (s : Generic.State S P) (os : List (S × S)) : (afterSoftPass s os).laTable = s.laTable := rfl
@[simp] theorem afterSoftPass_faulted [CommRing S] [LinearOrder S] (s : Generic.State S P) (os : List (S × S)) : (afterSoftPass s os).faulted = s.faulted := rfl
@[simp] theorem afterSoftPass_pending [CommRing S] [LinearOrder S] (s : Generic.State S P) (os : List (S × S)) : (afterSoftPass s os).pending = s.pending := rfl
@[simp] theorem afterSoftPass_readData [CommRing S] [LinearOrder S] (s : Generic.State S P) (os : List (S × S)) : (afterSoftPass s os).readData = s.readData := rfl
@[simp] theorem afterSoftPass_draws [CommRing S] [LinearOrder S] (s : Generic.State S P) (os : List (S × S)) : (afterSoftPass s os).draws = s.draws := rfl

end Sys2Proof.Machine
end

