-- ==== Sys2Proof/Laws/Tables.lean ====
section
/-! SUPPORT. The laws of the per-state records and of the look-ahead table (10_state.md R41, R43). -/
namespace Sys2Proof.Machine

/-! ### One slot per state -/

@[simp] theorem get_set_same {α : Type} (q : PerState α) (s : EncState) (v : α) : (q.set s v).get s = v := by
  obtain ⟨_ | _, _ | _⟩ := s <;> rfl

theorem get_set_ne {α : Type} (q : PerState α) {s t : EncState} (v : α) (h : t ≠ s) : (q.set s v).get t = q.get t := by
  obtain ⟨_ | _, _ | _⟩ := s <;> obtain ⟨_ | _, _ | _⟩ := t <;> first | rfl | exact absurd rfl h

theorem perState_ext {α : Type} {q r : PerState α} (h : ∀ s, q.get s = r.get s) : q = r := by
  have h0 := h ⟨false, false⟩
  have h1 := h ⟨false, true⟩
  have h2 := h ⟨true, false⟩
  have h3 := h ⟨true, true⟩
  cases q
  cases r
  simp_all [PerState.get]

theorem mem_allStates (s : EncState) : s ∈ allStates := by obtain ⟨_ | _, _ | _⟩ := s <;> decide

theorem mem_allSyms (y : Sym) : y ∈ allSyms := by obtain ⟨_ | _, _ | _⟩ := y <;> decide

/-! ### Indices -/

theorem ofBits_toBits_state (s : EncState) : EncState.ofBits s.toBits = s := by obtain ⟨_ | _, _ | _⟩ := s <;> decide

theorem toBits_ofBits_state (v : BitVec 2) : (EncState.ofBits v).toBits = v := by revert v; decide

theorem ofBits_toBits_sym (y : Sym) : Sym.ofBits y.toBits = y := by obtain ⟨_ | _, _ | _⟩ := y <;> decide

theorem toBits_ofBits_sym (v : BitVec 2) : (Sym.ofBits v).toBits = v := by revert v; decide

/-- The linear index of R41 as a number: `64·s + 16·r0 + 4·r1 + r2`. -/
theorem laIndex_eq (s : EncState) (r0 r1 r2 : Sym) :
    laIndex s r0 r1 r2 = 64 * s.toBits.toNat + 16 * r0.toBits.toNat + 4 * r1.toBits.toNat + r2.toBits.toNat := by
  obtain ⟨_ | _, _ | _⟩ := s <;> obtain ⟨_ | _, _ | _⟩ := r0 <;> obtain ⟨_ | _, _ | _⟩ := r1 <;>
    obtain ⟨_ | _, _ | _⟩ := r2 <;> rfl

theorem laIndex_lt (s : EncState) (r0 r1 r2 : Sym) : laIndex s r0 r1 r2 < 256 := BitVec.isLt _

theorem laIndex_inj {s s' : EncState} {r0 r1 r2 r0' r1' r2' : Sym} (h : laIndex s r0 r1 r2 = laIndex s' r0' r1' r2') :
    (s, r0, r1, r2) = (s', r0', r1', r2') := by
  rw [laIndex_eq, laIndex_eq] at h
  have b2 : ∀ v : BitVec 2, v.toNat < 4 := fun v => v.isLt
  have h1 := b2 s.toBits; have h2 := b2 r0.toBits; have h3 := b2 r1.toBits; have h4 := b2 r2.toBits
  have h5 := b2 s'.toBits; have h6 := b2 r0'.toBits; have h7 := b2 r1'.toBits; have h8 := b2 r2'.toBits
  have es : s.toBits = s'.toBits := BitVec.eq_of_toNat_eq (by omega)
  have e0 : r0.toBits = r0'.toBits := BitVec.eq_of_toNat_eq (by omega)
  have e1 : r1.toBits = r1'.toBits := BitVec.eq_of_toNat_eq (by omega)
  have e2 : r2.toBits = r2'.toBits := BitVec.eq_of_toNat_eq (by omega)
  rw [← ofBits_toBits_state s, es, ofBits_toBits_state, ← ofBits_toBits_sym r0, e0, ofBits_toBits_sym,
    ← ofBits_toBits_sym r1, e1, ofBits_toBits_sym, ← ofBits_toBits_sym r2, e2, ofBits_toBits_sym]

/-! ### Cells -/

@[simp] theorem read_writeTable_same (t : LaTable) (s : EncState) (r0 r1 r2 : Sym) (v : Bit) :
    readTable (writeTable t s r0 r1 r2 v) s r0 r1 r2 = v := by
  have h := laIndex_lt s r0 r1 r2
  cases v <;> simp [readTable, writeTable, h]

theorem read_writeTable_ne (t : LaTable) {s s' : EncState} {r0 r1 r2 r0' r1' r2' : Sym} (v : Bit)
    (h : (s', r0', r1', r2') ≠ (s, r0, r1, r2)) :
    readTable (writeTable t s r0 r1 r2 v) s' r0' r1' r2' = readTable t s' r0' r1' r2' := by
  have hi : laIndex s' r0' r1' r2' ≠ laIndex s r0 r1 r2 := fun e => h (laIndex_inj e)
  have h' := laIndex_lt s' r0' r1' r2'
  cases v <;> simp [readTable, writeTable, h', hi]

/-- Every index below 256 is the index of a cell. -/
theorem exists_cell (i : Nat) (h : i < 256) : ∃ s r0 r1 r2, laIndex s r0 r1 r2 = i := by
  refine ⟨.ofBits (BitVec.ofNat 2 (i / 64)), .ofBits (BitVec.ofNat 2 (i / 16)), .ofBits (BitVec.ofNat 2 (i / 4)),
    .ofBits (BitVec.ofNat 2 i), ?_⟩
  simp only [laIndex_eq, toBits_ofBits_state, toBits_ofBits_sym, BitVec.toNat_ofNat]
  omega

/-- Tables that agree on every cell are the same. -/
theorem table_ext {t u : LaTable} (h : ∀ s r0 r1 r2, readTable t s r0 r1 r2 = readTable u s r0 r1 r2) : t = u := by
  refine BitVec.eq_of_getLsbD_eq fun i hi => ?_
  obtain ⟨s, r0, r1, r2, rfl⟩ := exists_cell i hi
  exact h s r0 r1 r2

theorem mem_laCells (s : EncState) (r0 r1 r2 : Sym) : (s, r0, r1, r2) ∈ laCells := by
  simp only [laCells, List.mem_flatMap, List.mem_map]
  exact ⟨s, mem_allStates s, r0, mem_allSyms r0, r1, mem_allSyms r1, r2, mem_allSyms r2, rfl⟩

/-- The build loop leaves the cells outside its list alone (42_lookahead.md R134). -/
theorem read_buildTable_other {g : GenOrder} {laTie : Bool} {cells : List (EncState × Sym × Sym × Sym)} {t : LaTable}
    {s : EncState} {r0 r1 r2 : Sym} (h : (s, r0, r1, r2) ∉ cells) :
    readTable (buildTable g laTie cells t).1 s r0 r1 r2 = readTable t s r0 r1 r2 := by
  induction cells generalizing t with
  | nil => rfl
  | cons c cells ih =>
    obtain ⟨s', r0', r1', r2'⟩ := c
    obtain ⟨hne, hmem⟩ : (s, r0, r1, r2) ≠ (s', r0', r1', r2') ∧ (s, r0, r1, r2) ∉ cells := by simpa using h
    simp only [buildTable]
    split
    · rfl
    · rw [ih hmem, read_writeTable_ne t _ hne]

/-- A build that ends without a tie has written the value of each cell of its list (R134, R138). -/
theorem read_buildTable_of_none {g : GenOrder} {laTie : Bool} {cells : List (EncState × Sym × Sym × Sym)} {t : LaTable}
    (hnone : (buildTable g laTie cells t).2 = none) {s : EncState} {r0 r1 r2 : Sym} (h : (s, r0, r1, r2) ∈ cells) :
    laCell g laTie s r0 r1 r2 = .ok (readTable (buildTable g laTie cells t).1 s r0 r1 r2) := by
  induction cells generalizing t with
  | nil => cases h
  | cons c cells ih =>
    obtain ⟨s', r0', r1', r2'⟩ := c
    simp only [buildTable] at hnone ⊢
    cases hc : laCell g laTie s' r0' r1' r2' with
    | error e => simp [hc] at hnone
    | ok v =>
      simp only [hc] at hnone ⊢
      by_cases hin : (s, r0, r1, r2) ∈ cells
      · exact ih hnone hin
      · rcases List.mem_cons.mp h with heq | hmem
        · obtain ⟨rfl, rfl, rfl, rfl⟩ : s = s' ∧ r0 = r0' ∧ r1 = r1' ∧ r2 = r2' := by simpa using heq
          rw [read_buildTable_other hin, read_writeTable_same, hc]
        · exact absurd hmem hin

end Sys2Proof.Machine
end

