-- ==== Sys2Proof/Laws/Ops.lean ====
section
/-! SUPPORT. What each shared operation can do, said once: model faults, host accesses, draws, the memory's canonical form
(20_memory.md R53 to R57; 60_exceptions.md R216, R220). -/
namespace Sys2Proof.Machine

variable {S P : Type}

/-! ### Model faults (R220) -/

@[simp] theorem absorbFault_next (kept s : Generic.State S P) : absorbFault kept (.next s) = .next s := rfl

@[simp] theorem absorbFault_fault (kept : Generic.State S P) (f : Fault) : absorbFault kept (.fault f) = .next (markFaulted kept) := rfl

@[simp] theorem absorbFault_refused (kept : Generic.State S P) (r : Refusal) : absorbFault kept (.refused r) = .refused r := rfl

/-- Everything `absorbFault` can answer with a next state. -/
theorem absorbFault_cases {kept t : Generic.State S P} {o : Host.Outcome (Generic.State S P) Fault Refusal} (h : absorbFault kept o = .next t) :
    o = .next t ∨ (∃ f, o = .fault f) ∧ t = markFaulted kept := by
  cases o with
  | next s => exact .inl h
  | fault f => exact .inr ⟨⟨f, rfl⟩, by simpa using h.symm⟩
  | refused r => cases h

/-! ### Draws (00_scope.md R13) -/

theorem draw_supplied (v : Bool) (vs taken : List Bool) :
    DrawSource.draw { supplied := v :: vs, taken := taken } = (v, { supplied := vs, taken := v :: taken }) := rfl

/-- One draw takes one Boolean and records it (10_state.md R45). -/
theorem draw_taken (d : DrawSource) : d.draw.2.taken = d.draw.1 :: d.taken := by
  obtain ⟨_ | ⟨v, vs⟩, taken⟩ := d <;> rfl

theorem draw_supplied_tail (d : DrawSource) : d.draw.2.supplied = d.supplied.tail := by
  obtain ⟨_ | ⟨v, vs⟩, taken⟩ := d <;> rfl

theorem afterDraws_zero (d : DrawSource) : afterDraws d 0 = d := rfl

/-- Drawing from a source after its first `k` draws gives draw number `k`. -/
theorem draw_afterDraws (d : DrawSource) (k : Nat) : (afterDraws d k).draw = (drawAt d k, afterDraws d (k + 1)) := by
  obtain ⟨vs, taken⟩ := d
  by_cases h : k < vs.length
  · simp only [DrawSource.draw, afterDraws]
    rw [List.drop_eq_getElem_cons h]
    simp [drawAt, List.range_succ, List.getElem?_eq_getElem h]
  · have h1 : vs.drop k = [] := List.drop_eq_nil_of_le (by omega)
    have h2 : vs.drop (k + 1) = [] := List.drop_eq_nil_of_le (by omega)
    have h3 : vs[k]? = none := List.getElem?_eq_none (by omega)
    simp [DrawSource.draw, afterDraws, drawAt, h1, h2, h3, List.range_succ, Nat.add_comm]

/-! ### The memory's canonical form -/

theorem memory_wf_atReset (n : Nat) : (Memory.atReset : Memory S).wf n := by simp [Memory.wf, Memory.atReset]

theorem memory_wf_symout {m : Memory S} {n : Nat} {ys : List Sym} (h : m.wf n) (hl : ys.length ≤ n) :
    Memory.wf n { m with symout := m.symout.writeSeq 0 ys } := by
  obtain ⟨⟨h1, h2, h3, h4, h5, h6⟩, w1, w2, w3, w4, w5, w6⟩ := h
  exact ⟨⟨h1, h2, h3, writeSeq_sorted 0 ys h4, h5, h6⟩, w1, w2, w3, writeSeq_within 0 ys (by omega) w4, w5, w6⟩

theorem memory_wf_bitout {m : Memory S} {n : Nat} {bs : List Bit} (h : m.wf n) (hl : bs.length ≤ n) :
    Memory.wf n { m with bitout := m.bitout.writeSeq 0 bs } := by
  obtain ⟨⟨h1, h2, h3, h4, h5, h6⟩, w1, w2, w3, w4, w5, w6⟩ := h
  exact ⟨⟨h1, h2, h3, h4, writeSeq_sorted 0 bs h5, h6⟩, w1, w2, w3, w4, writeSeq_within 0 bs (by omega) w5, w6⟩

/-! ### Host writes other than of `CMD` (R54 to R56) -/

/-- An element is stored only below the capacity and only for a value that fits. -/
theorem writeElement_eq_some {α : Type} {n : Nat} {b c : Buf α} {v : Option α} {i : Nat} (h : writeElement n b v i = some c) :
    i < n ∧ ∃ x, v = some x ∧ c = b.write i x := by
  simp only [writeElement] at h
  split at h
  · rename_i hi
    obtain ⟨x, hx, rfl⟩ := Option.map_eq_some_iff.mp h
    exact ⟨hi, x, hx, rfl⟩
  · cases h

/-- Everything an admitted host write other than of `CMD` can do. -/
theorem hostWritten_cases {enc : SoftEnc S P} {s t : Generic.State S P} {a : Addr} {v : HostValue P} (h : hostWritten enc s a v = some t) :
    (∃ w c, v = .word w ∧ ConfigReg.ofWord w = some c ∧ t = { s with config := c }) ∨
    (∃ x, bitOfValue v = some x ∧ a.index.toNat < s.params.nMax ∧
      t = { s with mem := { s.mem with ibuf := s.mem.ibuf.write a.index.toNat x } }) ∨
    (∃ x, symOfValue v = some x ∧ a.index.toNat < s.params.nMax ∧
      t = { s with mem := { s.mem with hobs := s.mem.hobs.write a.index.toNat x } }) ∨
    (∃ x, softOfValue enc v = some x ∧ a.index.toNat < s.params.nMax ∧
      t = { s with mem := { s.mem with sobsX := s.mem.sobsX.write a.index.toNat x } }) ∨
    (∃ x, softOfValue enc v = some x ∧ a.index.toNat < s.params.nMax ∧
      t = { s with mem := { s.mem with sobsY := s.mem.sobsY.write a.index.toNat x } }) := by
  simp only [hostWritten] at h
  split at h
  · split at h
    · rename_i w _
      obtain ⟨c, hc, rfl⟩ := Option.map_eq_some_iff.mp h
      exact .inl ⟨w, c, rfl, hc, rfl⟩
    · cases h
  · obtain ⟨b, hb, rfl⟩ := Option.map_eq_some_iff.mp h
    obtain ⟨hi, x, hx, rfl⟩ := writeElement_eq_some hb
    exact .inr (.inl ⟨x, hx, hi, rfl⟩)
  · obtain ⟨b, hb, rfl⟩ := Option.map_eq_some_iff.mp h
    obtain ⟨hi, x, hx, rfl⟩ := writeElement_eq_some hb
    exact .inr (.inr (.inl ⟨x, hx, hi, rfl⟩))
  · obtain ⟨b, hb, rfl⟩ := Option.map_eq_some_iff.mp h
    obtain ⟨hi, x, hx, rfl⟩ := writeElement_eq_some hb
    exact .inr (.inr (.inr (.inl ⟨x, hx, hi, rfl⟩)))
  · obtain ⟨b, hb, rfl⟩ := Option.map_eq_some_iff.mp h
    obtain ⟨hi, x, hx, rfl⟩ := writeElement_eq_some hb
    exact .inr (.inr (.inr (.inr ⟨x, hx, hi, rfl⟩)))
  · cases h

/-- An admitted host write keeps the memory's canonical form and changes only `CONFIG` or an input buffer. -/
theorem hostWritten_frame {enc : SoftEnc S P} {s t : Generic.State S P} {a : Addr} {v : HostValue P} (h : hostWritten enc s a v = some t) :
    t = { s with config := t.config, mem := t.mem } ∧ t.mem.symout = s.mem.symout ∧ t.mem.bitout = s.mem.bitout ∧
    (s.mem.wf s.params.nMax → t.mem.wf s.params.nMax) := by
  rcases hostWritten_cases h with ⟨w, c, -, -, rfl⟩ | ⟨x, -, hi, rfl⟩ | ⟨x, -, hi, rfl⟩ | ⟨x, -, hi, rfl⟩ | ⟨x, -, hi, rfl⟩
  · exact ⟨rfl, rfl, rfl, id⟩
  all_goals
    refine ⟨rfl, rfl, rfl, fun ⟨⟨h1, h2, h3, h4, h5, h6⟩, w1, w2, w3, w4, w5, w6⟩ => ?_⟩
  · exact ⟨⟨write_sorted _ x h1, h2, h3, h4, h5, h6⟩, write_within x hi w1, w2, w3, w4, w5, w6⟩
  · exact ⟨⟨h1, write_sorted _ x h2, h3, h4, h5, h6⟩, w1, write_within x hi w2, w3, w4, w5, w6⟩
  · exact ⟨⟨h1, h2, write_sorted _ x h3, h4, h5, h6⟩, w1, w2, write_within x hi w3, w4, w5, w6⟩
  · exact ⟨⟨h1, h2, h3, h4, h5, write_sorted _ x h6⟩, w1, w2, w3, w4, w5, write_within x hi w6⟩

/-- Everything a host read can do (R53): return the value, or raise a host fault. -/
theorem hostRead_cases (enc : SoftEnc S P) (a : Addr) (s : Generic.State S P) :
    (∃ v, hostValueAt enc s a = some v ∧ hostRead enc a s = .next { s with readData := some v }) ∨
    (hostValueAt enc s a = none ∧ hostRead enc a s = .fault .hostFault) := by
  simp only [hostRead]
  cases h : hostValueAt enc s a with
  | none => exact .inr ⟨rfl, rfl⟩
  | some v => exact .inl ⟨v, rfl, rfl⟩

/-- Everything a host write other than of `CMD` can do (R54, R57). -/
theorem hostWrite_cases (enc : SoftEnc S P) (a : Addr) (v : HostValue P) (s : Generic.State S P) :
    (∃ t, hostWritten enc s a v = some t ∧ hostWrite enc a v s = .next t) ∨
    (hostWritten enc s a v = none ∧ hostWrite enc a v s = .fault .hostFault) := by
  simp only [hostWrite]
  cases h : hostWritten enc s a v with
  | none => exact .inr ⟨rfl, rfl⟩
  | some t => exact .inl ⟨t, rfl, rfl⟩

/-! ### Soft values on the host's side (R55, R60) -/

@[simp] theorem softOfValue_soft (enc : SoftEnc S P) (p : P) : softOfValue enc (.soft p) = enc.decode p := rfl

@[simp] theorem softOfValue_word (enc : SoftEnc S P) (w : Word) : softOfValue enc (.word w) = none := rfl

@[simp] theorem valueOfSoft_eq (enc : SoftEnc S P) (x : S) : valueOfSoft enc x = .soft (enc.encode x) := rfl

/-- A legal format reads a stored sample back as a pattern of the same value. -/
theorem softOfValue_valueOfSoft {enc : SoftEnc S P} (h : enc.Legal) {v : HostValue P} {x : S} (hv : softOfValue enc v = some x) :
    softOfValue enc (valueOfSoft enc x) = some x := by
  cases v with
  | word w => cases hv
  | soft p => exact h p x hv

/-! ### One step -/

theorem commandWord_eq_some_iff (a : Addr) (v : HostValue P) (w : Word) :
    commandWord a v = some w ↔ a = cmdAddr ∧ v = .word w := by
  cases v with
  | soft p => simp [commandWord]
  | word u => by_cases h : a = cmdAddr <;> simp [commandWord, h]

/-- A step with an event pending runs it on the state without it. -/
theorem stepWith_cons [Zero S] (run : Meaning S P) (enc : SoftEnc S P) {s : Generic.State S P} {e : Event P} {rest : List (Event P)}
    (h : s.pending = e :: rest) : stepWith run enc s = runEvent run enc e { s with pending := rest } := by
  simp [stepWith, nextEvent, h]

/-- Everything `issue` can do (R76 to R78, R220): run the decoded command, absorb its model fault, or raise `ILLEGAL`. -/
theorem issue_cases {run : Meaning S P} {w : Word} {s t : Generic.State S P} (h : issue run w s = .next t) :
    (∃ i, decode w = .ok i ∧ (run i (beginCommand w s) = .next t ∨
      (∃ f, run i (beginCommand w s) = .fault f) ∧ t = markFaulted { s with cmd := w })) ∨
    ((∃ r, decode w = .error r) ∧ t = raiseCmdError .illegal (beginCommand w s)) := by
  unfold issue at h
  split at h
  · rename_i i hi
    exact .inl ⟨i, hi, absorbFault_cases h⟩
  · rename_i r hr
    exact .inr ⟨⟨r, hr⟩, by cases h; rfl⟩

end Sys2Proof.Machine
end

