-- ==== Sys2Proof/Laws/PerInstr.lean ====
section
/-! SUPPORT. Statements made for every instruction, one lemma per constructor. Family `ReservedZero`: the word of a command
holds its opcode in bits 3:0 and zeros in the reserved bits 15:14 and 7 (30_encoding.md R70, R74, R75, R80). -/
namespace Sys2Proof.Laws.ReservedZero

/-- The fields of an assembled word are the fields it was assembled from. -/
theorem fieldsOf_wordOf (f : CmdFields) : fieldsOf (wordOf f) = f := by
  obtain ⟨len, rsv15, s2, s1, s0, rsv7, b, st, opc⟩ := f
  simp only [fieldsOf, wordOf, CmdFields.mk.injEq]
  refine ⟨?_, ?_, ?_, ?_, ?_, ?_, ?_, ?_, ?_⟩ <;>
    (apply BitVec.eq_of_getLsbD_eq; intro i hi; simp only [BitVec.getLsbD_extractLsb', BitVec.getLsbD_append]; interval_cases i <;> simp)

def Statement (i : Instr) : Prop :=
  (fieldsOf (encode i)).opc ≠ 0 ∧ (fieldsOf (encode i)).opc.toNat < 8 ∧
    (fieldsOf (encode i)).rsv15 = 0 ∧ (fieldsOf (encode i)).rsv7 = 0

theorem encStep (st : EncState) (b : Bit) : Statement (.encStep st b) := by
  simp [Statement, encode, fieldsOf_wordOf, fieldsOfInstr, CmdFields.ofOpcode, Opcode.toBits]

theorem encSeq (st : EncState) (len : Nat) : Statement (.encSeq st len) := by
  simp [Statement, encode, fieldsOf_wordOf, fieldsOfInstr, CmdFields.ofOpcode, Opcode.toBits]

theorem laBuild : Statement .laBuild := by
  simp [Statement, encode, fieldsOf_wordOf, fieldsOfInstr, CmdFields.ofOpcode, Opcode.toBits]

theorem laLookup (st : EncState) (s0 s1 s2 : Sym) : Statement (.laLookup st s0 s1 s2) := by
  simp [Statement, encode, fieldsOf_wordOf, fieldsOfInstr, CmdFields.ofOpcode, Opcode.toBits]

theorem laDecode (len : Nat) : Statement (.laDecode len) := by
  simp [Statement, encode, fieldsOf_wordOf, fieldsOfInstr, CmdFields.ofOpcode, Opcode.toBits]

theorem hardDp (len : Nat) : Statement (.hardDp len) := by
  simp [Statement, encode, fieldsOf_wordOf, fieldsOfInstr, CmdFields.ofOpcode, Opcode.toBits]

theorem softDp (len : Nat) : Statement (.softDp len) := by
  simp [Statement, encode, fieldsOf_wordOf, fieldsOfInstr, CmdFields.ofOpcode, Opcode.toBits]

end Sys2Proof.Laws.ReservedZero
end

