-- ==== Sys2Proof/Laws/Trellis.lean ====
section
/-! SUPPORT. The laws of relaxation, of the forward pass and of the traceback (43_hard_viterbi.md R164 to R170). -/
namespace Sys2Proof.Machine

/-! ### Relaxation -/

section Relax

variable {κ : Type} [LT κ] [DecidableLT κ] [DecidableEq κ]

/-- Everything one relaxation can do to the node it relaxes (R165 to R167): it fills an undefined entry, replaces a dearer one,
keeps a cheaper one, and on a tie keeps the entry or takes one draw. -/
theorem relax_cases (rt : Bool) (n : EncState) (e : Entry κ) (c : Column κ) (d : DrawSource) :
    (c.get n = none ∧ relax rt n e (c, d) = (c.set n (some e), d)) ∨
    (∃ old, c.get n = some old ∧ e.cost < old.cost ∧ relax rt n e (c, d) = (c.set n (some e), d)) ∨
    (∃ old, c.get n = some old ∧ ¬ e.cost < old.cost ∧ ¬ (e.cost = old.cost ∧ rt = true) ∧ relax rt n e (c, d) = (c, d)) ∨
    (∃ old, c.get n = some old ∧ ¬ e.cost < old.cost ∧ e.cost = old.cost ∧ rt = true ∧
      relax rt n e (c, d) = (if d.draw.1 then c.set n (some e) else c, d.draw.2)) := by
  cases h : c.get n with
  | none => exact .inl ⟨rfl, by simp [relax, h]⟩
  | some old =>
    by_cases h1 : e.cost < old.cost
    · exact .inr (.inl ⟨old, rfl, h1, by simp [relax, h, h1]⟩)
    · by_cases h2 : e.cost = old.cost ∧ rt = true
      · exact .inr (.inr (.inr ⟨old, rfl, h1, h2.1, h2.2, by simp only [relax, h, if_neg h1, if_pos h2]⟩))
      · exact .inr (.inr (.inl ⟨old, rfl, h1, h2, by simp only [relax, h, if_neg h1, if_neg h2]⟩))

/-- A relaxation touches no other node. -/
theorem relax_other (rt : Bool) (n : EncState) (e : Entry κ) (acc : Column κ × DrawSource) {m : EncState} (h : m ≠ n) :
    (relax rt n e acc).1.get m = acc.1.get m := by
  obtain ⟨c, d⟩ := acc
  rcases relax_cases rt n e c d with ⟨-, hr⟩ | ⟨_, -, -, hr⟩ | ⟨_, -, -, -, hr⟩ | ⟨_, -, -, -, -, hr⟩ <;> rw [hr]
  · exact get_set_ne c _ h
  · exact get_set_ne c _ h
  · dsimp only
    split
    · exact get_set_ne c _ h
    · rfl

/-- A relaxed node is defined. -/
theorem relax_defined (rt : Bool) (n : EncState) (e : Entry κ) (acc : Column κ × DrawSource) :
    ((relax rt n e acc).1.get n).isSome = true := by
  obtain ⟨c, d⟩ := acc
  rcases relax_cases rt n e c d with ⟨-, hr⟩ | ⟨_, -, -, hr⟩ | ⟨_, h, -, -, hr⟩ | ⟨_, h, -, -, -, hr⟩ <;> rw [hr]
  · simp
  · simp
  · simp [h]
  · dsimp only
    split <;> simp [h]

/-- Without the randomized mode a relaxation takes no draw (R166, 44_soft_viterbi.md R195). -/
theorem relax_false_draws (n : EncState) (e : Entry κ) (acc : Column κ × DrawSource) : (relax false n e acc).2 = acc.2 := by
  obtain ⟨c, d⟩ := acc
  rcases relax_cases false n e c d with ⟨-, hr⟩ | ⟨_, -, -, hr⟩ | ⟨_, -, -, -, hr⟩ | ⟨_, -, -, -, h, -⟩
  · rw [hr]
  · rw [hr]
  · rw [hr]
  · cases h

end Relax

/-! ### One time step -/

section Advance

variable {κ : Type} [Add κ] [LinearOrder κ]

/-- The entry that the edge from `p` on bit `b` offers to the node it leads to (R165). -/
def candidate (g : GenOrder) (metric : Sym → κ) (prev : Column κ) (p : EncState) (b : Bit) : Option (Entry κ) :=
  (prev.get p).map fun e => ⟨e.cost + metric (outSym g p b), p, b⟩

/-- What a node holds after the candidates of its lower and its upper predecessor, in that order, and the draw source then (R165
to R167): the cheaper one, the lower one on a tie, and in the randomized mode the one a draw decides. -/
def settle (rt : Bool) (lower upper : Option (Entry κ)) (d : DrawSource) : Option (Entry κ) × DrawSource :=
  match lower, upper with
  | none, u => (u, d)
  | some l, none => (some l, d)
  | some l, some u =>
    if u.cost < l.cost then (some u, d)
    else if u.cost = l.cost ∧ rt = true then (some (if d.draw.1 then u else l), d.draw.2)
    else (some l, d)

theorem set_get_self {α : Type} (q : PerState α) (s : EncState) {v : α} (h : q.get s = v) : q.set s v = q := by
  subst h
  obtain ⟨_ | _, _ | _⟩ := s <;> rfl

/-- Everything the relaxation of one edge does: it settles the node the edge leads to. -/
theorem relaxEdge_eq (g : GenOrder) (rt : Bool) (metric : Sym → κ) (prev c : Column κ) (d : DrawSource) (p : EncState) (b : Bit) :
    relaxEdge g rt metric prev (c, d) (p, b) =
      (c.set (nextState p b) (settle rt (c.get (nextState p b)) (candidate g metric prev p b) d).1,
        (settle rt (c.get (nextState p b)) (candidate g metric prev p b) d).2) := by
  unfold relaxEdge candidate
  cases hp : prev.get p with
  | none => cases hn : c.get (nextState p b) <;> simp [settle, set_get_self c _ hn]
  | some e =>
    cases hn : c.get (nextState p b) with
    | none => simp [relax, hn, settle]
    | some old =>
      simp only [relax, hn, settle, Option.map_some]
      split
      · rfl
      · split
        · split
          · rfl
          · rw [set_get_self c _ hn]
        · rw [set_get_self c _ hn]

/-- Everything one time step does: it settles the four nodes in index order, each with its two predecessors (R108, R164). -/
theorem advance_eq (g : GenOrder) (rt : Bool) (metric : Sym → κ) (prev : Column κ) (d : DrawSource) :
    advance g rt metric prev d =
      let node := fun (n : EncState) (d : DrawSource) =>
        settle rt (candidate g metric prev ⟨false, n.first⟩ n.second) (candidate g metric prev ⟨true, n.first⟩ n.second) d
      let r0 := node ⟨false, false⟩ d
      let r1 := node ⟨false, true⟩ r0.2
      let r2 := node ⟨true, false⟩ r1.2
      let r3 := node ⟨true, true⟩ r2.2
      (⟨r0.1, r1.1, r2.1, r3.1⟩, r3.2) := by
  simp only [advance, trellisEdges, allStates, List.flatMap_cons, List.flatMap_nil, List.append_nil, List.cons_append,
    List.nil_append, List.foldl_cons, List.foldl_nil, relaxEdge_eq]
  rfl

theorem relaxEdge_other (g : GenOrder) (rt : Bool) (metric : Sym → κ) (prev : Column κ) (acc : Column κ × DrawSource)
    (edge : EncState × Bit) {n : EncState} (h : n ≠ nextState edge.1 edge.2) :
    (relaxEdge g rt metric prev acc edge).1.get n = acc.1.get n := by
  unfold relaxEdge
  split
  · rfl
  · exact relax_other _ _ _ _ h

theorem foldl_relaxEdge_other (g : GenOrder) (rt : Bool) (metric : Sym → κ) (prev : Column κ) {n : EncState}
    (edges : List (EncState × Bit)) (h : ∀ e ∈ edges, n ≠ nextState e.1 e.2) (acc : Column κ × DrawSource) :
    (edges.foldl (relaxEdge g rt metric prev) acc).1.get n = acc.1.get n := by
  induction edges generalizing acc with
  | nil => rfl
  | cons e edges ih =>
    rw [List.foldl_cons, ih (fun e' he => h e' (List.mem_cons_of_mem _ he)),
      relaxEdge_other g rt metric prev acc e (h e List.mem_cons_self)]

/-- Everything the relaxation of an edge can do to the node it leads to: nothing when its source is undefined; else the node
holds the candidate or what it held, whichever is not dearer. -/
theorem relaxEdge_into (g : GenOrder) (rt : Bool) (metric : Sym → κ) (prev : Column κ) (acc : Column κ × DrawSource)
    (p : EncState) (b : Bit) :
    (candidate g metric prev p b = none ∧
      (relaxEdge g rt metric prev acc (p, b)).1.get (nextState p b) = acc.1.get (nextState p b)) ∨
    ∃ e, candidate g metric prev p b = some e ∧
      ((acc.1.get (nextState p b) = none ∧ (relaxEdge g rt metric prev acc (p, b)).1.get (nextState p b) = some e) ∨
       ∃ old, acc.1.get (nextState p b) = some old ∧
        (((relaxEdge g rt metric prev acc (p, b)).1.get (nextState p b) = some e ∧ e.cost ≤ old.cost) ∨
         ((relaxEdge g rt metric prev acc (p, b)).1.get (nextState p b) = some old ∧ old.cost ≤ e.cost))) := by
  obtain ⟨c, d⟩ := acc
  cases hp : prev.get p with
  | none => exact .inl ⟨by simp [candidate, hp], by simp [relaxEdge, hp]⟩
  | some e0 =>
    have hr : relaxEdge g rt metric prev (c, d) (p, b) =
        relax rt (nextState p b) ⟨e0.cost + metric (outSym g p b), p, b⟩ (c, d) := by simp [relaxEdge, hp]
    refine .inr ⟨⟨e0.cost + metric (outSym g p b), p, b⟩, by simp [candidate, hp], ?_⟩
    rw [hr]
    rcases relax_cases rt (nextState p b) ⟨e0.cost + metric (outSym g p b), p, b⟩ c d with
      ⟨h1, h2⟩ | ⟨old, h1, h3, h2⟩ | ⟨old, h1, h3, -, h2⟩ | ⟨old, h1, h3, h4, -, h2⟩
    · exact .inl ⟨h1, by rw [h2]; simp⟩
    · exact .inr ⟨old, h1, .inl ⟨by rw [h2]; simp, h3.le⟩⟩
    · exact .inr ⟨old, h1, .inr ⟨by rw [h2]; exact h1, not_lt.mp h3⟩⟩
    · refine .inr ⟨old, h1, ?_⟩
      cases hd : d.draw.1
      · exact .inr ⟨by rw [h2]; simpa [hd] using h1, h4.ge⟩
      · exact .inl ⟨by rw [h2]; simp [hd], h4.le⟩

/-- The edges into a node are those from its two predecessors, the lower-indexed first (40_encoder.md R108, R164). -/
theorem trellisEdges_split (n : EncState) : ∃ before between after,
    trellisEdges = before ++ (⟨false, n.first⟩, n.second) :: (between ++ (⟨true, n.first⟩, n.second) :: after) ∧
    (∀ e ∈ before, n ≠ nextState e.1 e.2) ∧ (∀ e ∈ between, n ≠ nextState e.1 e.2) ∧
    ∀ e ∈ after, n ≠ nextState e.1 e.2 := by
  obtain ⟨_ | _, _ | _⟩ := n
  · exact ⟨[], [(⟨false, false⟩, true), (⟨false, true⟩, false), (⟨false, true⟩, true)],
      [(⟨true, false⟩, true), (⟨true, true⟩, false), (⟨true, true⟩, true)], by decide⟩
  · exact ⟨[(⟨false, false⟩, false)], [(⟨false, true⟩, false), (⟨false, true⟩, true), (⟨true, false⟩, false)],
      [(⟨true, true⟩, false), (⟨true, true⟩, true)], by decide⟩
  · exact ⟨[(⟨false, false⟩, false), (⟨false, false⟩, true)],
      [(⟨false, true⟩, true), (⟨true, false⟩, false), (⟨true, false⟩, true)], [(⟨true, true⟩, true)], by decide⟩
  · exact ⟨[(⟨false, false⟩, false), (⟨false, false⟩, true), (⟨false, true⟩, false)],
      [(⟨true, false⟩, false), (⟨true, false⟩, true), (⟨true, true⟩, false)], [], by decide⟩

/-- Everything one time step can leave in a node, in both tie modes and for every draw (R164 to R167): the one candidate there
is, or one of two that is not dearer than the other, or nothing. -/
theorem advance_cases (g : GenOrder) (rt : Bool) (metric : Sym → κ) (prev : Column κ) (d : DrawSource) (n : EncState) :
    (candidate g metric prev ⟨false, n.first⟩ n.second = none ∧
      (advance g rt metric prev d).1.get n = candidate g metric prev ⟨true, n.first⟩ n.second) ∨
    (candidate g metric prev ⟨true, n.first⟩ n.second = none ∧
      (advance g rt metric prev d).1.get n = candidate g metric prev ⟨false, n.first⟩ n.second) ∨
    ∃ e0 e1, candidate g metric prev ⟨false, n.first⟩ n.second = some e0 ∧
      candidate g metric prev ⟨true, n.first⟩ n.second = some e1 ∧
      (((advance g rt metric prev d).1.get n = some e0 ∧ e0.cost ≤ e1.cost) ∨
       ((advance g rt metric prev d).1.get n = some e1 ∧ e1.cost ≤ e0.cost)) := by
  obtain ⟨before, between, after, hedges, hb, hm, ha⟩ := trellisEdges_split n
  have h0 := relaxEdge_into g rt metric prev (before.foldl (relaxEdge g rt metric prev) (emptyColumn κ, d))
    ⟨false, n.first⟩ n.second
  have h1 := relaxEdge_into g rt metric prev (between.foldl (relaxEdge g rt metric prev)
    (relaxEdge g rt metric prev (before.foldl (relaxEdge g rt metric prev) (emptyColumn κ, d)) (⟨false, n.first⟩, n.second)))
    ⟨true, n.first⟩ n.second
  have hr : (advance g rt metric prev d).1.get n = (relaxEdge g rt metric prev (between.foldl (relaxEdge g rt metric prev)
      (relaxEdge g rt metric prev (before.foldl (relaxEdge g rt metric prev) (emptyColumn κ, d))
        (⟨false, n.first⟩, n.second))) (⟨true, n.first⟩, n.second)).1.get n := by
    rw [advance, hedges, List.foldl_append, List.foldl_cons, List.foldl_append, List.foldl_cons,
      foldl_relaxEdge_other g rt metric prev after ha]
  have n0 : nextState ⟨false, n.first⟩ n.second = n := rfl
  have n1 : nextState ⟨true, n.first⟩ n.second = n := rfl
  have hempty : (emptyColumn κ).get n = none := by obtain ⟨_ | _, _ | _⟩ := n <;> rfl
  simp only [n0, n1, ← hr, foldl_relaxEdge_other g rt metric prev before hb,
    foldl_relaxEdge_other g rt metric prev between hm, hempty] at h0 h1
  rcases h0 with ⟨e0, hb0⟩ | ⟨e0, he0, ⟨-, hb0⟩ | ⟨_, h, -⟩⟩
  · rw [hb0] at h1
    rcases h1 with ⟨e1, h1⟩ | ⟨e1, he1, ⟨-, h⟩ | ⟨_, h, -⟩⟩
    · exact .inl ⟨e0, h1.trans e1.symm⟩
    · exact .inl ⟨e0, h.trans he1.symm⟩
    · cases h
  · rw [hb0] at h1
    rcases h1 with ⟨e1, h1⟩ | ⟨e1, he1, ⟨h, -⟩ | ⟨old, h, h'⟩⟩
    · exact .inr (.inl ⟨e1, h1.trans he0.symm⟩)
    · cases h
    · cases h
      exact .inr (.inr ⟨e0, e1, he0, he1, h'.symm⟩)
  · cases h

end Advance

/-! ### The forward pass -/

section Forward

variable {κ ω : Type} [Add κ] [LT κ] [DecidableLT κ] [DecidableEq κ]

theorem relaxEdge_false_draws (g : GenOrder) (metric : Sym → κ) (prev : Column κ) (acc : Column κ × DrawSource)
    (edge : EncState × Bit) : (relaxEdge g false metric prev acc edge).2 = acc.2 := by
  unfold relaxEdge
  split
  · rfl
  · exact relax_false_draws _ _ _

theorem advance_false_draws (g : GenOrder) (metric : Sym → κ) (prev : Column κ) (d : DrawSource) :
    (advance g false metric prev d).2 = d := by
  unfold advance
  suffices h : ∀ (edges : List (EncState × Bit)) (acc : Column κ × DrawSource),
      (edges.foldl (relaxEdge g false metric prev) acc).2 = acc.2 from h _ _
  intro edges
  induction edges with
  | nil => intro acc; rfl
  | cons e edges ih => intro acc; rw [List.foldl_cons, ih, relaxEdge_false_draws]

/-- A forward pass without the randomized mode takes no draw. -/
theorem forward_false_draws (g : GenOrder) (metric : ω → Sym → κ) (os : List ω) (c : Column κ) (d : DrawSource) :
    (forward g false metric os c d).2 = d := by
  induction os generalizing c d with
  | nil => rfl
  | cons o os ih => simp [forward, ih, advance_false_draws]

/-- One column for each observation (R160). -/
@[simp] theorem length_forward (g : GenOrder) (rt : Bool) (metric : ω → Sym → κ) (os : List ω) (c : Column κ) (d : DrawSource) :
    (forward g rt metric os c d).1.length = os.length := by
  induction os generalizing c d with
  | nil => rfl
  | cons o os ih => simp [forward, ih]

end Forward

/-! ### The traceback -/

/-- A walk puts its bits in front of those it was given. -/
theorem walkBack_acc {κ : Type} (cols : List (Column κ)) (s : EncState) (acc : List Bit) :
    walkBack cols s acc = (walkBack cols s []).map (· ++ acc) := by
  induction cols generalizing s acc with
  | nil => simp [walkBack]
  | cons c older ih =>
    simp only [walkBack]
    cases c.get s with
    | none => rfl
    | some e =>
      simp only
      rw [ih e.pred (e.bit :: acc), ih e.pred [e.bit]]
      simp [Function.comp_def]

/-- A walk collects one bit for each column, in front of those it was given (R169). -/
theorem walkBack_length {κ : Type} {cols : List (Column κ)} {s : EncState} {acc bits : List Bit}
    (h : walkBack cols s acc = some bits) : bits.length = cols.length + acc.length := by
  induction cols generalizing s acc with
  | nil => simp only [walkBack, Option.some.injEq] at h; simp [← h]
  | cons c cols ih =>
    simp only [walkBack] at h
    split at h
    · cases h
    · rw [ih h]
      simp only [List.length_cons]
      omega

/-- The best path has one bit for each column. -/
theorem bestPath_length {κ : Type} {cols : List (Column κ)} {bits : List Bit} {cost : κ}
    (h : bestPath cols = some (bits, cost)) : bits.length = cols.length := by
  unfold bestPath at h
  split at h
  · cases h
  · rename_i last older hrev
    split at h
    · cases h
    · obtain ⟨bs, hbs, heq⟩ := Option.map_eq_some_iff.mp h
      cases heq
      rw [walkBack_length hbs, ← hrev]
      simp

end Sys2Proof.Machine
end

