-- ==== Sys2Proof/Tests/Slice0.lean ====
section
/-! SUPPORT. Small tests with expected values from spec/95_test_vectors.md and 30_encoding.md R83, and, for every statement with
hypotheses, a state that meets them all. -/
namespace Sys2Proof.Tests
open Sys2Proof Sys2Proof.Machine

/-! ### Well-formedness: an ill-formed term for each check -/

theorem test_encSeq_len_too_wide : (Instr.encSeq stateZero 65536).wellFormed = false := by decide
theorem test_laDecode_len_too_wide : (Instr.laDecode 65536).wellFormed = false := by decide
theorem test_hardDp_len_too_wide : (Instr.hardDp 65536).wellFormed = false := by decide
theorem test_softDp_len_too_wide : (Instr.softDp 65536).wellFormed = false := by decide
theorem test_wellFormed_accepts :
    (Instr.softDp 65535).wellFormed = true ∧ (Instr.encStep stateZero true).wellFormed = true ∧
    Instr.laBuild.wellFormed = true ∧ (Instr.laLookup stateZero ⟨true, true⟩ ⟨true, true⟩ ⟨true, true⟩).wellFormed = true := by
  decide

/-! ### Decoding: words written out from R70 (LEN, reserved, S2, S1, S0, reserved, B, ST, OPC) -/

theorem test_decode_encStep :
    decode 0b0000000000000000_00_00_00_00_0_1_10_0001#32 = .ok (.encStep ⟨true, false⟩ true) := by rfl
theorem test_decode_encSeq :
    decode 0b0000000000000100_00_00_00_00_0_0_11_0010#32 = .ok (.encSeq ⟨true, true⟩ 4) := by rfl
theorem test_decode_laBuild : decode 0b0000000000000000_00_00_00_00_0_0_00_0011#32 = .ok .laBuild := by rfl
theorem test_decode_laLookup :
    decode 0b0000000000000000_00_11_01_10_0_0_01_0100#32 = .ok (.laLookup ⟨false, true⟩ ⟨true, false⟩ ⟨false, true⟩ ⟨true, true⟩) := by
  rfl
theorem test_decode_laDecode : decode 0b1000000000000001_00_00_00_00_0_0_00_0101#32 = .ok (.laDecode 32769) := by rfl
theorem test_decode_hardDp : decode 0b0000000000001010_00_00_00_00_0_0_00_0110#32 = .ok (.hardDp 10) := by rfl
theorem test_decode_softDp : decode 0b0000000000000110_00_00_00_00_0_0_00_0111#32 = .ok (.softDp 6) := by rfl

/-- The rejected words of 95_test_vectors.md §2.9 and of §2.1, §2.2, §2.5, §2.7. -/
theorem test_decode_rejects :
    decode 0x00000000#32 = .error .reservedOpcode ∧ decode 0x00000008#32 = .error .reservedOpcode ∧
    decode 0xFFFFFFFF#32 = .error .reservedOpcode ∧ decode 0x00000083#32 = .error .reservedBits ∧
    decode 0x00004003#32 = .error .reservedBits ∧ decode 0x00010085#32 = .error .reservedBits ∧
    decode 0x00000013#32 = .error .unusedField ∧ decode 0x00010041#32 = .error .unusedField ∧
    decode 0x00060042#32 = .error .unusedField ∧ decode 0x00000B44#32 = .error .unusedField ∧
    decode 0x00060016#32 = .error .unusedField := by
  refine ⟨?_, ?_, ?_, ?_, ?_, ?_, ?_, ?_, ?_, ?_, ?_⟩ <;> rfl

/-! ### One step on small states -/

/-- The state a step or a command answers, reset where it answers none. -/
def stateOf : Host.Outcome State Fault Refusal → State
  | .next s => s
  | .fault _ => State.reset
  | .refused _ => State.reset

/-- Whether an outcome is a next state. -/
def isNext : Host.Outcome State Fault Refusal → Bool
  | .next _ => true
  | .fault _ => false
  | .refused _ => false

theorem next_of_isNext {o : Host.Outcome State Fault Refusal} (h : isNext o = true) : o = .next (stateOf o) := by
  cases o with
  | next s => rfl
  | fault f => cases h
  | refused r => cases h

/-- What the host reads of `STATUS`, `RESULT` and `HMETRIC` after one step that issues the word. -/
def regsAfter (w : Nat) (s : State) : Word × Word × Word :=
  ((stateOf (step (s.withFetchWord 32 w))).status.toWord, (stateOf (step (s.withFetchWord 32 w))).result.toWord,
    (stateOf (step (s.withFetchWord 32 w))).hmetric)

/-- A written buffer with these elements. -/
def buf {α : Type} (vs : List α) : Buf α := Buf.writeSeq [] 0 vs

/-- The symbol of an index (R103). -/
def sym (n : Nat) : Sym := Sym.ofBits (BitVec.ofNat 2 n)

/-- The reset state with these buffers. -/
def withBuffers (ibuf : List Bit) (hobs : List Sym) (xs ys : List Soft) : State :=
  { State.reset with mem := { State.reset.mem with ibuf := buf ibuf, hobs := buf hobs, sobsX := buf xs, sobsY := buf ys } }

/-- The table of 95_test_vectors.md §2.4: entry `64·s + 16·r0 + 4·r1 + r2` is that bit of the number. -/
def specTable : LaTable := 0x9966ffff00009966000066996699ffff99660000ffff9966ffff669966990000#256

/-- 95_test_vectors.md §2.1: `ENC_STEP st=3, b=1` and `st=1, b=1`. -/
theorem test_encStep :
    regsAfter 0x71 State.reset = (0x00, 0x0B, 0) ∧ regsAfter 0x51 State.reset = (0x00, 0x07, 0) := by decide +kernel

/-- §2.2: `IBUF = [0,1,1,0]`, `ST = 3` gives `[01,00,01,01]` and `FINAL_STATE = 2`. -/
theorem test_encSeq :
    (stateOf (exec (.encSeq ⟨true, true⟩ 4) (withBuffers [false, true, true, false] [] [] []))).mem.symout =
      buf [sym 1, sym 0, sym 1, sym 1] ∧
    regsAfter 0x00040032 (withBuffers [false, true, true, false] [] [] []) = (0x00, 0x20, 0) := by decide +kernel

/-- §2.4: the whole table, with both tie policies, and `STATUS = 0x10`. -/
theorem test_laBuild : builtTable .g75 = specTable ∧ (buildTable .g75 true laCells 0).1 = specTable := by decide +kernel

theorem test_laBuild_status : (regsAfter 0x3 State.reset).1 = 0x10 := by decide +kernel

/-- §2.5: `LA_LOOKUP st=3, s0=10, s1=11, s2=10` gives 1; before a build it is `NOT_BUILT`. -/
theorem test_laLookup :
    regsAfter 0x00002E34 (State.reset.setTable specTable true) = (0x10, 0x40, 0) ∧
    regsAfter 0x00000B04 State.reset = (0x23, 0x00, 0) := by decide +kernel

/-- §2.6: `[01,10,00,01,01,11]` decodes to `[0,0,0,1,0,0]`. -/
theorem test_laDecode :
    (stateOf (exec (.laDecode 6) ((withBuffers [] [sym 1, sym 2, sym 0, sym 1, sym 1, sym 3] [] []).setTable specTable true))).mem.bitout =
      buf [false, false, false, true, false, false] := by decide +kernel

/-- §2.9: `LENGTH` before `NOT_BUILT`. -/
theorem test_laDecode_length : (regsAfter 0x00010005 State.reset).1 = 0x22 := by decide +kernel

/-- §2.7: `[00,00,01,11]` has one tie; mode 0 keeps the lower predecessor, draw 1 overwrites; `HMETRIC` 3 either way. -/
theorem test_hardDp_tie :
    (stateOf (exec (.hardDp 4) (withBuffers [] [sym 0, sym 0, sym 1, sym 3] [] []))).mem.bitout = buf [false, false, false, false] ∧
    (stateOf (exec (.hardDp 4) { withBuffers [] [sym 0, sym 0, sym 1, sym 3] [] [] with
      config := { hardTie := true, laTie := false }, draws := { supplied := [true], taken := [] } })).mem.bitout =
      buf [true, true, false, false] := by decide +kernel

/-- §2.7, the same row by the reference term: one tie event, and its draw decides the path. -/
theorem test_survivorPaths :
    let os := [sym 0, sym 0, sym 1, sym 3]
    let survive (b : Bool) := survivorPaths .g75 true (fun _ => b) bmHard os
    (survive false).1.at0 = some (3, [false, false, false, false]) ∧ (survive false).2 = 1 ∧
    (survive true).1.at0 = some (3, [true, true, false, false]) ∧ (survive true).2 = 1 := by decide +kernel

/-- §2.7: the last row, `N = 10`. -/
theorem test_hardDp :
    (stateOf (exec (.hardDp 10) (withBuffers [] ([3, 1, 1, 3, 2, 0, 1, 1, 3, 0].map sym) [] []))).mem.bitout =
      buf [true, true, false, true, false, true, true, false, false, false] := by decide +kernel

/-- §2.8 S6: soft is right where hard is wrong, `SMETRIC = 75/16`. -/
theorem test_softDp :
    let t := stateOf (exec (.softDp 6) (withBuffers [] [] [-1/4, -1/4, -1, -1, -1, 1] [-1/4, -1, -1, 1, 1, 1]))
    t.mem.bitout = buf [true, false, true, true, false, false] ∧ t.smetric = 75/16 := by decide +kernel

/-- An 8-bit format over the integers: the two's complement number, with `0x80` mapped to none (R9: any format). -/
def byteEnc : SoftEnc Int (BitVec 8) :=
  { decode := fun p => if p = 0x80#8 then none else some p.toInt, encode := fun x => BitVec.ofInt 8 x }

/-- R55: with `byteEnc` a pattern that maps to no `Soft` is not admitted, and `0xFF` is stored as -1 and read back as `0xFF`. -/
theorem test_softEnc :
    let s : Generic.State Int (BitVec 8) := resetWith { nMax := 3, genOrder := .g75 }
    let stored (o : Host.Outcome (Generic.State Int (BitVec 8)) Fault Refusal) : Buf Int × Option (HostValue (BitVec 8)) × Bool :=
      match o with
      | .next u => (u.mem.sobsX, u.readData, u.faulted)
      | _ => ([], none, false)
    stored (runOf byteEnc 1 { s with pending := [.write ⟨3, 0⟩ (.soft 0x80)] }) = ([], none, true) ∧
    stored (runOf byteEnc 2 { s with pending := [.write ⟨3, 0⟩ (.soft 0xFF), .read ⟨3, 0⟩] }) =
      ([(0, -1)], some (.soft 0xFF), false) := by decide +kernel

/-- R198 over the integers: the points of `[11,10,11]` decode to `[1,0,0]` with `SMETRIC` 0. -/
theorem test_softDp_integers :
    (match (execOf (.softDp 3) { (resetWith { nMax := 3, genOrder := .g75 } : Generic.State Int (BitVec 8)) with
        mem := { (Memory.atReset : Memory Int) with sobsX := buf [1, 1, 1], sobsY := buf [1, -1, 1] } }) with
      | .next u => (u.mem.bitout, u.smetric)
      | _ => ([], 1)) = (buf [true, false, false], 0) := by decide +kernel

/-- §3 P6: `WR IBUF[0] <- 2`, `RD BITOUT[0]` from reset and `WR STATUS <- 0` mark the run faulted. -/
theorem test_host_faults :
    (stateOf (step { State.reset with pending := [.write ⟨1, 0⟩ (.word 2)] })).faulted = true ∧
    (stateOf (step { State.reset with pending := [.read ⟨5, 0⟩] })).faulted = true ∧
    (stateOf (step { State.reset with pending := [.write ⟨0, 1⟩ (.word 0)] })).faulted = true := by decide +kernel

/-- §2.3: quantization of (0, 0), of (-1/4, 1/2) and of (1/2, -1). -/
theorem test_quantize :
    quantize (0, 0) = sym 3 ∧ quantize (-1/4, 1/2) = sym 1 ∧ quantize (1/2, -1) = sym 2 := by decide +kernel

/-! ### Witnesses: states that meet the hypotheses of the statements

`full` has capacity 3 and every buffer written to it: the input `[1,0,0]`, its symbols `[11,10,11]`, their constellation
points, and the built table. -/

def full : State :=
  { resetWith { nMax := 3, genOrder := .g75 } with
    status := { err := .ok, laValid := true, sticky := false, busy := false },
    laTable := specTable,
    mem := { ibuf := buf [true, false, false], hobs := buf [sym 3, sym 2, sym 3], sobsX := buf [1, 1, 1],
             symout := buf [sym 3, sym 2, sym 3], bitout := buf [true, false, false], sobsY := buf [1, -1, 1] } }

/-- `full` with these events pending. -/
def fullWith (es : List (Event SoftBits)) : State := { full with pending := es }

theorem witness_DecodeInvertsEncode : (Instr.hardDp 65535).wellFormed = true ∧ (Instr.encSeq ⟨true, true⟩ 0).wellFormed = true := by
  decide

theorem witness_EncodeInvertsDecode : decode 0xFFFF0032#32 = .ok (.encSeq ⟨true, true⟩ 65535) := by rfl

theorem witness_DecodeAcceptsExactlyTheTableRows :
    (∃ r ∈ tableRows, 0x00003FF4#32 &&& r.1 = r.2) = False ∧ (∃ r ∈ tableRows, 0x00003F34#32 &&& r.1 = r.2) := by
  simp [tableRows]

theorem witness_IllegalWordChangesOnlyStatus :
    (fullWith [.write ⟨0, 0⟩ (.word 0x00000008)]).pending = .write ⟨0, 0⟩ (.word 0x00000008#32) :: [] ∧
    ∀ r ∈ tableRows, 0x00000008#32 &&& r.1 ≠ r.2 := ⟨rfl, by simp [tableRows]⟩

theorem witness_StepRunsTheDecodedCommand :
    (fullWith [.write ⟨0, 0⟩ (.word 0x00030006)]).pending = .write ⟨0, 0⟩ (.word 0x00030006#32) :: [] ∧
    decode 0x00030006#32 = .ok (.hardDp 3) ∧
    (∃ t, exec (.hardDp 3) { fullWith [] with cmd := 0x00030006, status := { full.status with busy := true } } = .next t) ∧
    exec (.hardDp 3) { State.reset with cmd := 0x00030006, status := { State.reset.status with busy := true } } =
      .fault .unwritten := ⟨rfl, rfl, ⟨_, next_of_isNext (by decide +kernel)⟩, rfl⟩

theorem witness_BlockWaitsWithoutHostAccess : State.reset.pending = [] := rfl

theorem witness_StepCompletesEachEventInOrder : (fullWith [.read ⟨7, 0⟩, .reset]).pending = .read ⟨7, 0⟩ :: [.reset] := rfl

theorem witness_FaultedIsClearedByResetOnly :
    ∃ t, ({ fullWith [.read ⟨0, 1⟩] with faulted := true } : State).faulted = true ∧
      (∀ rest, ({ fullWith [.read ⟨0, 1⟩] with faulted := true } : State).pending ≠ .reset :: rest) ∧
      step { fullWith [.read ⟨0, 1⟩] with faulted := true } = .next t := ⟨_, rfl, by simp [fullWith], rfl⟩

theorem witness_UnwrittenInputRaisesModelFault :
    (3 ≤ full.params.nMax ∧ 2 < 3 ∧ { full with mem := { full.mem with ibuf := buf [true, false] } }.mem.ibuf.read 2 = none) ∧
    (full.status.laValid = true ∧ { full with mem := { full.mem with hobs := buf [sym 0, sym 0] } }.mem.hobs.read 2 = none) ∧
    { full with mem := { full.mem with sobsX := [] } }.mem.sobsX.read 0 = none ∧
    { full with mem := { full.mem with sobsY := buf [1, 1] } }.mem.sobsY.read 2 = none := by decide +kernel

theorem witness_RefusedHostWriteChangesNothing :
    (¬ AdmittedStore referenceEnc full.params ⟨1, 3⟩ (.word 1) ∧ ¬ CommandWrite ⟨1, 3⟩ (.word 1 : HostValue SoftBits)) ∧
    (¬ AdmittedStore referenceEnc full.params ⟨1, 2⟩ (.word 2) ∧ ¬ CommandWrite ⟨1, 2⟩ (.word 2 : HostValue SoftBits)) ∧
    (¬ AdmittedStore referenceEnc full.params ⟨0, 3⟩ (.word 4) ∧ ¬ CommandWrite ⟨0, 3⟩ (.word 4 : HostValue SoftBits)) ∧
    (¬ AdmittedStore referenceEnc full.params ⟨0, 1⟩ (.word 0) ∧ ¬ CommandWrite ⟨0, 1⟩ (.word 0 : HostValue SoftBits)) ∧
    (¬ AdmittedStore referenceEnc full.params ⟨3, 0⟩ (.word 0) ∧ ¬ CommandWrite ⟨3, 0⟩ (.word 0 : HostValue SoftBits)) ∧
    (¬ AdmittedStore referenceEnc full.params ⟨0, 0⟩ (.soft 0) ∧ ¬ CommandWrite ⟨0, 0⟩ (.soft 0 : HostValue SoftBits)) := by
  refine ⟨⟨?_, ?_⟩, ⟨?_, ?_⟩, ⟨?_, ?_⟩, ⟨?_, ?_⟩, ⟨?_, ?_⟩, ?_, ?_⟩ <;> simp [AdmittedStore, CommandWrite, full, resetWith]

/-- The format's premise of `HostWriteStoresTheElement`: the reference format is legal. -/
theorem referenceEnc_legal : referenceEnc.Legal := fun _ _ _ => rfl

theorem witness_HostWriteStoresTheElement :
    AdmittedStore referenceEnc full.params ⟨0, 3⟩ (.word 3) ∧ AdmittedStore referenceEnc full.params ⟨1, 2⟩ (.word 1) ∧
    AdmittedStore referenceEnc full.params ⟨2, 2⟩ (.word 3) ∧ AdmittedStore referenceEnc full.params ⟨3, 2⟩ (.soft (1/2)) ∧
    AdmittedStore referenceEnc full.params ⟨6, 0⟩ (.soft (-3)) := by
  refine ⟨?_, ?_, ?_, ?_, ?_⟩ <;> simp [AdmittedStore, referenceEnc, full, resetWith]

theorem witness_HostReadReturnsTheElement :
    (2#16).toNat < full.params.nMax ∧
    full.mem.ibuf.read 2 = some false ∧ full.mem.hobs.read 2 = some (sym 3) ∧ full.mem.sobsX.read 2 = some 1 ∧
    full.mem.symout.read 2 = some (sym 3) ∧ full.mem.bitout.read 2 = some false ∧ full.mem.sobsY.read 2 = some 1 ∧
    ∀ r : BitVec 3, (fullWith [.read ⟨r, 2⟩]).pending = .read ⟨r, 2⟩ :: [] := by
  refine ⟨by decide, by decide +kernel, by decide +kernel, by decide +kernel, by decide +kernel, by decide +kernel,
    by decide +kernel, fun _ => rfl⟩

theorem witness_HostReadIsAdmittedOrFaults :
    AdmittedRead full ⟨0, 5⟩ ∧ AdmittedRead full ⟨6, 2⟩ ∧ ¬ AdmittedRead full ⟨0, 6⟩ ∧ ¬ AdmittedRead full ⟨6, 3⟩ ∧
    ¬ AdmittedRead full ⟨7, 0⟩ ∧ ¬ AdmittedRead State.reset ⟨5, 0⟩ := by decide +kernel

theorem witness_HostAccessNeverChangesStatus :
    (∃ t, step (fullWith [.read ⟨4, 0⟩]) = .next t) ∧ ¬ CommandWrite ⟨0, 3⟩ (.word 1 : HostValue SoftBits) ∧
    ∃ t, step (fullWith [.write ⟨0, 3⟩ (.word 1)]) = .next t := ⟨⟨_, rfl⟩, by simp [CommandWrite], ⟨_, rfl⟩⟩

theorem witness_ResetInputRestoresResetValues : (fullWith [.reset]).pending = .reset :: [] := rfl

theorem witness_ResetStateMeetsInvariant :
    ({ nMax := 3, genOrder := .g57 } : Params).Legal ∧ ({ nMax := 65535, genOrder := .g75 } : Params).Legal := by decide

theorem full_inv (es : List (Event SoftBits)) : (fullWith es).Inv where
  paramsLegal := (by decide : full.params.Legal)
  memWf := (by decide +kernel : full.mem.wf full.params.nMax)
  notBusy := rfl
  errSticky := by simp [fullWith, full]
  hmetricBound := (by decide : full.hmetric.toNat ≤ 2 * full.params.nMax)
  smetricNonneg := (by decide +kernel : 0 ≤ full.smetric)
  tableBuilt := fun _ => test_laBuild.1.symm
  memoBound := (by decide : full.memo.length ≤ full.params.nMax + 1)

theorem witness_StepKeepsTheInvariant :
    (fullWith [.write ⟨0, 0⟩ (.word 0x00030006)]).Inv ∧ ∃ t, step (fullWith [.write ⟨0, 0⟩ (.word 0x00030006)]) = .next t :=
  ⟨full_inv _, _, rfl⟩

theorem witness_StickyIsClearedByResetOnly :
    (∃ t, (fullWith [.write ⟨0, 0⟩ (.word 0x00040006)]).pending = .write ⟨0, 0⟩ (.word 0x00040006#32) :: [] ∧
      step (fullWith [.write ⟨0, 0⟩ (.word 0x00040006)]) = .next t ∧ t.faulted = false ∧ t.status.err ≠ .ok) ∧
    ∃ s t, s.status.sticky = true ∧ (∀ rest, s.pending ≠ .reset :: rest) ∧ step s = .next t :=
  ⟨⟨_, rfl, rfl, by decide +kernel, by decide +kernel⟩,
    raiseCmdError .length (fullWith [.write ⟨0, 0⟩ (.word 0x00000003)]), _, rfl, by simp [fullWith], rfl⟩

theorem witness_LaValidIsWrittenByLaBuildOnly :
    ∃ t, step (fullWith [.reset]) = .next t ∧ t.status.laValid ≠ (fullWith [.reset]).status.laValid := ⟨_, rfl, by decide⟩

theorem witness_CommandsWriteOnlyTheirOutputs :
    (∃ t, exec (.hardDp 2) full = .next t) ∧ outputsOf (.hardDp 2) ⟨5, 2⟩ = false ∧ outputsOf (.hardDp 2) ⟨0, 5⟩ = false :=
  ⟨⟨_, next_of_isNext (by decide +kernel)⟩, by decide, by decide⟩

theorem witness_CommandsKeepTheOtherState :
    (∃ t, exec .laBuild full = .next t) ∧ (∃ t, exec (.softDp 3) full = .next t) ∧ Instr.softDp 3 ≠ .laBuild :=
  ⟨⟨_, next_of_isNext (by decide +kernel)⟩, ⟨_, next_of_isNext (by decide +kernel)⟩, by decide⟩

theorem witness_CommandErrorsArePrecise :
    ∃ t, exec (.laDecode 4) full = .next t ∧ t.status.err ≠ .ok := ⟨_, rfl, by decide⟩

theorem witness_LengthOutOfRangeRaisesLength :
    full.params.nMax < 4 ∧ (1 < 2 ∨ full.params.nMax < 1) ∧ 3 ≤ full.params.nMax ∧
    (∃ t, exec (.encSeq stateZero 3) full = .next t) ∧ (∃ t, exec (.laDecode 2) full = .next t) ∧
    (∃ t, exec (.hardDp 3) full = .next t) ∧ ∃ t, exec (.softDp 2) full = .next t :=
  ⟨by decide, by decide, by decide, ⟨_, rfl⟩, ⟨_, rfl⟩, ⟨_, next_of_isNext (by decide +kernel)⟩,
    _, next_of_isNext (by decide +kernel)⟩

theorem witness_EncSeqEncodesTheInput :
    [true, false, false].length ≤ full.params.nMax ∧ full.mem.ibuf.Holds [true, false, false] := by decide +kernel

theorem witness_FinalStateIsTheLastTwoBits :
    ∃ t u v, (exec (.encSeq stateZero 3) full = .next t ∧ t.status.err = .ok) ∧
      (exec (.encSeq stateZero 1) full = .next u ∧ u.status.err = .ok) ∧
      exec (.encSeq stateZero 0) full = .next v ∧ v.status.err = .ok := ⟨_, _, _, ⟨rfl, rfl⟩, ⟨rfl, rfl⟩, rfl, rfl⟩

theorem witness_LaLookupReadsTheCell : full.status.laValid = true := rfl

theorem witness_LookAheadNeedsABuiltTable : State.reset.status.laValid = false ∧ 2 ≤ 1024 ∧ 1024 ≤ State.reset.params.nMax := by
  decide

theorem witness_LaDecodeSlidesTheWindow :
    2 ≤ [sym 3, sym 2, sym 3].length ∧ [sym 3, sym 2, sym 3].length ≤ full.params.nMax ∧ full.status.laValid = true ∧
    full.mem.hobs.Holds [sym 3, sym 2, sym 3] := by decide +kernel

/-- The symbols `ENC_SEQ` writes from the input of `full`. -/
theorem symbols_of_full (i : Nat) (y : Sym) (hi : i < 3)
    (hy : (stateOf (exec (.encSeq stateZero 3) full)).mem.symout.read i = some y) :
    i = 0 ∧ y = sym 3 ∨ i = 1 ∧ y = sym 2 ∨ i = 2 ∧ y = sym 3 := by
  have h3 : i = 0 ∨ i = 1 ∨ i = 2 := by omega
  have e : (stateOf (exec (.encSeq stateZero 3) full)).mem.symout = buf [sym 3, sym 2, sym 3] := by decide +kernel
  rw [e] at hy
  rcases h3 with rfl | rfl | rfl
  · exact .inl ⟨rfl, (Option.some.inj hy).symm⟩
  · exact .inr (.inl ⟨rfl, (Option.some.inj hy).symm⟩)
  · exact .inr (.inr ⟨rfl, (Option.some.inj hy).symm⟩)

/-- The hypotheses of `LaDecodeRoundTripsAtZeroNoise`, `HardDpRoundTripsAtZeroNoise` and `SoftDpRoundTripsAtZeroNoise`, with
`full` for both states. -/
theorem witness_RoundTripsAtZeroNoise :
    [true, false, false].length ≤ full.params.nMax ∧ TailForced [true, false, false] ∧
    full.mem.ibuf.Holds [true, false, false] ∧ full.status.laValid = true ∧ full.laTable = builtTable full.params.genOrder ∧
    ∃ t, exec (.encSeq stateZero 3) full = .next t ∧ (∀ i, i < 3 → full.mem.hobs.read i = t.mem.symout.read i) ∧
      ∀ i, i < 3 → ∀ y, t.mem.symout.read i = some y →
        full.mem.sobsX.read i = some (if y.c0 then 1 else -1) ∧ full.mem.sobsY.read i = some (if y.c1 then 1 else -1) := by
  refine ⟨by decide, ⟨[true], rfl⟩, by decide +kernel, rfl, test_laBuild.1.symm, _, rfl, by decide +kernel, ?_⟩
  intro i hi y hy
  rcases symbols_of_full i y hi hy with ⟨rfl, rfl⟩ | ⟨rfl, rfl⟩ | ⟨rfl, rfl⟩ <;> decide +kernel

/-- `full` with noise of 1/2 and of -99/100 on the soft observations. -/
def noisy : State :=
  { full with mem := { full.mem with sobsX := buf [3/2, 3/2, 3/2], sobsY := buf [1/100, -199/100, 1/100] } }

theorem witness_SoftDpCorrectsNoiseBelowOne :
    noisy.params = full.params ∧ ∃ t, exec (.encSeq stateZero 3) full = .next t ∧
      ∀ i, i < 3 → ∀ y, t.mem.symout.read i = some y → ∃ e0 e1 : Soft, -1 < e0 ∧ e0 < 1 ∧ -1 < e1 ∧ e1 < 1 ∧
        noisy.mem.sobsX.read i = some ((point y).1 + e0) ∧ noisy.mem.sobsY.read i = some ((point y).2 + e1) := by
  refine ⟨rfl, _, rfl, ?_⟩
  intro i hi y hy
  refine ⟨1/2, -99/100, by decide +kernel, by decide +kernel, by decide +kernel, by decide +kernel, ?_⟩
  rcases symbols_of_full i y hi hy with ⟨rfl, rfl⟩ | ⟨rfl, rfl⟩ | ⟨rfl, rfl⟩ <;> decide +kernel

theorem witness_RelaxReplacesKeepsOrDraws :
    (emptyColumn Nat).get stateZero = none ∧
    (initialColumn Nat).get stateZero = some ⟨0, stateZero, false⟩ ∧
    (⟨1, stateZero, false⟩ : Entry Nat).cost > 0 ∧ (⟨0, stateZero, true⟩ : Entry Nat).cost = 0 ∧
    ((⟨[true], []⟩ : DrawSource).supplied = true :: [] ∧ (⟨[], [true]⟩ : DrawSource).supplied = []) ∧
    ((initialColumn Nat).set stateZero (some ⟨2, stateZero, false⟩)).get stateZero = some ⟨2, stateZero, false⟩ ∧
    (⟨1, stateZero, false⟩ : Entry Nat).cost < 2 := ⟨rfl, rfl, by decide, rfl, ⟨rfl, rfl⟩, rfl, by decide⟩

/-- A tie of the two predecessors, and a strictly cheaper upper one: both branches of the statement. -/
theorem witness_LowerPredecessorWinsTies :
    let c (a b : Nat) : Column Nat := ⟨some ⟨a, stateZero, false⟩, none, some ⟨b, stateZero, false⟩, none⟩
    (c 1 1).get ⟨false, false⟩ = some ⟨1, stateZero, false⟩ ∧ (c 1 1).get ⟨true, false⟩ = some ⟨1, stateZero, false⟩ ∧
    (c 3 0).get ⟨true, false⟩ = some ⟨0, stateZero, false⟩ := ⟨rfl, rfl, rfl⟩

theorem witness_HardDpFindsTheNearestPath :
    full.params.Legal ∧ 2 ≤ [sym 3, sym 2, sym 3].length ∧ [sym 3, sym 2, sym 3].length ≤ full.params.nMax ∧
    full.mem.hobs.Holds [sym 3, sym 2, sym 3] ∧ endState stateZero [true, false, false] = stateZero := by decide +kernel

/-- Also of `HardMetricIgnoresDraws`, which asks less. -/
theorem witness_HardDpModeZeroIgnoresDraws :
    2 ≤ [sym 3, sym 2, sym 3].length ∧ [sym 3, sym 2, sym 3].length ≤ full.params.nMax ∧
    full.mem.hobs.Holds [sym 3, sym 2, sym 3] ∧ full.config.hardTie = false := by decide +kernel

theorem witness_HardDpTakesDrawsInOrder :
    let s : State := { full with draws := { supplied := List.replicate 12 true, taken := [false] } }
    2 ≤ [sym 3, sym 2, sym 3].length ∧ [sym 3, sym 2, sym 3].length ≤ s.params.nMax ∧
    s.mem.hobs.Holds [sym 3, sym 2, sym 3] ∧ 4 * [sym 3, sym 2, sym 3].length ≤ s.draws.supplied.length := by decide +kernel

/-- A state in the randomized mode whose observations have a tie (95_test_vectors.md §2.7). -/
theorem witness_HardDpResolvesEachTieByOneDraw :
    let s := withBuffers [] [sym 0, sym 0, sym 1, sym 3] [] []
    let tied : State := { s with config := { hardTie := true, laTie := false }, draws := { supplied := [true], taken := [] } }
    2 ≤ [sym 0, sym 0, sym 1, sym 3].length ∧ [sym 0, sym 0, sym 1, sym 3].length ≤ tied.params.nMax ∧
    tied.mem.hobs.Holds [sym 0, sym 0, sym 1, sym 3] ∧ tied.config.hardTie = true ∧
    (survivorPaths .g75 tied.config.hardTie (drawAt tied.draws) bmHard [sym 0, sym 0, sym 1, sym 3]).2 = 1 := by decide +kernel

theorem witness_DecodedTailBitsAreZero :
    ∃ t u v, (exec (.hardDp 2) full = .next t ∧ t.status.err = .ok) ∧ (exec (.softDp 3) full = .next u ∧ u.status.err = .ok) ∧
      exec (.laDecode 2) full = .next v ∧ v.status.err = .ok :=
  ⟨_, _, _, ⟨next_of_isNext (by decide +kernel), by decide +kernel⟩, ⟨next_of_isNext (by decide +kernel), by decide +kernel⟩,
    next_of_isNext (by decide +kernel), by decide +kernel⟩

/-- Also of `SoftDpIgnoresTieModeAndDraws` and `SoftDpKeepsTheLowerSurvivor`. -/
theorem witness_SoftDpFindsTheNearestPath :
    let os : List (Soft × Soft) := [(1, 1), (1, -1), (1, 1)]
    2 ≤ os.length ∧ os.length ≤ full.params.nMax ∧ full.mem.sobsX.Holds (os.map (·.1)) ∧
    full.mem.sobsY.Holds (os.map (·.2)) := by decide +kernel

theorem witness_SoftDpDecodesAllZeroObservations :
    2 ≤ (withBuffers [] [] [0, 0] [0, 0]).params.nMax ∧ ∀ i, i < 2 → (withBuffers [] [] [0, 0] [0, 0]).mem.sobsX.read i = some 0 ∧
      (withBuffers [] [] [0, 0] [0, 0]).mem.sobsY.read i = some 0 := by decide +kernel

theorem witness_SoftBranchMetricIsZeroAtThePoint : bmSoft (point (sym 2) : Soft × Soft) (sym 2) = 0 := by decide +kernel

theorem witness_QuantizeRemovesNoiseBelowOne : (-1 : Soft) < 1/100 * (-99) ∧ (1/100 : Soft) * (-99) < 1 := by decide +kernel

end Sys2Proof.Tests
end

section
/-! SUPPORT. What each command can do, said once, and what that does to the invariant of the block (10_state.md R27, R28,
R31, R42, R43; 20_memory.md R52; 44_soft_viterbi.md R194). -/
namespace Sys2Proof.Machine

variable {S P : Type}

/-! ### What a command can answer

One inversion lemma for each command that has more than one outcome. -/

theorem decodeLengthOk_eq_true_iff (s : Generic.State S P) (len : Nat) :
    decodeLengthOk s len = true ↔ 2 ≤ len ∧ len ≤ s.params.nMax := decide_eq_true_iff

theorem encodeLengthOk_eq_true_iff (s : Generic.State S P) (len : Nat) :
    encodeLengthOk s len = true ↔ len ≤ s.params.nMax := decide_eq_true_iff

/-- A run of elements that reads has the length asked for (10_state.md R40). -/
theorem length_of_readSeq {α : Type} {b : Buf α} {i n : Nat} {vs : List α} (h : b.readSeq i n = some vs) : vs.length = n :=
  ((readSeq_eq_some_iff b i n vs).mp h).1

/-- Every next state of `ENC_SEQ` (40_encoder.md R112). -/
theorem execEncSeq_cases {st : EncState} {len : Nat} {s t : Generic.State S P} (h : execEncSeq st len s = .next t) :
    (encodeLengthOk s len = false ∧ t = raiseCmdError .length s) ∨
    (encodeLengthOk s len = true ∧ ∃ bits, s.mem.ibuf.readSeq 0 len = some bits ∧
      t = complete ((s.writeSymout (encodeFrom s.params.genOrder st bits).2).setFinalState
        (encodeFrom s.params.genOrder st bits).1)) := by
  unfold execEncSeq at h
  split at h
  · rename_i hlen
    split at h
    · cases h
    · rename_i bits hbits
      cases h
      exact .inr ⟨hlen, bits, hbits, rfl⟩
  · rename_i hlen
    cases h
    exact .inl ⟨by simpa using hlen, rfl⟩

/-- Every next state of `LA_BUILD` (42_lookahead.md R134, R137, R138). -/
theorem execLaBuild_cases {s t : Generic.State S P} (h : execLaBuild s = .next t) :
    ((buildTable s.params.genOrder s.config.laTie laCells s.laTable).2 = none ∧
      t = complete (s.setTable (buildTable s.params.genOrder s.config.laTie laCells s.laTable).1 true)) ∨
    ∃ c, (buildTable s.params.genOrder s.config.laTie laCells s.laTable).2 = some c ∧
      t = raiseCmdError c (s.setTable (buildTable s.params.genOrder s.config.laTie laCells s.laTable).1 false) := by
  unfold execLaBuild at h
  split at h
  · rename_i hbuild
    cases h
    exact .inl (by simp [hbuild])
  · rename_i c hbuild
    cases h
    exact .inr ⟨c, by simp [hbuild]⟩

/-- Every next state of `LA_LOOKUP` (42_lookahead.md R145). -/
theorem execLaLookup_cases {st : EncState} {s0 s1 s2 : Sym} {s t : Generic.State S P}
    (h : execLaLookup st s0 s1 s2 s = .next t) :
    (s.status.laValid = true ∧ t = complete (s.setLbit (readTable s.laTable st s0 s1 s2))) ∨
    (s.status.laValid = false ∧ t = raiseCmdError .notBuilt s) := by
  unfold execLaLookup at h
  split at h
  · rename_i hvalid
    cases h
    exact .inl ⟨hvalid, rfl⟩
  · rename_i hvalid
    cases h
    exact .inr ⟨by simpa using hvalid, rfl⟩

/-- Every next state of `LA_DECODE` (42_lookahead.md R150). -/
theorem execLaDecode_cases {len : Nat} {s t : Generic.State S P} (h : execLaDecode len s = .next t) :
    (decodeLengthOk s len = false ∧ t = raiseCmdError .length s) ∨
    (decodeLengthOk s len = true ∧ s.status.laValid = false ∧ t = raiseCmdError .notBuilt s) ∨
    (decodeLengthOk s len = true ∧ s.status.laValid = true ∧ ∃ hs, windowInput s.mem.hobs len = some hs ∧
      t = complete (s.writeBitout (lookupBits s.laTable stateZero hs ++ [false, false]))) := by
  unfold execLaDecode at h
  split at h
  · rename_i hlen
    split at h
    · rename_i hvalid
      split at h
      · cases h
      · rename_i hs hhs
        cases h
        exact .inr (.inr ⟨hlen, hvalid, hs, hhs, rfl⟩)
    · rename_i hvalid
      cases h
      exact .inr (.inl ⟨hlen, by simpa using hvalid, rfl⟩)
  · rename_i hlen
    cases h
    exact .inl ⟨by simpa using hlen, rfl⟩

/-- Every next state of `HARD_DP` (43_hard_viterbi.md R171). -/
theorem execHardDp_cases {len : Nat} {s t : Generic.State S P} (h : execHardDp len s = .next t) :
    (decodeLengthOk s len = false ∧ t = raiseCmdError .length s) ∨
    (decodeLengthOk s len = true ∧ ∃ hs, s.mem.hobs.readSeq 0 len = some hs ∧
      ((bestPath (hardPass s hs).1 = none ∧ t = raiseCmdError .noPath (afterHardPass s hs)) ∨
       ∃ bits cost, bestPath (hardPass s hs).1 = some (bits, cost) ∧
        t = complete (((afterHardPass s hs).writeBitout bits).setHmetric cost))) := by
  unfold execHardDp at h
  split at h
  · rename_i hlen
    split at h
    · cases h
    · rename_i hs hhs
      refine .inr ⟨hlen, hs, hhs, ?_⟩
      split at h
      · rename_i hbest
        cases h
        exact .inl ⟨hbest, rfl⟩
      · rename_i bits cost hbest
        cases h
        exact .inr ⟨bits, cost, hbest, rfl⟩
  · rename_i hlen
    cases h
    exact .inl ⟨by simpa using hlen, rfl⟩

/-- Every next state of `SOFT_DP` (44_soft_viterbi.md R196). -/
theorem execSoftDp_cases [CommRing S] [LinearOrder S] {len : Nat} {s t : Generic.State S P}
    (h : execSoftDp len s = .next t) :
    (decodeLengthOk s len = false ∧ t = raiseCmdError .length s) ∨
    (decodeLengthOk s len = true ∧ ∃ os, readSoftObs s.mem len = some os ∧
      ((bestPath (softPass s os).1 = none ∧ t = raiseCmdError .noPath (afterSoftPass s os)) ∨
       ∃ bits cost, bestPath (softPass s os).1 = some (bits, cost) ∧
        t = complete (((afterSoftPass s os).writeBitout bits).setSmetric cost))) := by
  unfold execSoftDp at h
  split at h
  · rename_i hlen
    split at h
    · cases h
    · rename_i os hos
      refine .inr ⟨hlen, os, hos, ?_⟩
      split at h
      · rename_i hbest
        cases h
        exact .inl ⟨hbest, rfl⟩
      · rename_i bits cost hbest
        cases h
        exact .inr ⟨bits, cost, hbest, rfl⟩
  · rename_i hlen
    cases h
    exact .inl ⟨by simpa using hlen, rfl⟩

/-! ### The lengths of what the decoders read and write -/

/-- One pair for each of the soft observations read (44_soft_viterbi.md R196). -/
theorem length_of_readSoftObs {m : Memory S} {len : Nat} {os : List (S × S)} (h : readSoftObs m len = some os) :
    os.length = len := by
  unfold readSoftObs at h
  split at h
  · rename_i xs ys hxs hys
    cases h
    simp [length_of_readSeq hxs, length_of_readSeq hys]
  · cases h

/-- The windows read every observation, or none when there is no window (42_lookahead.md R150). -/
theorem length_of_windowInput {b : Buf Sym} {len : Nat} {hs : List Sym} (h : windowInput b len = some hs) :
    hs.length = if 3 ≤ len then len else 0 := by
  unfold windowInput at h
  split at h
  · rename_i hlen
    rw [if_pos hlen, length_of_readSeq h]
  · rename_i hlen
    cases h
    rw [if_neg hlen, List.length_nil]

/-- One bit for each window of three symbols (42_lookahead.md R150). -/
@[simp] theorem length_lookupBits (t : LaTable) (st : EncState) (hs : List Sym) :
    (lookupBits t st hs).length = hs.length - 2 := by
  induction hs generalizing st with
  | nil => rfl
  | cons h0 tail ih =>
    match tail with
    | [] => rfl
    | [_] => rfl
    | h1 :: h2 :: rest =>
      rw [lookupBits, List.length_cons, ih]
      simp

@[simp] theorem length_hardPass (s : Generic.State S P) (hs : List Sym) : (hardPass s hs).1.length = hs.length :=
  length_forward ..

@[simp] theorem length_softPass [CommRing S] [LinearOrder S] (s : Generic.State S P) (os : List (S × S)) :
    (softPass s os).1.length = os.length := length_forward ..

/-! ### The costs of a forward pass

A property of costs that each step hands on, from the number of steps done to the next, holds of the cost of the best path. -/

section Costs

variable {κ ω : Type}

/-- Every defined entry of the column has a cost with the property. -/
def CostsMeet (Good : κ → Prop) (c : Column κ) : Prop := ∀ n e, c.get n = some e → Good e.cost

theorem costsMeet_initialColumn [Zero κ] {Good : κ → Prop} (h : Good 0) : CostsMeet Good (initialColumn κ) := by
  rintro ⟨_ | _, _ | _⟩ e he <;> cases he
  exact h

/-- The best path's cost stands in the last column at state 0 (43_hard_viterbi.md R169, R172). -/
theorem cost_of_bestPath {cols : List (Column κ)} {bits : List Bit} {cost : κ} (h : bestPath cols = some (bits, cost)) :
    ∃ last e, cols[cols.length - 1]? = some last ∧ last.get stateZero = some e ∧ e.cost = cost := by
  unfold bestPath at h
  split at h
  · cases h
  · rename_i last older hrev
    split at h
    · cases h
    · rename_i e he
      obtain ⟨bs, -, heq⟩ := Option.map_eq_some_iff.mp h
      cases heq
      have hlast : cols.getLast? = some last := by rw [← List.head?_reverse, hrev, List.head?_cons]
      exact ⟨last, e, by rw [← List.getLast?_eq_getElem?, hlast], he, rfl⟩

variable [Add κ]

/-- The cost of a candidate is the cost of its predecessor and the branch metric (43_hard_viterbi.md R165). -/
theorem candidate_eq_some_iff {g : GenOrder} {metric : Sym → κ} {prev : Column κ} {p : EncState} {b : Bit} {e : Entry κ} :
    candidate g metric prev p b = some e ↔
      ∃ e0, prev.get p = some e0 ∧ e = ⟨e0.cost + metric (outSym g p b), p, b⟩ := by
  simp [candidate, eq_comm]

variable [LinearOrder κ]

/-- Every entry of the next column is a candidate of one of its node's two predecessors (43_hard_viterbi.md R164). -/
theorem exists_candidate_of_advance {g : GenOrder} {rt : Bool} {metric : Sym → κ} {prev : Column κ} {d : DrawSource}
    {n : EncState} {e : Entry κ} (h : (advance g rt metric prev d).1.get n = some e) :
    ∃ older, candidate g metric prev ⟨older, n.first⟩ n.second = some e := by
  rcases advance_cases g rt metric prev d n with ⟨-, hn⟩ | ⟨-, hn⟩ | ⟨e0, e1, h0, h1, ⟨hn, -⟩ | ⟨hn, -⟩⟩
  · exact ⟨true, hn ▸ h⟩
  · exact ⟨false, hn ▸ h⟩
  · exact ⟨false, h0.trans (hn ▸ h)⟩
  · exact ⟨true, h1.trans (hn ▸ h)⟩

theorem costsMeet_advance {Good Good' : κ → Prop} {metric : Sym → κ} (hstep : ∀ x y, Good x → Good' (x + metric y))
    (g : GenOrder) (rt : Bool) {prev : Column κ} (d : DrawSource) (hprev : CostsMeet Good prev) :
    CostsMeet Good' (advance g rt metric prev d).1 := by
  intro n e he
  obtain ⟨older, hcand⟩ := exists_candidate_of_advance he
  obtain ⟨e0, he0, rfl⟩ := candidate_eq_some_iff.mp hcand
  exact hstep _ _ (hprev _ _ he0)

/-- The column at position `i` stands `i + 1` steps after the one the pass starts from (43_hard_viterbi.md R164). -/
theorem costsMeet_forward {Good : Nat → κ → Prop} {metric : ω → Sym → κ}
    (hstep : ∀ k x o y, Good k x → Good (k + 1) (x + metric o y)) (g : GenOrder) (rt : Bool) (os : List ω) (d : DrawSource)
    {k : Nat} {prev : Column κ} (hprev : CostsMeet (Good k) prev) {i : Nat} {c : Column κ}
    (hc : (forward g rt metric os prev d).1[i]? = some c) : CostsMeet (Good (k + i + 1)) c := by
  induction os generalizing k prev d i with
  | nil => simp [forward] at hc
  | cons o os ih =>
    have hnext := costsMeet_advance (fun x y => hstep k x o y) g rt d hprev
    cases i with
    | zero => exact Option.some.inj hc ▸ hnext
    | succ i =>
      rw [show k + (i + 1) + 1 = k + 1 + i + 1 by omega]
      exact ih _ hnext hc

/-- The rule for path costs, by induction on the steps: what holds of 0 and is handed on by each branch metric holds of the best
path's cost. -/
theorem bestPath_forward_cost [Zero κ] {Good : Nat → κ → Prop} {metric : ω → Sym → κ} (hzero : Good 0 0)
    (hstep : ∀ k x o y, Good k x → Good (k + 1) (x + metric o y)) {g : GenOrder} {rt : Bool} {os : List ω} {d : DrawSource}
    {bits : List Bit} {cost : κ} (h : bestPath (forward g rt metric os (initialColumn κ) d).1 = some (bits, cost)) :
    Good os.length cost := by
  obtain ⟨last, e, hlast, he, rfl⟩ := cost_of_bestPath h
  obtain ⟨hpos, -⟩ := List.getElem?_eq_some_iff.mp hlast
  have hgood := costsMeet_forward hstep g rt os d (costsMeet_initialColumn hzero) hlast stateZero e he
  rw [length_forward] at hpos hgood
  rwa [show 0 + (os.length - 1) + 1 = os.length by omega] at hgood

end Costs

/-- A hard branch metric is at most 2, so a path cost is at most 2 for each step (00_scope.md R10, 10_state.md R31). -/
theorem hardPass_cost_le {s : Generic.State S P} {hs : List Sym} {bits : List Bit} {cost : Nat}
    (h : bestPath (hardPass s hs).1 = some (bits, cost)) : cost ≤ 2 * hs.length := by
  refine bestPath_forward_cost (Good := fun k x => x ≤ 2 * k) (Nat.zero_le _) (fun k x o y hx => ?_) h
  have hmetric : bmHard o y ≤ 2 := dist_le_two y o
  omega

/-- A soft branch metric is a sum of squares (44_soft_viterbi.md R190, R194). -/
theorem bmSoft_nonneg [CommRing S] [LinearOrder S] [IsStrictOrderedRing S] (obs : S × S) (y : Sym) : 0 ≤ bmSoft obs y :=
  add_nonneg (mul_self_nonneg _) (mul_self_nonneg _)

theorem softPass_cost_nonneg [CommRing S] [LinearOrder S] [IsStrictOrderedRing S] {s : Generic.State S P} {os : List (S × S)}
    {bits : List Bit} {cost : S} (h : bestPath (softPass s os).1 = some (bits, cost)) : 0 ≤ cost :=
  bestPath_forward_cost (Good := fun _ x => 0 ≤ x) le_rfl (fun _ _ o y hx => add_nonneg hx (bmSoft_nonneg o y)) h

/-! ### A finished build writes the one table of the generator order

`CONFIG.LA_TIE` decides only whether a tie aborts the build: what a build with it writes, one without it writes too. -/

theorem consider_false_of_ok {laTie : Bool} {e : EncState} {d : Nat} {b0 : Bit} {surv surv' : Survivors}
    (h : consider laTie e d b0 surv = .ok surv') : consider false e d b0 surv = .ok surv' := by
  cases laTie with
  | false => exact h
  | true =>
    unfold consider at h ⊢
    split at h
    · exact h
    · rename_i old hold
      by_cases htie : d = old.d
      · simp [htie] at h
      · simpa [htie] using h

theorem survivorsOf_false_of_ok {g : GenOrder} {laTie : Bool} {s : EncState} {r0 r1 r2 : Sym} {hyps : List (Bit × Bit × Bit)}
    {surv surv' : Survivors} (h : survivorsOf g laTie s r0 r1 r2 hyps surv = .ok surv') :
    survivorsOf g false s r0 r1 r2 hyps surv = .ok surv' := by
  induction hyps generalizing surv with
  | nil => exact h
  | cons hyp hyps ih =>
    obtain ⟨b0, b1, b2⟩ := hyp
    simp only [survivorsOf] at h ⊢
    split at h
    · cases h
    · rename_i next hnext
      rw [consider_false_of_ok hnext]
      exact ih h

theorem vote_false_of_ok {laTie : Bool} {surv : Survivors} {v : Bit} (h : vote laTie surv = .ok v) : vote false surv = .ok v := by
  cases laTie with
  | false => exact h
  | true =>
    unfold vote at h ⊢
    by_cases hlow : voteSum surv < 2
    · rwa [if_pos hlow] at h ⊢
    · by_cases hhigh : 2 < voteSum surv
      · rwa [if_neg hlow, if_pos hhigh] at h ⊢
      · rw [if_neg hlow, if_neg hhigh] at h
        cases h

theorem laCell_false_of_ok {g : GenOrder} {laTie : Bool} {s : EncState} {r0 r1 r2 : Sym} {v : Bit}
    (h : laCell g laTie s r0 r1 r2 = .ok v) : laCell g false s r0 r1 r2 = .ok v := by
  unfold laCell at h ⊢
  split at h
  · cases h
  · rename_i surv hsurv
    rw [survivorsOf_false_of_ok hsurv]
    exact vote_false_of_ok h

/-- Where a build finishes, the build without `LA_TIE` finishes, whatever the table it starts from. -/
theorem buildTable_false_finishes {g : GenOrder} {laTie : Bool} {cells : List (EncState × Sym × Sym × Sym)} {t : LaTable}
    (h : (buildTable g laTie cells t).2 = none) (u : LaTable) : (buildTable g false cells u).2 = none := by
  induction cells generalizing t u with
  | nil => rfl
  | cons c cells ih =>
    obtain ⟨s, r0, r1, r2⟩ := c
    simp only [buildTable] at h ⊢
    split at h
    · cases h
    · rename_i v hv
      rw [laCell_false_of_ok hv]
      exact ih h _

/-- A build that finishes leaves the table of the generator order (10_state.md R42, 42_lookahead.md R138). -/
theorem buildTable_eq_builtTable {g : GenOrder} {laTie : Bool} {t : LaTable} (h : (buildTable g laTie laCells t).2 = none) :
    (buildTable g laTie laCells t).1 = builtTable g := by
  refine table_ext fun s r0 r1 r2 => ?_
  have hcell := laCell_false_of_ok (read_buildTable_of_none h (mem_laCells s r0 r1 r2))
  have hbuilt := read_buildTable_of_none (buildTable_false_finishes h 0) (mem_laCells s r0 r1 r2)
  exact Except.ok.inj (hcell.symm.trans hbuilt)

/-! ### The invariant inside a command

While a command runs `BUSY` is set, so the invariant splits into its clauses on the data, which every output keeps, and the two
on `BUSY` and `STICKY`, which the end of the command gives back (10_state.md R27, R28). -/

/-- The clauses of `Generic.State.Inv` on the data, without those on `BUSY` and `STICKY`. -/
structure Generic.State.DataInv [Zero S] [LE S] (s : Generic.State S P) : Prop where
  paramsLegal : s.params.Legal
  memWf : s.mem.wf s.params.nMax
  hmetricBound : s.hmetric.toNat ≤ 2 * s.params.nMax
  smetricNonneg : 0 ≤ s.smetric
  tableBuilt : s.status.laValid = true → s.laTable = builtTable s.params.genOrder
  memoBound : s.memo.length ≤ s.params.nMax + 1

section Outputs

variable [Zero S] [LE S] {s : Generic.State S P}

theorem dataInv_beginCommand (h : s.Inv) (w : Word) : (beginCommand w s).DataInv := { h with }

theorem inv_complete (h : s.DataInv) : (complete s).Inv :=
  { h with notBusy := rfl, errSticky := fun hne => absurd rfl hne }

theorem inv_raiseCmdError (h : s.DataInv) (c : ErrCode) : (raiseCmdError c s).Inv :=
  { h with notBusy := rfl, errSticky := fun _ => rfl }

theorem inv_markFaulted (h : s.Inv) : (markFaulted s).Inv := { h with }

theorem dataInv_setTransition (h : s.DataInv) (n : EncState) (y : Sym) : (s.setTransition n y).DataInv := { h with }

theorem dataInv_setFinalState (h : s.DataInv) (n : EncState) : (s.setFinalState n).DataInv := { h with }

theorem dataInv_setLbit (h : s.DataInv) (b : Bit) : (s.setLbit b).DataInv := { h with }

theorem dataInv_setDraws (h : s.DataInv) (d : DrawSource) : (s.setDraws d).DataInv := { h with }

theorem dataInv_writeSymout (h : s.DataInv) {ys : List Sym} (hys : ys.length ≤ s.params.nMax) : (s.writeSymout ys).DataInv :=
  { h with memWf := memory_wf_symout h.memWf hys }

theorem dataInv_writeBitout (h : s.DataInv) {bs : List Bit} (hbs : bs.length ≤ s.params.nMax) : (s.writeBitout bs).DataInv :=
  { h with memWf := memory_wf_bitout h.memWf hbs }

theorem dataInv_setTable (h : s.DataInv) {t : LaTable} {valid : Bool} (ht : valid = true → t = builtTable s.params.genOrder) :
    (s.setTable t valid).DataInv :=
  { h with tableBuilt := ht }

theorem dataInv_storeMemo (h : s.DataInv) {cols : List (Column (Cost S))} (hcols : cols.length ≤ s.params.nMax + 1) :
    (s.storeMemo cols).DataInv := by
  refine { h with memoBound := ?_ }
  have hmemo := h.memoBound
  simp only [storeMemo_memo, storeMemo_params, List.length_append, List.length_drop]
  omega

/-- The 32 bits of `HMETRIC` hold no more than the cost itself (log 16). -/
theorem dataInv_setHmetric (h : s.DataInv) {n : Nat} (hn : n ≤ 2 * s.params.nMax) : (s.setHmetric n).DataInv :=
  { h with hmetricBound := (BitVec.toNat_ofNat .. ▸ Nat.mod_le ..).trans hn }

theorem dataInv_setSmetric (h : s.DataInv) {x : S} (hx : 0 ≤ x) : (s.setSmetric x).DataInv := { h with smetricNonneg := hx }

end Outputs

/-- Reset gives every clause its reset value; the parameters stay (10_state.md R46). -/
theorem inv_resetWith [Zero S] [Preorder S] {p : Params} (h : p.Legal) : (resetWith p : Generic.State S P).Inv where
  paramsLegal := h
  memWf := memory_wf_atReset p.nMax
  notBusy := rfl
  errSticky := fun hne => absurd rfl hne
  hmetricBound := Nat.zero_le _
  smetricNonneg := le_rfl
  tableBuilt := fun hvalid => by cases hvalid
  memoBound := Nat.zero_le _

theorem inv_applyReset [Zero S] [Preorder S] {s : Generic.State S P} (h : s.Inv) : (applyReset s).Inv :=
  { inv_resetWith (S := S) (P := P) h.paramsLegal with }

/-! ### Every command ends in the invariant -/

section Commands

variable {s t : Generic.State S P}

section AnyCosts

variable [Zero S] [LE S]

theorem inv_of_execEncStep (h : s.DataInv) {st : EncState} {b : Bit} (ht : execEncStep st b s = .next t) : t.Inv := by
  cases ht
  exact inv_complete (dataInv_setTransition h _ _)

theorem inv_of_execEncSeq (h : s.DataInv) {st : EncState} {len : Nat} (ht : execEncSeq st len s = .next t) : t.Inv := by
  rcases execEncSeq_cases ht with ⟨-, rfl⟩ | ⟨hlen, bits, hbits, rfl⟩
  · exact inv_raiseCmdError h _
  · have hsyms : (encodeFrom s.params.genOrder st bits).2.length ≤ s.params.nMax := by
      rw [length_encodeFrom, length_of_readSeq hbits]
      exact (encodeLengthOk_eq_true_iff s len).mp hlen
    exact inv_complete (dataInv_setFinalState (dataInv_writeSymout h hsyms) _)

theorem inv_of_execLaBuild (h : s.DataInv) (ht : execLaBuild s = .next t) : t.Inv := by
  rcases execLaBuild_cases ht with ⟨hnone, rfl⟩ | ⟨c, -, rfl⟩
  · exact inv_complete (dataInv_setTable h fun _ => buildTable_eq_builtTable hnone)
  · exact inv_raiseCmdError (dataInv_setTable (valid := false) h nofun) c

theorem inv_of_execLaLookup (h : s.DataInv) {st : EncState} {s0 s1 s2 : Sym} (ht : execLaLookup st s0 s1 s2 s = .next t) :
    t.Inv := by
  rcases execLaLookup_cases ht with ⟨-, rfl⟩ | ⟨-, rfl⟩
  · exact inv_complete (dataInv_setLbit h _)
  · exact inv_raiseCmdError h _

theorem inv_of_execLaDecode (h : s.DataInv) {len : Nat} (ht : execLaDecode len s = .next t) : t.Inv := by
  rcases execLaDecode_cases ht with ⟨-, rfl⟩ | ⟨-, -, rfl⟩ | ⟨hlen, -, hs, hhs, rfl⟩
  · exact inv_raiseCmdError h _
  · exact inv_raiseCmdError h _
  · obtain ⟨hlow, hhigh⟩ := (decodeLengthOk_eq_true_iff s len).mp hlen
    have hbits : (lookupBits s.laTable stateZero hs ++ [false, false]).length ≤ s.params.nMax := by
      simp only [List.length_append, length_lookupBits, length_of_windowInput hhs, List.length_cons, List.length_nil]
      split <;> omega
    exact inv_complete (dataInv_writeBitout h hbits)

theorem dataInv_afterHardPass (h : s.DataInv) {hs : List Sym} (hlen : hs.length ≤ s.params.nMax) :
    (afterHardPass s hs).DataInv :=
  dataInv_setDraws (dataInv_storeMemo h (by simpa using hlen)) _

theorem inv_of_execHardDp (h : s.DataInv) {len : Nat} (ht : execHardDp len s = .next t) : t.Inv := by
  rcases execHardDp_cases ht with ⟨-, rfl⟩ | ⟨hok, hs, hhs, hend⟩
  · exact inv_raiseCmdError h _
  · have hlen : hs.length ≤ s.params.nMax := length_of_readSeq hhs ▸ ((decodeLengthOk_eq_true_iff s len).mp hok).2
    have hpass := dataInv_afterHardPass h hlen
    rcases hend with ⟨-, rfl⟩ | ⟨bits, cost, hbest, rfl⟩
    · exact inv_raiseCmdError hpass _
    · have hbits : bits.length ≤ s.params.nMax := by rwa [bestPath_length hbest, length_hardPass]
      have hcost : cost ≤ 2 * s.params.nMax := (hardPass_cost_le hbest).trans (Nat.mul_le_mul_left 2 hlen)
      exact inv_complete (dataInv_setHmetric (dataInv_writeBitout hpass hbits) hcost)

end AnyCosts

variable [CommRing S] [LinearOrder S]

theorem dataInv_afterSoftPass (h : s.DataInv) {os : List (S × S)} (hlen : os.length ≤ s.params.nMax) :
    (afterSoftPass s os).DataInv :=
  dataInv_storeMemo h (by simpa using hlen)

theorem inv_of_execSoftDp [IsStrictOrderedRing S] (h : s.DataInv) {len : Nat} (ht : execSoftDp len s = .next t) : t.Inv := by
  rcases execSoftDp_cases ht with ⟨-, rfl⟩ | ⟨hok, os, hos, hend⟩
  · exact inv_raiseCmdError h _
  · have hlen : os.length ≤ s.params.nMax := length_of_readSoftObs hos ▸ ((decodeLengthOk_eq_true_iff s len).mp hok).2
    have hpass := dataInv_afterSoftPass h hlen
    rcases hend with ⟨-, rfl⟩ | ⟨bits, cost, hbest, rfl⟩
    · exact inv_raiseCmdError hpass _
    · have hbits : bits.length ≤ s.params.nMax := by rwa [bestPath_length hbest, length_softPass]
      exact inv_complete (dataInv_setSmetric (dataInv_writeBitout hpass hbits) (softPass_cost_nonneg hbest))

/-- From a state whose data meet the invariant, whatever `BUSY` is, every command that answers ends in the invariant. -/
theorem inv_of_execOf [IsStrictOrderedRing S] (h : s.DataInv) {i : Instr} (ht : execOf i s = .next t) : t.Inv := by
  cases i with
  | encStep st b => exact inv_of_execEncStep h ht
  | encSeq st len => exact inv_of_execEncSeq h ht
  | laBuild => exact inv_of_execLaBuild h ht
  | laLookup st s0 s1 s2 => exact inv_of_execLaLookup h ht
  | laDecode len => exact inv_of_execLaDecode h ht
  | hardDp len => exact inv_of_execHardDp h ht
  | softDp len => exact inv_of_execSoftDp h ht

end Commands

/-! ### Every event of the host keeps the invariant -/

section Events

variable [CommRing S] [LinearOrder S] {enc : SoftEnc S P} {s t : Generic.State S P}

theorem inv_of_issue [IsStrictOrderedRing S] (h : s.Inv) {w : Word} (ht : issue execOf w s = .next t) : t.Inv := by
  rcases issue_cases ht with ⟨i, -, hrun | ⟨-, rfl⟩⟩ | ⟨-, rfl⟩
  · exact inv_of_execOf (dataInv_beginCommand h w) hrun
  · exact inv_markFaulted { h with }
  · exact inv_raiseCmdError (dataInv_beginCommand h w) _

theorem inv_of_hostRead (h : s.Inv) {a : Addr} (ht : absorbFault { s with readData := none } (hostRead enc a s) = .next t) :
    t.Inv := by
  rcases hostRead_cases enc a s with ⟨v, -, hread⟩ | ⟨-, hread⟩ <;> rw [hread] at ht <;> cases ht
  · exact { h with }
  · exact inv_markFaulted { h with }

theorem inv_of_hostWrite (h : s.Inv) {a : Addr} {v : HostValue P} (ht : absorbFault s (hostWrite enc a v s) = .next t) :
    t.Inv := by
  rcases hostWrite_cases enc a v s with ⟨u, hu, hwrite⟩ | ⟨-, hwrite⟩ <;> rw [hwrite] at ht <;> cases ht
  · obtain ⟨hframe, -, -, hwf⟩ := hostWritten_frame hu
    rw [hframe]
    exact { h with memWf := hwf h.memWf }
  · exact inv_markFaulted h

theorem inv_of_runEvent [IsStrictOrderedRing S] (h : s.Inv) {e : Event P} (ht : runEvent execOf enc e s = .next t) : t.Inv := by
  cases e with
  | read a => exact inv_of_hostRead h ht
  | write a v =>
    simp only [runEvent] at ht
    split at ht
    · exact inv_of_issue h ht
    · exact inv_of_hostWrite h ht
  | reset =>
    cases ht
    exact inv_applyReset h

theorem inv_of_stepOf [IsStrictOrderedRing S] (h : s.Inv) (ht : stepOf enc s = .next t) : t.Inv := by
  cases hp : s.pending with
  | nil =>
    have hwait : stepOf enc s = .next s := by simp [stepOf, stepWith, nextEvent, hp]
    cases hwait.symm.trans ht
    exact h
  | cons e rest =>
    rw [stepOf, stepWith_cons execOf enc hp] at ht
    exact inv_of_runEvent (s := { s with pending := rest }) { h with } ht

end Events

/-! ### The fixed names are the machine over every soft domain at the rationals (log 6) -/

theorem exec_eq_execOf (i : Instr) (s : State) : exec i s = execOf i s := by cases i <;> rfl

theorem step_eq_stepOf (s : State) : step s = stepOf referenceEnc s := by
  have hexec : exec = execOf := funext fun i => funext (exec_eq_execOf i)
  rw [step, hexec]
  rfl

/-! ### The obligations -/

/-- Settles O20: each command hands on the data clauses of the invariant and ends by clearing `BUSY`, and `step` is `stepOf` at
the rationals. -/
theorem stepKeepsTheInvariant : Obligations.StepKeepsTheInvariant := by
  refine ⟨fun s t h ht => ?_, fun S P _ _ _ enc s t h ht => inv_of_stepOf h ht⟩
  rw [step_eq_stepOf] at ht
  exact inv_of_stepOf h ht

/-- Settles O53, command by command. -/
theorem referenceMachineIsAnInstance : Obligations.ReferenceMachineIsAnInstance :=
  ⟨exec_eq_execOf, step_eq_stepOf, ⟨rfl, by decide⟩, fun _ _ _ => rfl⟩

end Sys2Proof.Machine
end

section
/-! SUPPORT. What one step can do, said once, and what follows for the state: `STATUS` under host accesses, `STICKY`, `LA_VALID`,
the frame of the commands, unwritten inputs, the register words and the reset values (10_state.md R24 to R46). -/
namespace Sys2Proof.Machine

variable {S P : Type}

/-! ### One step -/

/-- A host read changes the model's `readData` and `faulted` only (20_memory.md R53, R57). -/
theorem hostRead_frame {enc : SoftEnc S P} {a : Addr} {s t : Generic.State S P}
    (h : absorbFault { s with readData := none } (hostRead enc a s) = .next t) :
    t = { s with readData := t.readData, faulted := t.faulted } := by
  rcases hostRead_cases enc a s with ⟨v, -, hread⟩ | ⟨-, hread⟩ <;> rw [hread] at h <;> cases h <;> rfl

/-- A host write other than of `CMD` changes `CONFIG`, the memory and `faulted` only (20_memory.md R54, R57). -/
theorem hostWrite_frame {enc : SoftEnc S P} {a : Addr} {v : HostValue P} {s t : Generic.State S P}
    (h : absorbFault s (hostWrite enc a v s) = .next t) :
    t = { s with config := t.config, mem := t.mem, faulted := t.faulted } := by
  rcases hostWrite_cases enc a v s with ⟨u, hu, hwrite⟩ | ⟨-, hwrite⟩ <;> rw [hwrite] at h <;> cases h
  · rw [(hostWritten_frame hu).1]
  · rfl

/-- A step with a command word next issues it (30_encoding.md R76). -/
theorem stepWith_command [Zero S] (run : Meaning S P) (enc : SoftEnc S P) {s : Generic.State S P} {w : Word}
    {rest : List (Event P)} (h : s.pending = .write cmdAddr (.word w) :: rest) :
    stepWith run enc s = issue run w { s with pending := rest } := stepWith_cons run enc h

/-- Everything one step can do: wait, reset, issue a command word, or perform another host access (20_memory.md R53, R54;
70_reset_and_hazards.md R240). -/
theorem stepWith_cases [Zero S] {run : Meaning S P} {enc : SoftEnc S P} {s t : Generic.State S P}
    (h : stepWith run enc s = .next t) :
    (s.pending = [] ∧ t = s) ∨
    (∃ rest, s.pending = .reset :: rest ∧ t = applyReset { s with pending := rest }) ∨
    (∃ w rest, s.pending = .write cmdAddr (.word w) :: rest ∧ issue run w { s with pending := rest } = .next t) ∨
    (∃ e rest, s.pending = e :: rest ∧ (∀ w, e ≠ .write cmdAddr (.word w)) ∧
      t = { s with pending := rest, config := t.config, mem := t.mem, readData := t.readData, faulted := t.faulted }) := by
  cases hp : s.pending with
  | nil => exact .inl ⟨rfl, by simpa [stepWith, nextEvent, hp] using h.symm⟩
  | cons e rest =>
    rw [stepWith_cons run enc hp] at h
    cases e with
    | reset =>
      cases h
      exact .inr (.inl ⟨rest, rfl, rfl⟩)
    | read a =>
      refine .inr (.inr (.inr ⟨_, rest, rfl, nofun, ?_⟩))
      rw [hostRead_frame h]
    | write a v =>
      simp only [runEvent] at h
      cases hw : commandWord a v with
      | some w =>
        obtain ⟨rfl, rfl⟩ := (commandWord_eq_some_iff a v w).mp hw
        rw [hw] at h
        exact .inr (.inr (.inl ⟨w, rest, rfl, h⟩))
      | none =>
        rw [hw] at h
        refine .inr (.inr (.inr ⟨_, rest, rfl, fun w hcmd => ?_, ?_⟩))
        · cases hcmd
          simp [commandWord] at hw
        · rw [hostWrite_frame h]

/-- Settles O16: an access that is no command word leaves `STATUS` out of what it may change. -/
theorem hostAccessNeverChangesStatus : Obligations.HostAccessNeverChangesStatus := by
  intro s t rest a v haccess ht
  rcases stepWith_cases ht with ⟨-, rfl⟩ | ⟨rest', hp, -⟩ | ⟨w, rest', hp, -⟩ | ⟨e, rest', -, -, hframe⟩
  · rfl
  · simp [hp] at haccess
  · rcases haccess with hread | ⟨hwrite, hnot⟩
    · cases hp.symm.trans hread
    · cases hp.symm.trans hwrite
      exact absurd ⟨rfl, w, rfl⟩ hnot
  · rw [hframe]

/-! ### The frame of the commands (10_state.md R26, R29, R44, R45) -/

/-- Settles O24, command by command, from what each can answer. -/
theorem commandsKeepTheOtherState : Obligations.CommandsKeepTheOtherState := by
  intro i s t h
  rw [exec_eq_execOf] at h
  cases i with
  | encStep st b =>
    cases h
    simp
  | encSeq st len => rcases execEncSeq_cases h with ⟨-, rfl⟩ | ⟨-, bits, -, rfl⟩ <;> simp
  | laBuild => rcases execLaBuild_cases h with ⟨-, rfl⟩ | ⟨c, -, rfl⟩ <;> simp
  | laLookup st s0 s1 s2 => rcases execLaLookup_cases h with ⟨-, rfl⟩ | ⟨-, rfl⟩ <;> simp
  | laDecode len => rcases execLaDecode_cases h with ⟨-, rfl⟩ | ⟨-, -, rfl⟩ | ⟨-, -, hs, -, rfl⟩ <;> simp
  | hardDp len =>
    rcases execHardDp_cases h with ⟨-, rfl⟩ | ⟨-, hs, -, ⟨-, rfl⟩ | ⟨bits, cost, -, rfl⟩⟩ <;> simp
  | softDp len =>
    rcases execSoftDp_cases h with ⟨-, rfl⟩ | ⟨-, os, -, ⟨-, rfl⟩ | ⟨bits, cost, -, rfl⟩⟩ <;> simp

/-! ### `STICKY` (10_state.md R27) -/

/-- A command ends with `STICKY` set, or without error and with `STICKY` as it was. -/
theorem sticky_of_execOf [CommRing S] [LinearOrder S] {i : Instr} {s t : Generic.State S P} (h : execOf i s = .next t) :
    t.status.sticky = true ∨ t.status.err = .ok ∧ t.status.sticky = s.status.sticky := by
  cases i with
  | encStep st b =>
    cases h
    simp
  | encSeq st len => rcases execEncSeq_cases h with ⟨-, rfl⟩ | ⟨-, bits, -, rfl⟩ <;> simp
  | laBuild => rcases execLaBuild_cases h with ⟨-, rfl⟩ | ⟨c, -, rfl⟩ <;> simp
  | laLookup st s0 s1 s2 => rcases execLaLookup_cases h with ⟨-, rfl⟩ | ⟨-, rfl⟩ <;> simp
  | laDecode len => rcases execLaDecode_cases h with ⟨-, rfl⟩ | ⟨-, -, rfl⟩ | ⟨-, -, hs, -, rfl⟩ <;> simp
  | hardDp len =>
    rcases execHardDp_cases h with ⟨-, rfl⟩ | ⟨-, hs, -, ⟨-, rfl⟩ | ⟨bits, cost, -, rfl⟩⟩ <;> simp
  | softDp len =>
    rcases execSoftDp_cases h with ⟨-, rfl⟩ | ⟨-, os, -, ⟨-, rfl⟩ | ⟨bits, cost, -, rfl⟩⟩ <;> simp

/-- Issuing a word ends with `STICKY` set, or with `STICKY` as it was and either no error or the run marked faulted. -/
theorem sticky_of_issue [CommRing S] [LinearOrder S] {w : Word} {s t : Generic.State S P} (h : issue execOf w s = .next t) :
    t.status.sticky = true ∨ (t.status.err = .ok ∨ t.faulted = true) ∧ t.status.sticky = s.status.sticky := by
  rcases issue_cases h with ⟨i, -, hrun | ⟨-, rfl⟩⟩ | ⟨-, rfl⟩
  · exact (sticky_of_execOf hrun).imp_right fun ⟨herr, hsticky⟩ => ⟨.inl herr, hsticky⟩
  · exact .inr ⟨.inr rfl, rfl⟩
  · exact .inl rfl

/-- Settles O21, from what issuing a word does to `STICKY`; a step that neither resets nor issues leaves `STATUS` alone. -/
theorem stickyIsClearedByResetOnly : Obligations.StickyIsClearedByResetOnly := by
  refine ⟨fun s t rest w hp ht hfaulted herr => ?_, fun s t hset hreset ht => ?_⟩
  · rw [step_eq_stepOf, stepOf, stepWith_command execOf referenceEnc hp] at ht
    rcases sticky_of_issue ht with hsticky | ⟨hok | hfault, -⟩
    · exact hsticky
    · exact absurd hok herr
    · simp [hfaulted] at hfault
  · rw [step_eq_stepOf] at ht
    rcases stepWith_cases ht with ⟨-, rfl⟩ | ⟨rest, hp, -⟩ | ⟨w, rest, -, hissue⟩ | ⟨e, rest, -, -, hframe⟩
    · exact hset
    · exact absurd hp (hreset rest)
    · exact (sticky_of_issue hissue).elim id fun ⟨_, hkeep⟩ => hkeep.trans hset
    · rw [hframe]
      exact hset

/-! ### `LA_VALID` (10_state.md R26) -/

/-- A word is the assembly of its fields (30_encoding.md R70). -/
theorem wordOf_fieldsOf (w : Word) : wordOf (fieldsOf w) = w := by
  simp only [wordOf, fieldsOf]
  iterate 8 rw [BitVec.extractLsb'_append_extractLsb'_eq_extractLsb' (by rfl)]
  exact BitVec.extractLsb'_eq_self

/-- Every way a word decodes (30_encoding.md R77). -/
theorem decode_cases {w : Word} {i : Instr} (h : decode w = .ok i) :
    ∃ o, Opcode.ofBits (fieldsOf w).opc = some o ∧ (fieldsOf w).rsv15 = 0 ∧ (fieldsOf w).rsv7 = 0 ∧
      unusedFieldsZero o (fieldsOf w) = true ∧ i = instrOf (fieldsOf w) o := by
  unfold decode at h
  split at h
  · cases h
  · rename_i o ho
    split_ifs at h with hrsv hunused
    cases h
    obtain ⟨hrsv15, hrsv7⟩ : (fieldsOf w).rsv15 = 0 ∧ (fieldsOf w).rsv7 = 0 := by simpa using hrsv
    exact ⟨o, ho, hrsv15, hrsv7, hunused, rfl⟩

/-- An opcode's number is the field it is read from (R75). -/
theorem eq_toBits_of_ofBits {v : BitVec 4} {o : Opcode} (h : Opcode.ofBits v = some o) : v = o.toBits := by
  revert v
  cases o <;> decide

/-- One word means `LA_BUILD`: every field but the opcode is reserved or unused (30_encoding.md R74, R75). -/
theorem eq_laBuildWord_of_decode {w : Word} (h : decode w = .ok .laBuild) : w = 0x00000003#32 := by
  obtain ⟨o, hopc, hrsv15, hrsv7, hunused, hinstr⟩ := decode_cases h
  have ho : o = .laBuild := by
    cases o with
    | laBuild => rfl
    | _ => cases hinstr
  subst ho
  have hopcode := eq_toBits_of_ofBits hopc
  have hfields : fieldsOf w = CmdFields.ofOpcode .laBuild := by
    generalize fieldsOf w = f at hopcode hrsv15 hrsv7 hunused
    cases f
    simp_all [unusedFieldsZero, Opcode.usesLen, Opcode.usesSyms, Opcode.usesB, Opcode.usesSt, CmdFields.ofOpcode]
  rw [← wordOf_fieldsOf w, hfields]
  rfl

/-- Settles O22: the frame of the commands leaves only `LA_BUILD`, and one word means it. -/
theorem laValidIsWrittenByLaBuildOnly : Obligations.LaValidIsWrittenByLaBuildOnly := by
  intro s t ht hne
  rcases stepWith_cases ht with ⟨-, rfl⟩ | ⟨rest, hp, -⟩ | ⟨w, rest, hp, hissue⟩ | ⟨e, rest, -, -, hframe⟩
  · exact absurd rfl hne
  · exact .inl ⟨rest, hp⟩
  · rcases issue_cases hissue with ⟨i, hi, hrun | ⟨-, rfl⟩⟩ | ⟨-, rfl⟩
    · obtain ⟨-, -, -, -, -, -, -, -, hvalid, -⟩ := commandsKeepTheOtherState _ _ _ hrun
      have hbuild : i = .laBuild := by
        by_contra hother
        exact hne (hvalid hother).2
      exact .inr ⟨rest, eq_laBuildWord_of_decode (hbuild ▸ hi) ▸ hp⟩
    · exact absurd rfl hne
    · exact absurd rfl hne
  · exact absurd (by rw [hframe]) hne

/-! ### Unwritten inputs (10_state.md R40) -/

/-- A run with an unwritten element does not read. -/
theorem readSeq_eq_none_of_read {α : Type} {b : Buf α} {k n : Nat} (hk : k < n) (h : b.read k = none) :
    b.readSeq 0 n = none := (readSeq_eq_none_iff b 0 n).mpr ⟨k, hk, by rwa [Nat.zero_add]⟩

theorem readSoftObs_eq_none_of_read {m : Memory S} {k n : Nat} (hk : k < n)
    (h : m.sobsX.read k = none ∨ m.sobsY.read k = none) : readSoftObs m n = none := by
  unfold readSoftObs
  rcases h with hx | hy
  · rw [readSeq_eq_none_of_read hk hx]
  · rw [readSeq_eq_none_of_read hk hy]
    cases m.sobsX.readSeq 0 n <;> rfl

/-- Settles O10: past the checks of the length and of the table, a run with an unwritten element stops the command. -/
theorem unwrittenInputRaisesModelFault : Obligations.UnwrittenInputRaisesModelFault := by
  refine ⟨fun s st len k hmax hk hread => ?_, fun s len k hmin hmax hvalid hk hread => ?_,
    fun s len k hmin hmax hk hread => ?_, fun s len k hmin hmax hk hread => ?_⟩ <;> rw [exec_eq_execOf]
  · simp [execOf, execEncSeq, (encodeLengthOk_eq_true_iff s len).mpr hmax, readSeq_eq_none_of_read hk hread]
  · simp [execOf, execLaDecode, (decodeLengthOk_eq_true_iff s len).mpr ⟨by omega, hmax⟩, hvalid, windowInput, hmin,
      readSeq_eq_none_of_read hk hread]
  · simp [execOf, execHardDp, (decodeLengthOk_eq_true_iff s len).mpr ⟨hmin, hmax⟩, readSeq_eq_none_of_read hk hread]
  · simp [execOf, execSoftDp, (decodeLengthOk_eq_true_iff s len).mpr ⟨hmin, hmax⟩, readSoftObs_eq_none_of_read hk hread]

/-! ### The register words (10_state.md R24, R29, R30) -/

/-- A concatenation as a number: the high part counts from the width of the low part. -/
theorem toNat_append_eq_add {m n : Nat} (x : BitVec m) (y : BitVec n) : (x ++ y).toNat = 2 ^ n * x.toNat + y.toNat := by
  rw [BitVec.toNat_append, ← Nat.shiftLeft_add_eq_or_of_lt y.isLt, Nat.shiftLeft_eq, Nat.mul_comm]

theorem toNat_toBits_state (s : EncState) : s.toBits.toNat = stateNumber s := by
  rw [EncState.toBits, toNat_append_eq_add]
  simp [stateNumber]

theorem toNat_toBits_sym (y : Sym) : y.toBits.toNat = symNumber y := by
  rw [Sym.toBits, toNat_append_eq_add]
  simp [symNumber]

theorem toNat_toWord_status (t : Status) :
    t.toWord.toNat = t.err.toBits.toNat + 16 * t.laValid.toNat + 32 * t.sticky.toNat + 64 * t.busy.toNat := by
  rw [Status.toWord]
  iterate 4 rw [toNat_append_eq_add]
  simp only [Nat.reducePow, pow_one, BitVec.toNat_ofNat, Nat.zero_mod, mul_zero, BitVec.toNat_ofBool, zero_add]
  omega

theorem toNat_toWord_result (r : Result) :
    r.toWord.toNat = stateNumber r.nextState + 4 * symNumber r.symbol + 16 * stateNumber r.finalState + 64 * r.lbit.toNat := by
  rw [Result.toWord]
  iterate 4 rw [toNat_append_eq_add]
  simp only [Nat.reducePow, pow_one, BitVec.toNat_ofNat, Nat.zero_mod, mul_zero, BitVec.toNat_ofBool, zero_add,
    toNat_toBits_state, toNat_toBits_sym]
  omega

theorem toNat_toWord_config (c : ConfigReg) : c.toWord.toNat = c.hardTie.toNat + 2 * c.laTie.toNat := by
  rw [ConfigReg.toWord]
  iterate 2 rw [toNat_append_eq_add]
  simp only [Nat.reducePow, pow_one, BitVec.toNat_ofNat, Nat.zero_mod, mul_zero, BitVec.toNat_ofBool, zero_add]
  omega

/-- Settles O15: each register word is a concatenation of its fields, read as a number. -/
theorem registerWordsFollowTheLayout : Obligations.RegisterWordsFollowTheLayout := by
  intro S P _ _ _ enc s
  refine ⟨rfl, ⟨_, rfl, ?_⟩, ⟨_, rfl, toNat_toWord_result s.result⟩, ⟨_, rfl, toNat_toWord_config s.config⟩, rfl, rfl⟩
  rw [toNat_toWord_status]
  cases s.status.err <;> rfl

/-! ### Reset (10_state.md R46) -/

theorem elementWritten_atReset (a : Addr) : elementWritten (Memory.atReset : Memory S) a = false := by
  unfold elementWritten
  split <;> rfl

theorem toWord_atReset : Status.atReset.toWord = 0#32 ∧ Result.atReset.toWord = 0#32 ∧
    ConfigReg.toWord { hardTie := false, laTie := false } = 0#32 := by decide

/-- Settles O17, register by register; no buffer lists an element. -/
theorem resetValuesOfTheSpec : Obligations.ResetValuesOfTheSpec := by
  intro S P _ _ _ enc p
  obtain ⟨hstatus, hresult, hconfig⟩ := toWord_atReset
  exact ⟨rfl, congrArg (some ∘ HostValue.word) hstatus, congrArg (some ∘ HostValue.word) hresult,
    congrArg (some ∘ HostValue.word) hconfig, rfl, rfl, rfl, elementWritten_atReset⟩

/-- Settles O19: every clause has its reset value, and the parameters the model carries are legal. -/
theorem resetStateMeetsInvariant : Obligations.ResetStateMeetsInvariant :=
  ⟨fun _ _ _ _ _ _ hp => inv_resetWith hp, inv_resetWith (by decide)⟩

end Sys2Proof.Machine
end

section
/-! SUPPORT. The memo and its traceback against the survivor paths told without a memo (43_hard_viterbi.md R163 to R170,
44_soft_viterbi.md R195), for costs of every kind, and `HARD_DP` under both tie modes. -/
namespace Sys2Proof.Machine

variable {S P : Type}

/-! ### What a memo tells of the survivors -/

section Survivors

variable {κ ω : Type}

theorem optionRel_cases {β γ : Type} {R : β → γ → Prop} {x : Option β} {y : Option γ} (h : Option.Rel R x y) :
    (x = none ∧ y = none) ∨ ∃ a b, x = some a ∧ y = some b ∧ R a b := by
  cases h with
  | none => exact .inl ⟨rfl, rfl⟩
  | some hab => exact .inr ⟨_, _, rfl, rfl, hab⟩

/-- An entry over the older columns and a survivor agree: the same cost, and the path traced back through the entry. -/
def Entry.Tells (older : List (Column κ)) (e : Entry κ) (x : κ × List Bit) : Prop :=
  e.cost = x.1 ∧ walkBack older e.pred [e.bit] = some x.2

/-- The columns, newest first, and the survivors agree: a node of the column `cur` is defined exactly where there is a survivor,
with the same cost, and the traceback from the node gives the survivor's path (43_hard_viterbi.md R169). -/
def MemoTells (cols : List (Column κ)) (cur : Column κ) (v : PerState (Option (κ × List Bit))) : Prop :=
  ∀ n, Option.Rel (fun e x => e.cost = x.1 ∧ walkBack cols n [] = some x.2) (cur.get n) (v.get n)

/-- One result for each node, in index order, with a state handed from node to node. -/
def eachNode {β σ : Type} (node : EncState → σ → β × σ) (x : σ) : PerState β × σ :=
  let r0 := node ⟨false, false⟩ x
  let r1 := node ⟨false, true⟩ r0.2
  let r2 := node ⟨true, false⟩ r1.2
  let r3 := node ⟨true, true⟩ r2.2
  (⟨r0.1, r1.1, r2.1, r3.1⟩, r3.2)

/-- Two walks over the nodes whose steps agree agree at every node and at the end. -/
theorem eachNode_rel {β γ σ : Type} {R : β → γ → Prop} {f : Nat → σ} {node : EncState → σ → Option β × σ}
    {node' : EncState → Nat → Option γ × Nat}
    (h : ∀ n k, Option.Rel R (node n (f k)).1 (node' n k).1 ∧ (node n (f k)).2 = f (node' n k).2) (k : Nat) :
    (∀ n, Option.Rel R ((eachNode node (f k)).1.get n) ((eachNode node' k).1.get n)) ∧
    (eachNode node (f k)).2 = f (eachNode node' k).2 := by
  simp only [eachNode, (h _ _).2, and_true]
  rintro ⟨_ | _, _ | _⟩ <;> exact (h _ _).1

/-- The traceback leaves a defined node over its entry (43_hard_viterbi.md R169). -/
theorem walkBack_cons_of_get {c : Column κ} {n : EncState} {e : Entry κ} (h : c.get n = some e) (older : List (Column κ))
    (acc : List Bit) : walkBack (c :: older) n acc = walkBack older e.pred (e.bit :: acc) := by
  simp only [walkBack, h]

/-- A column whose entries agree with the survivors over the older columns extends the memo. -/
theorem memoTells_cons {c : Column κ} {older : List (Column κ)} {v : PerState (Option (κ × List Bit))}
    (h : ∀ n, Option.Rel (Entry.Tells older) (c.get n) (v.get n)) : MemoTells (c :: older) c v := by
  intro n
  rcases optionRel_cases (h n) with ⟨hc, hv⟩ | ⟨e, x, hc, hv, hcost, hwalk⟩ <;> rw [hc, hv]
  · exact .none
  · exact .some ⟨hcost, (walkBack_cons_of_get hc older []).trans hwalk⟩

theorem memoTells_initialColumn [Zero κ] :
    MemoTells [] (initialColumn κ) ⟨some (0, []), none, none, none⟩ := by
  rintro ⟨_ | _, _ | _⟩
  · exact .some ⟨rfl, rfl⟩
  all_goals exact .none

/-- The best path is the survivor of state 0 (43_hard_viterbi.md R169, R172). -/
theorem bestPath_of_memoTells {cols : List (Column κ)} {c : Column κ} {v : PerState (Option (κ × List Bit))}
    (hne : cols ≠ []) (h : MemoTells cols.reverse (cols.getLast?.getD c) v) :
    bestPath cols = (v.get stateZero).map Prod.swap := by
  unfold bestPath
  have hzero := h stateZero
  rw [← List.head?_reverse] at hzero
  cases hrev : cols.reverse with
  | nil => exact absurd (List.reverse_eq_nil_iff.mp hrev) hne
  | cons last older =>
    simp only [hrev, List.head?_cons, Option.getD_some] at hzero
    rcases optionRel_cases hzero with ⟨hlast, hv⟩ | ⟨e, x, hlast, hv, hcost, hwalk⟩ <;> rw [hv]
    · simp [hlast]
    · simp [hlast, hwalk, hcost, Prod.swap]

/-- A candidate agrees with the path that the survivor of its predecessor makes over the edge (R165). -/
theorem candidate_tells [Add κ] {cols : List (Column κ)} {cur : Column κ} {v : PerState (Option (κ × List Bit))}
    (h : MemoTells cols cur v) (g : GenOrder) (metric : Sym → κ) (p : EncState) (b : Bit) :
    Option.Rel (Entry.Tells cols) (candidate g metric cur p b)
      ((v.get p).map fun x => (x.1 + metric (outSym g p b), x.2 ++ [b])) := by
  unfold candidate
  rcases optionRel_cases (h p) with ⟨hcur, hv⟩ | ⟨e, x, hcur, hv, hcost, hwalk⟩ <;> rw [hcur, hv]
  · exact .none
  · exact .some ⟨congrArg (· + _) hcost, by rw [walkBack_acc, hwalk]; rfl⟩

variable [LinearOrder κ]

/-- The survivors of two predecessors settle as their entries do, with one draw from the source on a tie of the randomized mode
(R165 to R167). -/
theorem settle_rel {R : Entry κ → κ × List Bit → Prop} (hcost : ∀ e x, R e x → e.cost = x.1) {lower upper : Option (Entry κ)}
    {x y : Option (κ × List Bit)} (hlower : Option.Rel R lower x) (hupper : Option.Rel R upper y) (rt : Bool) (d : DrawSource)
    (k : Nat) :
    Option.Rel R (settle rt lower upper (afterDraws d k)).1 (survivorOf rt (drawAt d) k x y).1 ∧
    (settle rt lower upper (afterDraws d k)).2 = afterDraws d (survivorOf rt (drawAt d) k x y).2 := by
  cases hlower with
  | none => exact ⟨hupper, rfl⟩
  | @some l x hl =>
    cases hupper with
    | none => exact ⟨.some hl, rfl⟩
    | @some u y hu =>
      simp only [settle, survivorOf, hcost l x hl, hcost u y hu, draw_afterDraws]
      rcases lt_trichotomy x.1 y.1 with hlt | heq | hgt
      · simpa [hlt, hlt.not_gt, hlt.ne'] using Option.Rel.some hl
      · cases rt with
        | false => simpa [heq] using Option.Rel.some hl
        | true => cases drawAt d k <;> simp [heq, Option.Rel.some hl, Option.Rel.some hu]
      · simpa [hgt, hgt.not_gt] using Option.Rel.some hu

/-- A node whose lower predecessor has a survivor has one (R165). -/
theorem survivorOf_isSome_of_lower (rt : Bool) (draws : Nat → Bool) (k : Nat) {lower : Option (κ × List Bit)}
    (upper : Option (κ × List Bit)) (h : lower.isSome = true) : (survivorOf rt draws k lower upper).1.isSome = true := by
  obtain ⟨l, rfl⟩ := Option.isSome_iff_exists.mp h
  cases upper with
  | none => rfl
  | some u =>
    simp only [survivorOf]
    split_ifs <;> rfl

variable [Add κ]

theorem advance_eq_eachNode (g : GenOrder) (rt : Bool) (metric : Sym → κ) (prev : Column κ) (d : DrawSource) :
    advance g rt metric prev d = eachNode (fun n =>
      settle rt (candidate g metric prev ⟨false, n.first⟩ n.second) (candidate g metric prev ⟨true, n.first⟩ n.second)) d :=
  advance_eq g rt metric prev d

/-- One time step hands the agreement on, with one draw for each tie event (R164). -/
theorem memoTells_advance {cols : List (Column κ)} {cur : Column κ} {v : Survivals κ} (h : MemoTells cols cur v.1)
    (g : GenOrder) (rt : Bool) (metric : Sym → κ) (d : DrawSource) :
    MemoTells ((advance g rt metric cur (afterDraws d v.2)).1 :: cols) (advance g rt metric cur (afterDraws d v.2)).1
      (extendSurvivors g rt (drawAt d) metric v).1 ∧
    (advance g rt metric cur (afterDraws d v.2)).2 = afterDraws d (extendSurvivors g rt (drawAt d) metric v).2 := by
  rw [advance_eq_eachNode]
  obtain ⟨hnodes, hdraws⟩ := eachNode_rel (f := afterDraws d) (fun n k => settle_rel (fun e x hex => hex.1)
    (candidate_tells h g metric ⟨false, n.first⟩ n.second) (candidate_tells h g metric ⟨true, n.first⟩ n.second) rt d k) v.2
  exact ⟨memoTells_cons hnodes, hdraws⟩

/-- The forward pass keeps the agreement, by induction on the observations. -/
theorem memoTells_forward (g : GenOrder) (rt : Bool) (metric : ω → Sym → κ) (d : DrawSource) (os : List ω)
    {cols : List (Column κ)} {cur : Column κ} {v : Survivals κ} (h : MemoTells cols cur v.1) :
    MemoTells ((forward g rt metric os cur (afterDraws d v.2)).1.reverse ++ cols)
      ((forward g rt metric os cur (afterDraws d v.2)).1.getLast?.getD cur)
      (os.foldl (fun v o => extendSurvivors g rt (drawAt d) (metric o) v) v).1 ∧
    (forward g rt metric os cur (afterDraws d v.2)).2 =
      afterDraws d (os.foldl (fun v o => extendSurvivors g rt (drawAt d) (metric o) v) v).2 := by
  induction os generalizing cols cur v with
  | nil => exact ⟨h, rfl⟩
  | cons o os ih =>
    obtain ⟨hmemo, hdraws⟩ := memoTells_advance h g rt (metric o) d
    have hrest := ih hmemo
    rw [← hdraws] at hrest
    simpa [forward, List.getLast?_cons] using hrest

/-- State 0 keeps a survivor: it is its own lower predecessor, on bit 0 (40_encoder.md R108). -/
theorem extendSurvivors_stateZero_isSome (g : GenOrder) (rt : Bool) (draws : Nat → Bool) (metric : Sym → κ) {v : Survivals κ}
    (h : (v.1.get stateZero).isSome = true) : ((extendSurvivors g rt draws metric v).1.get stateZero).isSome = true :=
  survivorOf_isSome_of_lower rt draws v.2 _ (Option.isSome_map.trans h)

variable [Zero κ]

/-- State 0 always has a survivor (43_hard_viterbi.md R170). -/
theorem survivorPaths_stateZero_isSome (g : GenOrder) (rt : Bool) (draws : Nat → Bool) (metric : ω → Sym → κ) (os : List ω) :
    ((survivorPaths g rt draws metric os).1.get stateZero).isSome = true :=
  List.foldlRecOn os _ (motive := fun v : Survivals κ => (v.1.get stateZero).isSome = true) rfl
    fun _ hv o _ => extendSurvivors_stateZero_isSome g rt draws (metric o) hv

/-- Cost and path of the decoder are those of the survivor of state 0, and the draws taken are as many as its tie events. -/
theorem bestPath_forward (g : GenOrder) (rt : Bool) (metric : ω → Sym → κ) {os : List ω} (hne : os ≠ []) (d : DrawSource) :
    bestPath (forward g rt metric os (initialColumn κ) d).1 =
      ((survivorPaths g rt (drawAt d) metric os).1.get stateZero).map Prod.swap ∧
    (forward g rt metric os (initialColumn κ) d).2 = afterDraws d (survivorPaths g rt (drawAt d) metric os).2 := by
  obtain ⟨hmemo, hdraws⟩ := memoTells_forward g rt metric d os
    (v := (⟨some (0, []), none, none, none⟩, 0)) memoTells_initialColumn
  rw [List.append_nil] at hmemo
  refine ⟨bestPath_of_memoTells (fun hnil => hne ?_) hmemo, hdraws⟩
  simpa [hnil] using (length_forward g rt metric os (initialColumn κ) d).symm

end Survivors

/-! ### `HARD_DP` on written observations -/

/-- A buffer that holds a list reads it (10_state.md R40). -/
theorem readSeq_of_holds {α : Type} {b : Buf α} {vs : List α} (h : b.Holds vs) : b.readSeq 0 vs.length = some vs :=
  (readSeq_eq_some_iff b 0 vs.length vs).mpr ⟨rfl, fun k hk => by rw [Nat.zero_add]; exact h k hk⟩

/-- A run of writes from index 0 on writes the list (20_memory.md R69). -/
theorem wrote_writeSeq {α : Type} (b : Buf α) (vs : List α) : b.Wrote (b.writeSeq 0 vs) vs := by
  intro i
  simp [read_writeSeq]

/-- `HARD_DP` on written observations of accepted length completes with the best path it finds, and changes nothing else but
`MEMO` and the draw source (43_hard_viterbi.md R171). -/
theorem execHardDp_of_bestPath {s : Generic.State S P} {hs : List Sym} {bits : List Bit} {cost : Nat} (hlow : 2 ≤ hs.length)
    (hhigh : hs.length ≤ s.params.nMax) (hholds : s.mem.hobs.Holds hs)
    (hbest : bestPath (hardPass s hs).1 = some (bits, cost)) :
    execHardDp hs.length s = .next { s with
      mem := { s.mem with bitout := s.mem.bitout.writeSeq 0 bits }, hmetric := BitVec.ofNat 32 cost,
      memo := (afterHardPass s hs).memo, draws := (hardPass s hs).2, status := { s.status with err := .ok, busy := false } } := by
  have hlen : decodeLengthOk s hs.length = true := (decodeLengthOk_eq_true_iff s hs.length).mpr ⟨hlow, hhigh⟩
  simp [execHardDp, hlen, readSeq_of_holds hholds, hbest, complete, Generic.State.setHmetric, Generic.State.writeBitout]

/-- Settles O54: the memo of the forward pass tells of the survivors at every step, so its best path is the survivor of state 0. -/
theorem hardDpResolvesEachTieByOneDraw : Obligations.HardDpResolvesEachTieByOneDraw := by
  intro s hs hlow hhigh hholds
  obtain ⟨⟨cost, bits⟩, hsurvivor⟩ := Option.isSome_iff_exists.mp
    (survivorPaths_stateZero_isSome s.params.genOrder s.config.hardTie (drawAt s.draws) bmHard hs)
  have hne : hs ≠ [] := fun hnil => by simp [hnil] at hlow
  obtain ⟨hpath, hdraws⟩ := bestPath_forward s.params.genOrder s.config.hardTie bmHard hne s.draws
  have hbest : bestPath (hardPass s hs).1 = some (bits, cost) := hpath.trans (by rw [hsurvivor]; rfl)
  have hlen : bits.length = hs.length := (bestPath_length hbest).trans (length_hardPass s hs)
  refine ⟨_, bits, cost, (afterHardPass s hs).memo, hsurvivor, hlen, wrote_writeSeq s.mem.bitout bits, ?_⟩
  rw [exec_eq_execOf, execOf, execHardDp_of_bestPath hlow hhigh hholds hbest, ← hdraws]
  rfl

end Sys2Proof.Machine
end

section
/-! SUPPORT. Host accesses: what the host reads at each address, which reads and writes are admitted, what a write stores, that
every event completes, and which addresses a command leaves alone (20_memory.md R50 to R57, R63, R69). -/
namespace Sys2Proof.Machine

variable {S P : Type}

/-! ### Every event completes (R63; 60_exceptions.md R219) -/

/-- Every meaning answers with a next state or a model fault: the model has no command without a meaning. -/
theorem execOf_ne_refused [CommRing S] [LinearOrder S] (i : Instr) (s : Generic.State S P) (r : Refusal) :
    execOf i s ≠ .refused r := by
  cases i with
  | encStep st b => nofun
  | encSeq st len =>
    simp only [execOf, execEncSeq]
    split
    · split <;> nofun
    · nofun
  | laBuild =>
    simp only [execOf, execLaBuild]
    split <;> nofun
  | laLookup st s0 s1 s2 =>
    simp only [execOf, execLaLookup]
    split <;> nofun
  | laDecode len =>
    simp only [execOf, execLaDecode]
    split
    · split
      · split <;> nofun
      · nofun
    · nofun
  | hardDp len =>
    simp only [execOf, execHardDp]
    split
    · split
      · nofun
      · split <;> nofun
    · nofun
  | softDp len =>
    simp only [execOf, execSoftDp]
    split
    · split
      · nofun
      · split <;> nofun
    · nofun

/-- With its model fault absorbed, an outcome that is no refusal is a next state (R220). -/
theorem absorbFault_answers (kept : Generic.State S P) {o : Host.Outcome (Generic.State S P) Fault Refusal}
    (h : ∀ r, o ≠ .refused r) : ∃ t, absorbFault kept o = .next t := by
  cases o with
  | next s => exact ⟨s, rfl⟩
  | fault f => exact ⟨markFaulted kept, rfl⟩
  | refused r => exact absurd rfl (h r)

theorem issue_answers [CommRing S] [LinearOrder S] (w : Word) (s : Generic.State S P) : ∃ t, issue execOf w s = .next t := by
  unfold issue
  split
  · exact absorbFault_answers _ (execOf_ne_refused _ _)
  · exact ⟨_, rfl⟩

theorem runEvent_answers [CommRing S] [LinearOrder S] (enc : SoftEnc S P) (e : Event P) (s : Generic.State S P) :
    ∃ t, runEvent execOf enc e s = .next t := by
  cases e with
  | read a =>
    refine absorbFault_answers _ fun r => ?_
    rcases hostRead_cases enc a s with ⟨v, -, hread⟩ | ⟨-, hread⟩ <;> rw [hread] <;> nofun
  | write a v =>
    simp only [runEvent]
    split
    · exact issue_answers _ s
    · refine absorbFault_answers _ fun r => ?_
      rcases hostWrite_cases enc a v s with ⟨t, -, hwrite⟩ | ⟨-, hwrite⟩ <;> rw [hwrite] <;> nofun
  | reset => exact ⟨_, rfl⟩

/-- Issuing a word leaves the further host accesses alone. -/
theorem pending_of_issue {w : Word} {s t : State} (h : issue exec w s = .next t) : t.pending = s.pending := by
  rcases issue_cases h with ⟨i, -, hrun | ⟨-, rfl⟩⟩ | ⟨-, rfl⟩
  · obtain ⟨-, -, hpending, -⟩ := commandsKeepTheOtherState _ _ _ hrun
    exact hpending
  · rfl
  · rfl

/-- Settles O8: no event is refused, and whatever a step does it leaves the rest of the list. -/
theorem stepCompletesEachEventInOrder : Obligations.StepCompletesEachEventInOrder := by
  intro s e rest hp
  obtain ⟨t, ht⟩ := runEvent_answers referenceEnc e { s with pending := rest }
  have hstep : step s = .next t := (step_eq_stepOf s).trans ((stepWith_cons execOf referenceEnc hp).trans ht)
  refine ⟨t, hstep, ?_⟩
  rcases stepWith_cases hstep with ⟨hnil, -⟩ | ⟨rest', hp', rfl⟩ | ⟨w, rest', hp', hissue⟩ | ⟨e', rest', hp', -, hframe⟩
  · cases hp.symm.trans hnil
  · cases hp.symm.trans hp'
    rfl
  · cases hp.symm.trans hp'
    exact pending_of_issue hissue
  · cases hp.symm.trans hp'
    rw [hframe]

/-! ### What the host reads at each address (R50 to R53) -/

section Reads

variable (enc : SoftEnc S P) (s : Generic.State S P) (n : BitVec 16)

@[simp] theorem hostValueAt_register : hostValueAt enc s ⟨0#3, n⟩ = readRegister enc s n.toNat := rfl

@[simp] theorem hostValueAt_ibuf :
    hostValueAt enc s ⟨1#3, n⟩ = readElement s.params.nMax s.mem.ibuf wordOfBit n.toNat := rfl

@[simp] theorem hostValueAt_hobs :
    hostValueAt enc s ⟨2#3, n⟩ = readElement s.params.nMax s.mem.hobs wordOfSym n.toNat := rfl

@[simp] theorem hostValueAt_sobsX :
    hostValueAt enc s ⟨3#3, n⟩ = readElement s.params.nMax s.mem.sobsX (valueOfSoft enc) n.toNat := rfl

@[simp] theorem hostValueAt_symout :
    hostValueAt enc s ⟨4#3, n⟩ = readElement s.params.nMax s.mem.symout wordOfSym n.toNat := rfl

@[simp] theorem hostValueAt_bitout :
    hostValueAt enc s ⟨5#3, n⟩ = readElement s.params.nMax s.mem.bitout wordOfBit n.toNat := rfl

@[simp] theorem hostValueAt_sobsY :
    hostValueAt enc s ⟨6#3, n⟩ = readElement s.params.nMax s.mem.sobsY (valueOfSoft enc) n.toNat := rfl

@[simp] theorem hostValueAt_nothing : hostValueAt enc s ⟨7#3, n⟩ = none := rfl

end Reads

theorem region_cases (r : BitVec 3) : r = 0#3 ∨ r = 1#3 ∨ r = 2#3 ∨ r = 3#3 ∨ r = 4#3 ∨ r = 5#3 ∨ r = 6#3 ∨ r = 7#3 := by
  revert r
  decide

/-- The six register indices, by number (R51). -/
theorem register_cases {n : BitVec 16} (h : n.toNat < 6) : n = 0 ∨ n = 1 ∨ n = 2 ∨ n = 3 ∨ n = 4 ∨ n = 5 := by
  bv_omega

theorem readRegister_eq_none_of_le (enc : SoftEnc S P) (s : Generic.State S P) {i : Nat} (h : 6 ≤ i) :
    readRegister enc s i = none := by
  obtain ⟨k, rfl⟩ := Nat.exists_eq_add_of_le' h
  rfl

theorem readRegister_isSome_iff (enc : SoftEnc S P) (s : Generic.State S P) (n : BitVec 16) :
    (readRegister enc s n.toNat).isSome = true ↔ n.toNat < 6 := by
  constructor
  · intro hsome
    by_contra hle
    simp [readRegister_eq_none_of_le enc s (not_lt.mp hle)] at hsome
  · intro hlt
    rcases register_cases hlt with rfl | rfl | rfl | rfl | rfl | rfl <;> rfl

theorem readElement_of_read {α : Type} {n i : Nat} {b : Buf α} {v : α} (hi : i < n) (h : b.read i = some v)
    (show_ : α → HostValue P) : readElement n b show_ i = some (show_ v) := by
  simp [readElement, hi, h]

theorem readElement_isSome_iff {α : Type} (n : Nat) (b : Buf α) (show_ : α → HostValue P) (i : Nat) :
    (readElement n b show_ i).isSome = true ↔ i < n ∧ (b.read i).isSome = true := by
  by_cases hi : i < n <;> simp [readElement, hi]

theorem readElement_congr {α : Type} {p q : Params} {b c : Buf α} {i : Nat} (hp : q = p) (h : c.read i = b.read i)
    (show_ : α → HostValue P) : readElement q.nMax c show_ i = readElement p.nMax b show_ i := by
  rw [readElement, readElement, hp, h]

/-- The admitted reads are those of locations that hold a value (R51, R52, R56; 10_state.md R40). -/
theorem hostValueAt_isSome_iff (enc : SoftEnc S P) (s : Generic.State S P) (a : Addr) :
    (hostValueAt enc s a).isSome = true ↔ AdmittedRead s a := by
  obtain ⟨region, index⟩ := a
  rcases region_cases region with rfl | rfl | rfl | rfl | rfl | rfl | rfl | rfl
  · simp [AdmittedRead, readRegister_isSome_iff]
  · simp [AdmittedRead, readElement_isSome_iff, elementWritten]
  · simp [AdmittedRead, readElement_isSome_iff, elementWritten]
  · simp [AdmittedRead, readElement_isSome_iff, elementWritten]
  · simp [AdmittedRead, readElement_isSome_iff, elementWritten]
  · simp [AdmittedRead, readElement_isSome_iff, elementWritten]
  · simp [AdmittedRead, readElement_isSome_iff, elementWritten]
  · simp [AdmittedRead]

/-! ### States that agree at an address -/

/-- The two states hold the same at the address: the register or the element that it names, if it names one. -/
structure AgreeAt (a : Addr) (s t : Generic.State S P) : Prop where
  params : t.params = s.params
  cmd : a = ⟨0, 0⟩ → t.cmd = s.cmd
  status : a = ⟨0, 1⟩ → t.status = s.status
  result : a = ⟨0, 2⟩ → t.result = s.result
  config : a = ⟨0, 3⟩ → t.config = s.config
  hmetric : a = ⟨0, 4⟩ → t.hmetric = s.hmetric
  smetric : a = ⟨0, 5⟩ → t.smetric = s.smetric
  ibuf : a.region = 1 → t.mem.ibuf.read a.index.toNat = s.mem.ibuf.read a.index.toNat
  hobs : a.region = 2 → t.mem.hobs.read a.index.toNat = s.mem.hobs.read a.index.toNat
  sobsX : a.region = 3 → t.mem.sobsX.read a.index.toNat = s.mem.sobsX.read a.index.toNat
  symout : a.region = 4 → t.mem.symout.read a.index.toNat = s.mem.symout.read a.index.toNat
  bitout : a.region = 5 → t.mem.bitout.read a.index.toNat = s.mem.bitout.read a.index.toNat
  sobsY : a.region = 6 → t.mem.sobsY.read a.index.toNat = s.mem.sobsY.read a.index.toNat

theorem agreeAt_refl (a : Addr) (s : Generic.State S P) : AgreeAt a s s where
  params := rfl
  cmd := fun _ => rfl
  status := fun _ => rfl
  result := fun _ => rfl
  config := fun _ => rfl
  hmetric := fun _ => rfl
  smetric := fun _ => rfl
  ibuf := fun _ => rfl
  hobs := fun _ => rfl
  sobsX := fun _ => rfl
  symout := fun _ => rfl
  bitout := fun _ => rfl
  sobsY := fun _ => rfl

/-- Where two states agree the host reads the same. -/
theorem hostValueAt_eq_of_agreeAt (enc : SoftEnc S P) {a : Addr} {s t : Generic.State S P} (h : AgreeAt a s t) :
    hostValueAt enc t a = hostValueAt enc s a := by
  obtain ⟨region, index⟩ := a
  rcases region_cases region with rfl | rfl | rfl | rfl | rfl | rfl | rfl | rfl
  · rw [hostValueAt_register, hostValueAt_register]
    rcases Nat.lt_or_ge index.toNat 6 with hlt | hge
    · rcases register_cases hlt with rfl | rfl | rfl | rfl | rfl | rfl
      · simp [readRegister, h.cmd rfl]
      · simp [readRegister, h.status rfl]
      · simp [readRegister, h.result rfl]
      · simp [readRegister, h.config rfl]
      · simp [readRegister, h.hmetric rfl]
      · simp [readRegister, h.smetric rfl]
    · rw [readRegister_eq_none_of_le enc t hge, readRegister_eq_none_of_le enc s hge]
  · exact readElement_congr h.params (h.ibuf rfl) _
  · exact readElement_congr h.params (h.hobs rfl) _
  · exact readElement_congr h.params (h.sobsX rfl) _
  · exact readElement_congr h.params (h.symout rfl) _
  · exact readElement_congr h.params (h.bitout rfl) _
  · exact readElement_congr h.params (h.sobsY rfl) _
  · simp

/-! ### One host read (R53, R57) -/

section ReadSteps

variable [CommRing S] [LinearOrder S] {enc : SoftEnc S P} {s : Generic.State S P} {a : Addr} {rest : List (Event P)}

/-- The step of a read of a location that holds a value. -/
theorem stepOf_read_of_some {v : HostValue P} (hp : s.pending = .read a :: rest) (h : hostValueAt enc s a = some v) :
    stepOf enc s = .next { s with pending := rest, readData := some v } := by
  have hv : hostValueAt enc { s with pending := rest } a = some v := (hostValueAt_eq_of_agreeAt enc { agreeAt_refl a s with }).trans h
  simp [stepOf, stepWith_cons execOf enc hp, runEvent, hostRead, hv]

/-- The step of a read of a location that holds none. -/
theorem stepOf_read_of_none (hp : s.pending = .read a :: rest) (h : hostValueAt enc s a = none) :
    stepOf enc s = .next { s with pending := rest, readData := none, faulted := true } := by
  have hv : hostValueAt enc { s with pending := rest } a = none := (hostValueAt_eq_of_agreeAt enc { agreeAt_refl a s with }).trans h
  simp [stepOf, stepWith_cons execOf enc hp, runEvent, hostRead, hv, markFaulted]

end ReadSteps

/-- Settles O14: a location holds a value exactly when its read is admitted. -/
theorem hostReadIsAdmittedOrFaults : Obligations.HostReadIsAdmittedOrFaults := by
  intro S P _ _ _ enc s rest a hp
  refine ⟨fun hread => ?_, fun hrefused => ?_⟩
  · obtain ⟨v, hv⟩ := Option.isSome_iff_exists.mp ((hostValueAt_isSome_iff enc s a).mpr hread)
    exact ⟨v, hv, stepOf_read_of_some hp hv⟩
  · rw [← hostValueAt_isSome_iff enc s a, Option.not_isSome_iff_eq_none] at hrefused
    exact stepOf_read_of_none hp hrefused

theorem wordOfBit_eq (b : Bit) : (wordOfBit b : HostValue P) = .word (BitVec.ofNat 32 b.toNat) := by cases b <;> rfl

theorem wordOfSym_eq (y : Sym) : (wordOfSym y : HostValue P) = .word (BitVec.ofNat 32 (symNumber y)) := by
  obtain ⟨_ | _, _ | _⟩ := y <;> rfl

/-- Settles O13, buffer by buffer. -/
theorem hostReadReturnsTheElement : Obligations.HostReadReturnsTheElement := by
  intro S P _ _ _ enc s rest n hn
  refine ⟨fun b hp hb => ?_, fun y hp hy => ?_, fun x hp hx => ?_, fun y hp hy => ?_, fun b hp hb => ?_, fun x hp hx => ?_⟩
  · rw [← wordOfBit_eq]
    exact stepOf_read_of_some hp (readElement_of_read hn hb _)
  · rw [← wordOfSym_eq]
    exact stepOf_read_of_some hp (readElement_of_read hn hy _)
  · exact stepOf_read_of_some hp (readElement_of_read hn hx _)
  · rw [← wordOfSym_eq]
    exact stepOf_read_of_some hp (readElement_of_read hn hy _)
  · rw [← wordOfBit_eq]
    exact stepOf_read_of_some hp (readElement_of_read hn hb _)
  · exact stepOf_read_of_some hp (readElement_of_read hn hx _)

/-! ### The values a write stores, and their read-back (R55, R60) -/

theorem bitOfValue_isSome_iff (v : HostValue P) :
    (bitOfValue v).isSome = true ↔ ∃ w : Word, v = .word w ∧ w.toNat < 2 := by
  cases v <;> simp [bitOfValue]

theorem symOfValue_isSome_iff (v : HostValue P) :
    (symOfValue v).isSome = true ↔ ∃ w : Word, v = .word w ∧ w.toNat < 4 := by
  cases v <;> simp [symOfValue]

theorem softOfValue_isSome_iff (enc : SoftEnc S P) (v : HostValue P) :
    (softOfValue enc v).isSome = true ↔ ∃ q x, v = .soft q ∧ enc.decode q = some x := by
  cases v <;> simp [Option.isSome_iff_exists]

/-- The reserved bits of `CONFIG` are 0 in the words below 4 (10_state.md R30). -/
theorem configOfWord_isSome_iff (w : Word) : (ConfigReg.ofWord w).isSome = true ↔ w.toNat < 4 := by
  have hbits : w.extractLsb' 2 30 = 0 ↔ w.toNat < 4 := by
    rw [BitVec.toNat_eq, BitVec.extractLsb'_toNat, Nat.shiftRight_eq_div_pow]
    simp only [BitVec.ofNat_eq_ofNat, BitVec.toNat_ofNat]
    omega
  rw [← hbits]
  simp [ConfigReg.ofWord]

theorem word_lt_four_cases {w : Word} (h : w.toNat < 4) : w = 0 ∨ w = 1 ∨ w = 2 ∨ w = 3 := by bv_omega

theorem sameValue_wordOfBit (enc : SoftEnc S P) {v : HostValue P} {b : Bit} (h : bitOfValue v = some b) :
    SameValue enc v (wordOfBit b) := by
  obtain ⟨w, rfl, hw⟩ := (bitOfValue_isSome_iff v).mp (Option.isSome_of_eq_some h)
  obtain rfl | rfl : w = 0 ∨ w = 1 := by bv_omega
  all_goals
    cases h
    rfl

theorem sameValue_wordOfSym (enc : SoftEnc S P) {v : HostValue P} {y : Sym} (h : symOfValue v = some y) :
    SameValue enc v (wordOfSym y) := by
  obtain ⟨w, rfl, hw⟩ := (symOfValue_isSome_iff v).mp (Option.isSome_of_eq_some h)
  rcases word_lt_four_cases hw with rfl | rfl | rfl | rfl
  all_goals
    cases h
    rfl

theorem sameValue_valueOfSoft {enc : SoftEnc S P} (hlegal : enc.Legal) {v : HostValue P} {x : S}
    (h : softOfValue enc v = some x) : SameValue enc v (valueOfSoft enc x) := by
  obtain ⟨q, y, rfl, -⟩ := (softOfValue_isSome_iff enc v).mp (Option.isSome_of_eq_some h)
  exact ⟨x, h, hlegal q x h⟩

theorem toWord_of_configOfWord {w : Word} {c : ConfigReg} (h : ConfigReg.ofWord w = some c) : c.toWord = w := by
  rcases word_lt_four_cases ((configOfWord_isSome_iff w).mp (Option.isSome_of_eq_some h)) with rfl | rfl | rfl | rfl
  all_goals
    cases h
    rfl

/-! ### One host write other than of `CMD` (R54 to R57) -/

theorem writeElement_isSome_iff {α : Type} (n : Nat) (b : Buf α) (v : Option α) (i : Nat) :
    (writeElement n b v i).isSome = true ↔ i < n ∧ v.isSome = true := by
  by_cases hi : i < n <;> simp [writeElement, hi]

theorem hostWritten_register_isSome_iff (enc : SoftEnc S P) (s : Generic.State S P) (n : BitVec 16) (v : HostValue P) :
    (hostWritten enc s ⟨0#3, n⟩ v).isSome = true ↔ n = 3#16 ∧ ∃ w : Word, v = .word w ∧ w.toNat < 4 := by
  by_cases hn : n = 3#16
  · subst hn
    cases v <;> simp [hostWritten, configOfWord_isSome_iff]
  · have hindex : n.toNat ≠ 3 := fun h => hn (BitVec.eq_of_toNat_eq h)
    simp [hostWritten, hindex, hn]

/-- The writes that store something are the admitted ones (R51, R52, R55, R56). -/
theorem hostWritten_isSome_iff (enc : SoftEnc S P) (s : Generic.State S P) (a : Addr) (v : HostValue P) :
    (hostWritten enc s a v).isSome = true ↔ AdmittedStore enc s.params a v := by
  obtain ⟨region, index⟩ := a
  rcases region_cases region with rfl | rfl | rfl | rfl | rfl | rfl | rfl | rfl
  · simp [AdmittedStore, hostWritten_register_isSome_iff]
  · simp [AdmittedStore, hostWritten, writeElement_isSome_iff, bitOfValue_isSome_iff]
  · simp [AdmittedStore, hostWritten, writeElement_isSome_iff, symOfValue_isSome_iff]
  · simp [AdmittedStore, hostWritten, writeElement_isSome_iff, softOfValue_isSome_iff]
  · simp [AdmittedStore, hostWritten]
  · simp [AdmittedStore, hostWritten]
  · simp [AdmittedStore, hostWritten, writeElement_isSome_iff, softOfValue_isSome_iff]
  · simp [AdmittedStore, hostWritten]

/-- Settles O11: a write that is not admitted stores nothing, so it is a host fault. -/
theorem refusedHostWriteChangesNothing : Obligations.RefusedHostWriteChangesNothing := by
  intro S P _ _ _ enc s rest a v hp hstore hcommand
  have hnone : hostWritten enc { s with pending := rest } a v = none := by
    rwa [← Option.not_isSome_iff_eq_none, hostWritten_isSome_iff]
  have hword : commandWord a v = none :=
    Option.eq_none_iff_forall_ne_some.mpr fun w hw =>
      hcommand (((commandWord_eq_some_iff a v w).mp hw).imp_right fun hv => ⟨w, hv⟩)
  simp [stepOf, stepWith_cons execOf enc hp, runEvent, hword, hostWrite, hnone, markFaulted]

/-- An element stored reads back as the host shows its value, and every other index reads as before. -/
theorem read_of_writeElement {α : Type} {n : Nat} {b c : Buf α} {v : Option α} {i : Nat} (h : writeElement n b v i = some c)
    (show_ : α → HostValue P) :
    (∃ x, v = some x ∧ readElement n c show_ i = some (show_ x)) ∧ ∀ k, k ≠ i → c.read k = b.read k := by
  obtain ⟨hi, x, hx, rfl⟩ := writeElement_eq_some h
  exact ⟨⟨x, hx, readElement_of_read hi (read_write_same b i x) show_⟩, fun k hk => read_write_ne b x hk⟩

/-- Two addresses of one region differ in their indices. -/
theorem toNat_index_ne {a b : Addr} (h : b ≠ a) (hregion : b.region = a.region) : b.index.toNat ≠ a.index.toNat := by
  obtain ⟨region, index⟩ := a
  obtain ⟨region', index'⟩ := b
  intro hindex
  obtain rfl : region' = region := hregion
  obtain rfl : index' = index := BitVec.eq_of_toNat_eq hindex
  exact h rfl

/-- A write to region 0 that stores something is of a word to `CONFIG` (R51, R54). -/
theorem hostWritten_register_cases {enc : SoftEnc S P} {s t : Generic.State S P} {n : BitVec 16} {v : HostValue P}
    (h : hostWritten enc s ⟨0#3, n⟩ v = some t) :
    n = 3#16 ∧ ∃ w c, v = .word w ∧ ConfigReg.ofWord w = some c ∧ t = { s with config := c } := by
  obtain ⟨rfl, w, rfl, -⟩ := (hostWritten_register_isSome_iff enc s n v).mp (Option.isSome_of_eq_some h)
  obtain ⟨c, hc, rfl⟩ := Option.map_eq_some_iff.mp h
  exact ⟨rfl, w, c, rfl, hc, rfl⟩

/-- After an admitted write its address reads the value written, and the state agrees with the old one at every other address. -/
theorem hostWritten_stores {enc : SoftEnc S P} (hlegal : enc.Legal) {s t : Generic.State S P} {a : Addr} {v : HostValue P}
    (h : hostWritten enc s a v = some t) :
    (∃ u, hostValueAt enc t a = some u ∧ SameValue enc v u) ∧ ∀ b, b ≠ a → AgreeAt b s t := by
  obtain ⟨region, index⟩ := a
  rcases region_cases region with rfl | rfl | rfl | rfl | rfl | rfl | rfl | rfl
  · obtain ⟨rfl, w, c, rfl, hc, rfl⟩ := hostWritten_register_cases h
    exact ⟨⟨_, rfl, (toWord_of_configOfWord hc).symm⟩, fun b hb => { agreeAt_refl b s with config := (absurd · hb) }⟩
  · obtain ⟨c, hc, rfl⟩ := Option.map_eq_some_iff.mp h
    obtain ⟨⟨x, hx, hread⟩, hother⟩ := read_of_writeElement hc wordOfBit
    exact ⟨⟨_, hread, sameValue_wordOfBit enc hx⟩, fun b hb => { agreeAt_refl b s with ibuf := fun hr => hother _ (toNat_index_ne hb hr) }⟩
  · obtain ⟨c, hc, rfl⟩ := Option.map_eq_some_iff.mp h
    obtain ⟨⟨y, hy, hread⟩, hother⟩ := read_of_writeElement hc wordOfSym
    exact ⟨⟨_, hread, sameValue_wordOfSym enc hy⟩, fun b hb => { agreeAt_refl b s with hobs := fun hr => hother _ (toNat_index_ne hb hr) }⟩
  · obtain ⟨c, hc, rfl⟩ := Option.map_eq_some_iff.mp h
    obtain ⟨⟨x, hx, hread⟩, hother⟩ := read_of_writeElement hc (valueOfSoft enc)
    exact ⟨⟨_, hread, sameValue_valueOfSoft hlegal hx⟩, fun b hb => { agreeAt_refl b s with sobsX := fun hr => hother _ (toNat_index_ne hb hr) }⟩
  · cases h
  · cases h
  · obtain ⟨c, hc, rfl⟩ := Option.map_eq_some_iff.mp h
    obtain ⟨⟨x, hx, hread⟩, hother⟩ := read_of_writeElement hc (valueOfSoft enc)
    exact ⟨⟨_, hread, sameValue_valueOfSoft hlegal hx⟩, fun b hb => { agreeAt_refl b s with sobsY := fun hr => hother _ (toNat_index_ne hb hr) }⟩
  · cases h

/-- No admitted store is a write of `CMD` (R54). -/
theorem commandWord_of_admittedStore {enc : SoftEnc S P} {p : Params} {a : Addr} {v : HostValue P}
    (h : AdmittedStore enc p a v) : commandWord a v = none := by
  refine Option.eq_none_iff_forall_ne_some.mpr fun w hw => ?_
  obtain ⟨rfl, -⟩ := (commandWord_eq_some_iff a v w).mp hw
  simp [AdmittedStore, cmdAddr] at h

/-- Settles O12: an admitted write stores a value of its own region's kind, which reads back, and keeps every other address. -/
theorem hostWriteStoresTheElement : Obligations.HostWriteStoresTheElement := by
  intro S P _ _ _ enc s rest a v hlegal hp hstore
  obtain ⟨t, ht⟩ := Option.isSome_iff_exists.mp ((hostWritten_isSome_iff enc { s with pending := rest } a v).mpr hstore)
  obtain ⟨hframe, -, -, -⟩ := hostWritten_frame ht
  have hstep : stepOf enc s = .next t := by
    simp [stepOf, stepWith_cons execOf enc hp, runEvent, commandWord_of_admittedStore hstore, hostWrite, ht]
  obtain ⟨⟨u, hread, hsame⟩, hother⟩ := hostWritten_stores hlegal ht
  rw [hframe] at hstep hread
  refine ⟨t.config, t.mem, u, hstep, hread, hsame, fun b hb => ?_⟩
  rw [← hframe, hostValueAt_eq_of_agreeAt enc (hother b hb)]
  exact hostValueAt_eq_of_agreeAt enc { agreeAt_refl b s with }

/-! ### What a command leaves alone (R69) -/

/-- A run of writes leaves the elements past its end alone. -/
theorem read_writeSeq_of_le {α : Type} (b : Buf α) {vs : List α} {k : Nat} (h : vs.length ≤ k) :
    (b.writeSeq 0 vs).read k = b.read k := (wrote_writeSeq b vs k).trans (if_neg (not_lt.mpr h))

/-- The look-ahead decoder writes one bit for each of its observations (42_lookahead.md R150, R151). -/
theorem length_laDecode_bits {b : Buf Sym} {len : Nat} {hs : List Sym} (hlow : 2 ≤ len) (h : windowInput b len = some hs)
    (table : LaTable) (st : EncState) : (lookupBits table st hs ++ [false, false]).length = len := by
  simp only [List.length_append, length_lookupBits, length_of_windowInput h, List.length_cons, List.length_nil]
  split <;> omega

/-! One equation for each named update: what it leaves the host reading at the addresses it does not write. -/

section Updates

variable (enc : SoftEnc S P) (s : Generic.State S P) {a : Addr}

theorem hostValueAt_complete (h : a ≠ ⟨0, 1⟩) : hostValueAt enc (complete s) a = hostValueAt enc s a :=
  hostValueAt_eq_of_agreeAt enc { agreeAt_refl a s with status := (absurd · h) }

theorem hostValueAt_raiseCmdError (h : a ≠ ⟨0, 1⟩) (c : ErrCode) :
    hostValueAt enc (raiseCmdError c s) a = hostValueAt enc s a :=
  hostValueAt_eq_of_agreeAt enc { agreeAt_refl a s with status := (absurd · h) }

theorem hostValueAt_setTable (h : a ≠ ⟨0, 1⟩) (table : LaTable) (valid : Bool) :
    hostValueAt enc (s.setTable table valid) a = hostValueAt enc s a :=
  hostValueAt_eq_of_agreeAt enc { agreeAt_refl a s with status := (absurd · h) }

theorem hostValueAt_setTransition (h : a ≠ ⟨0, 2⟩) (n : EncState) (y : Sym) :
    hostValueAt enc (s.setTransition n y) a = hostValueAt enc s a :=
  hostValueAt_eq_of_agreeAt enc { agreeAt_refl a s with result := (absurd · h) }

theorem hostValueAt_setFinalState (h : a ≠ ⟨0, 2⟩) (n : EncState) :
    hostValueAt enc (s.setFinalState n) a = hostValueAt enc s a :=
  hostValueAt_eq_of_agreeAt enc { agreeAt_refl a s with result := (absurd · h) }

theorem hostValueAt_setLbit (h : a ≠ ⟨0, 2⟩) (b : Bit) : hostValueAt enc (s.setLbit b) a = hostValueAt enc s a :=
  hostValueAt_eq_of_agreeAt enc { agreeAt_refl a s with result := (absurd · h) }

theorem hostValueAt_setHmetric (h : a ≠ ⟨0, 4⟩) (n : Nat) : hostValueAt enc (s.setHmetric n) a = hostValueAt enc s a :=
  hostValueAt_eq_of_agreeAt enc { agreeAt_refl a s with hmetric := (absurd · h) }

theorem hostValueAt_setSmetric (h : a ≠ ⟨0, 5⟩) (x : S) : hostValueAt enc (s.setSmetric x) a = hostValueAt enc s a :=
  hostValueAt_eq_of_agreeAt enc { agreeAt_refl a s with smetric := (absurd · h) }

/-- A run of writes leaves the elements past its end alone. -/
theorem hostValueAt_writeSymout {ys : List Sym} (h : a.region = 4 → ys.length ≤ a.index.toNat) :
    hostValueAt enc (s.writeSymout ys) a = hostValueAt enc s a :=
  hostValueAt_eq_of_agreeAt enc { agreeAt_refl a s with symout := fun hr => read_writeSeq_of_le s.mem.symout (h hr) }

theorem hostValueAt_writeBitout {bs : List Bit} (h : a.region = 5 → bs.length ≤ a.index.toNat) :
    hostValueAt enc (s.writeBitout bs) a = hostValueAt enc s a :=
  hostValueAt_eq_of_agreeAt enc { agreeAt_refl a s with bitout := fun hr => read_writeSeq_of_le s.mem.bitout (h hr) }

/-- No address reaches `MEMO` (10_state.md R44). -/
theorem hostValueAt_storeMemo (cols : List (Column (Cost S))) : hostValueAt enc (s.storeMemo cols) a = hostValueAt enc s a :=
  hostValueAt_eq_of_agreeAt enc { agreeAt_refl a s with }

/-- No address reaches the draw source (10_state.md R45). -/
theorem hostValueAt_setDraws (d : DrawSource) : hostValueAt enc (s.setDraws d) a = hostValueAt enc s a :=
  hostValueAt_eq_of_agreeAt enc { agreeAt_refl a s with }

theorem hostValueAt_afterHardPass (hs : List Sym) : hostValueAt enc (afterHardPass s hs) a = hostValueAt enc s a :=
  (hostValueAt_setDraws enc _ _).trans (hostValueAt_storeMemo enc s _)

theorem hostValueAt_afterSoftPass [CommRing S] [LinearOrder S] (os : List (S × S)) :
    hostValueAt enc (afterSoftPass s os) a = hostValueAt enc s a := hostValueAt_storeMemo enc s _

end Updates

/-- Settles O23, command by command: each update of a command writes one of its outputs, and `STATUS` is among them. -/
theorem commandsWriteOnlyTheirOutputs : Obligations.CommandsWriteOnlyTheirOutputs := by
  intro S P _ _ _ enc i s t a h hout
  have hstatus : a ≠ ⟨0, 1⟩ := fun ha => by simp [outputsOf, ha] at hout
  cases i with
  | encStep st b =>
    obtain ⟨-, hresult⟩ : a ≠ ⟨0, 1⟩ ∧ a ≠ ⟨0, 2⟩ := by simpa [outputsOf] using hout
    cases h
    rw [hostValueAt_complete enc _ hstatus, hostValueAt_setTransition enc _ hresult]
  | encSeq st len =>
    obtain ⟨-, hresult, hsymout⟩ : a ≠ ⟨0, 1⟩ ∧ a ≠ ⟨0, 2⟩ ∧ (a.region = 4 → len ≤ a.index.toNat) := by
      simpa [outputsOf] using hout
    rcases execEncSeq_cases h with ⟨-, rfl⟩ | ⟨-, bits, hbits, rfl⟩
    · exact hostValueAt_raiseCmdError enc s hstatus _
    · have hlen : (encodeFrom s.params.genOrder st bits).2.length = len :=
        (length_encodeFrom _ _ _).trans (length_of_readSeq hbits)
      rw [hostValueAt_complete enc _ hstatus, hostValueAt_setFinalState enc _ hresult,
        hostValueAt_writeSymout enc s fun hr => hlen.le.trans (hsymout hr)]
  | laBuild =>
    rcases execLaBuild_cases h with ⟨-, rfl⟩ | ⟨c, -, rfl⟩
    · rw [hostValueAt_complete enc _ hstatus, hostValueAt_setTable enc s hstatus]
    · rw [hostValueAt_raiseCmdError enc _ hstatus, hostValueAt_setTable enc s hstatus]
  | laLookup st s0 s1 s2 =>
    obtain ⟨-, hresult⟩ : a ≠ ⟨0, 1⟩ ∧ a ≠ ⟨0, 2⟩ := by simpa [outputsOf] using hout
    rcases execLaLookup_cases h with ⟨-, rfl⟩ | ⟨-, rfl⟩
    · rw [hostValueAt_complete enc _ hstatus, hostValueAt_setLbit enc s hresult]
    · exact hostValueAt_raiseCmdError enc s hstatus _
  | laDecode len =>
    obtain ⟨-, hbitout⟩ : a ≠ ⟨0, 1⟩ ∧ (a.region = 5 → len ≤ a.index.toNat) := by simpa [outputsOf] using hout
    rcases execLaDecode_cases h with ⟨-, rfl⟩ | ⟨-, -, rfl⟩ | ⟨hok, -, hs, hhs, rfl⟩
    · exact hostValueAt_raiseCmdError enc s hstatus _
    · exact hostValueAt_raiseCmdError enc s hstatus _
    · have hlen := length_laDecode_bits ((decodeLengthOk_eq_true_iff s len).mp hok).1 hhs s.laTable stateZero
      rw [hostValueAt_complete enc _ hstatus, hostValueAt_writeBitout enc s fun hr => hlen.le.trans (hbitout hr)]
  | hardDp len =>
    obtain ⟨-, hmetric, hbitout⟩ : a ≠ ⟨0, 1⟩ ∧ a ≠ ⟨0, 4⟩ ∧ (a.region = 5 → len ≤ a.index.toNat) := by
      simpa [outputsOf] using hout
    rcases execHardDp_cases h with ⟨-, rfl⟩ | ⟨-, hs, hhs, ⟨-, rfl⟩ | ⟨bits, cost, hbest, rfl⟩⟩
    · exact hostValueAt_raiseCmdError enc s hstatus _
    · rw [hostValueAt_raiseCmdError enc _ hstatus, hostValueAt_afterHardPass]
    · have hlen : bits.length = len :=
        (bestPath_length hbest).trans ((length_hardPass s hs).trans (length_of_readSeq hhs))
      rw [hostValueAt_complete enc _ hstatus, hostValueAt_setHmetric enc _ hmetric,
        hostValueAt_writeBitout enc _ fun hr => hlen.le.trans (hbitout hr), hostValueAt_afterHardPass]
  | softDp len =>
    obtain ⟨-, hmetric, hbitout⟩ : a ≠ ⟨0, 1⟩ ∧ a ≠ ⟨0, 5⟩ ∧ (a.region = 5 → len ≤ a.index.toNat) := by
      simpa [outputsOf] using hout
    rcases execSoftDp_cases h with ⟨-, rfl⟩ | ⟨-, os, hos, ⟨-, rfl⟩ | ⟨bits, cost, hbest, rfl⟩⟩
    · exact hostValueAt_raiseCmdError enc s hstatus _
    · rw [hostValueAt_raiseCmdError enc _ hstatus, hostValueAt_afterSoftPass]
    · have hlen : bits.length = len :=
        (bestPath_length hbest).trans ((length_softPass s os).trans (length_of_readSoftObs hos))
      rw [hostValueAt_complete enc _ hstatus, hostValueAt_setSmetric enc _ hmetric,
        hostValueAt_writeBitout enc _ fun hr => hlen.le.trans (hbitout hr), hostValueAt_afterSoftPass]

end Sys2Proof.Machine
end

section
/-! SUPPORT. The decoder, the assembler and the opcode table agree, and what a step makes of a command word (30_encoding.md R70 to
R83; 60_exceptions.md R216, R220). -/
namespace Sys2Proof

open Sys2Proof.Machine
open Sys2Proof.Laws.ReservedZero (fieldsOf_wordOf)

/-! ### Field values (40_encoder.md R102, R103; 30_encoding.md R72, R75) -/

@[simp] theorem EncState.ofBits_toBits (s : EncState) : EncState.ofBits s.toBits = s := by
  revert s
  decide

@[simp] theorem EncState.toBits_ofBits (v : BitVec 2) : (EncState.ofBits v).toBits = v := by
  revert v
  decide

@[simp] theorem Sym.ofBits_toBits (y : Sym) : Sym.ofBits y.toBits = y := by
  revert y
  decide

@[simp] theorem Sym.toBits_ofBits (v : BitVec 2) : (Sym.ofBits v).toBits = v := by
  revert v
  decide

@[simp] theorem ofBool_getElem_zero (v : BitVec 1) : BitVec.ofBool v[0] = v := by
  revert v
  decide

@[simp] theorem Opcode.ofBits_toBits (o : Opcode) : Opcode.ofBits o.toBits = some o := by cases o <;> rfl

/-! ### The fields that are a command (30_encoding.md R74, R77) -/

/-- The fields of R74 one by one: each is an operand of the opcode or 0. -/
theorem unusedFieldsZero_iff (o : Opcode) (f : CmdFields) :
    unusedFieldsZero o f = true ↔
      (o.usesLen = true ∨ f.len = 0) ∧ (o.usesSyms = true ∨ f.s2 = 0) ∧ (o.usesSyms = true ∨ f.s1 = 0) ∧
        (o.usesSyms = true ∨ f.s0 = 0) ∧ (o.usesB = true ∨ f.b = 0) ∧ (o.usesSt = true ∨ f.st = 0) := by
  simp [unusedFieldsZero, or_and_left, and_assoc]

/-- The fields of a word that is a command with opcode `o`: `OPC` is the opcode's number, and the reserved and unused fields
are 0. -/
structure CmdFields.IsCommand (f : CmdFields) (o : Opcode) : Prop where
  opc : f.opc = o.toBits
  rsv15 : f.rsv15 = 0
  rsv7 : f.rsv7 = 0
  unused : unusedFieldsZero o f = true

/-- A word decodes exactly when its fields are a command, and to what the fields stand for. -/
theorem decode_eq_ok_iff {w : Word} {i : Instr} :
    decode w = .ok i ↔ ∃ o, (fieldsOf w).IsCommand o ∧ i = instrOf (fieldsOf w) o := by
  constructor
  · intro h
    obtain ⟨o, hopc, hrsv15, hrsv7, hunused, hinstr⟩ := decode_cases h
    exact ⟨o, ⟨eq_toBits_of_ofBits hopc, hrsv15, hrsv7, hunused⟩, hinstr⟩
  · rintro ⟨o, ⟨hopc, hrsv15, hrsv7, hunused⟩, rfl⟩
    simp [decode, hopc, hrsv15, hrsv7, hunused]

/-! ### The round trips (R79, R80) -/

/-- The opcode of a command (R75). -/
def Instr.opcode : Instr → Opcode
  | .encStep _ _ => .encStep
  | .encSeq _ _ => .encSeq
  | .laBuild => .laBuild
  | .laLookup _ _ _ _ => .laLookup
  | .laDecode _ => .laDecode
  | .hardDp _ => .hardDp
  | .softDp _ => .softDp

/-- The assembler fills only the fields its command uses. -/
theorem isCommand_fieldsOfInstr (i : Instr) : (fieldsOfInstr i).IsCommand i.opcode := by
  cases i <;> exact ⟨rfl, rfl, rfl, rfl⟩

/-- The operands of a well-formed command are read back from the fields that hold them. -/
theorem instrOf_fieldsOfInstr {i : Instr} (h : i.wellFormed = true) : instrOf (fieldsOfInstr i) i.opcode = i := by
  cases i with
  | encStep st b => simp [instrOf, fieldsOfInstr, Instr.opcode]
  | laBuild => rfl
  | laLookup st s0 s1 s2 => simp [instrOf, fieldsOfInstr, Instr.opcode]
  | encSeq _ len | laDecode len | hardDp len | softDp len =>
    have hlen : len < 2 ^ 16 := of_decide_eq_true h
    simpa [instrOf, fieldsOfInstr, Instr.opcode] using hlen

/-- Settles O2: the fields of the assembled word are the fields it was assembled from, and these are the command's. -/
theorem decodeInvertsEncode : Obligations.DecodeInvertsEncode := by
  intro i hwf
  refine decode_eq_ok_iff.mpr ⟨i.opcode, ?_⟩
  rw [encode, fieldsOf_wordOf]
  exact ⟨isCommand_fieldsOfInstr i, (instrOf_fieldsOfInstr hwf).symm⟩

/-- The fields of a command assemble to themselves: what the command does not use is 0 in both. -/
theorem fieldsOfInstr_instrOf {f : CmdFields} {o : Opcode} (h : f.IsCommand o) : fieldsOfInstr (instrOf f o) = f := by
  obtain ⟨len, rsv15, s2, s1, s0, rsv7, b, st, opc⟩ := f
  obtain ⟨hopc, hrsv15, hrsv7, hunused⟩ := h
  cases o <;>
    simp_all [unusedFieldsZero_iff, Opcode.usesLen, Opcode.usesSyms, Opcode.usesB, Opcode.usesSt, instrOf, fieldsOfInstr,
      CmdFields.ofOpcode]

/-- A 16-bit field holds only a `LEN` that fits (R73). -/
theorem wellFormed_instrOf (f : CmdFields) (o : Opcode) : (instrOf f o).wellFormed = true := by
  cases o with
  | encStep | laBuild | laLookup => rfl
  | encSeq | laDecode | hardDp | softDp => exact decide_eq_true f.len.isLt

/-- Settles O3: a word is the assembly of its fields, and the fields of a command are those of the instruction they stand for. -/
theorem encodeInvertsDecode : Obligations.EncodeInvertsDecode := by
  intro w i h
  obtain ⟨o, hcmd, rfl⟩ := decode_eq_ok_iff.mp h
  exact ⟨wellFormed_instrOf _ o, by rw [encode, fieldsOfInstr_instrOf hcmd, wordOf_fieldsOf]⟩

/-- Settles O1: the word of each row is the assembly of the row's command, and decoding inverts the assembler. -/
theorem commandWordsOfTheSpecDecode : Obligations.CommandWordsOfTheSpecDecode := by
  intro r hr
  obtain ⟨hwf, henc⟩ : r.2.wellFormed = true ∧ encode r.2 = r.1 := by
    revert r
    decide
  exact ⟨henc ▸ decodeInvertsEncode r.2 hwf, henc⟩

/-! ### The opcode table (R74, R78) -/

/-- The mask of one field: nothing where the field is an operand, every bit elsewhere. -/
def fieldMask (n : Nat) (operand : Bool) : BitVec n := if operand then 0 else BitVec.allOnes n

/-- The mask of an opcode's row, field by field. -/
def Opcode.maskFields (o : Opcode) : CmdFields where
  len := fieldMask 16 o.usesLen
  rsv15 := fieldMask 2 false
  s2 := fieldMask 2 o.usesSyms
  s1 := fieldMask 2 o.usesSyms
  s0 := fieldMask 2 o.usesSyms
  rsv7 := fieldMask 1 false
  b := fieldMask 1 o.usesB
  st := fieldMask 2 o.usesSt
  opc := fieldMask 4 false

/-- The mask and match of an opcode's row. -/
def Opcode.row (o : Opcode) : Word × Word := (wordOf o.maskFields, wordOf (CmdFields.ofOpcode o))

/-- The opcode table has one row for each opcode. -/
theorem tableRows_eq_map_row :
    tableRows = [.encStep, .encSeq, .laBuild, .laLookup, .laDecode, .hardDp, .softDp].map Opcode.row := by decide

theorem mem_tableRows_iff (r : Word × Word) : r ∈ tableRows ↔ ∃ o : Opcode, o.row = r := by
  rw [tableRows_eq_map_row, List.mem_map]
  exact exists_congr fun o => and_iff_right (by cases o <;> decide)

/-- Masking acts on each field of a word by itself. -/
theorem wordOf_and_wordOf (f m : CmdFields) :
    wordOf f &&& wordOf m = wordOf ⟨f.len &&& m.len, f.rsv15 &&& m.rsv15, f.s2 &&& m.s2, f.s1 &&& m.s1, f.s0 &&& m.s0,
      f.rsv7 &&& m.rsv7, f.b &&& m.b, f.st &&& m.st, f.opc &&& m.opc⟩ := by
  simp only [wordOf, ← BitVec.and_append]

theorem wordOf_injective : Function.Injective wordOf := Function.LeftInverse.injective fieldsOf_wordOf

theorem and_fieldMask_false {n : Nat} (v : BitVec n) : v &&& fieldMask n false = v := by simp [fieldMask]

theorem and_fieldMask_eq_zero_iff {n : Nat} (v : BitVec n) (operand : Bool) :
    v &&& fieldMask n operand = 0 ↔ operand = true ∨ v = 0 := by
  cases operand <;> simp [fieldMask]

/-- A word meets an opcode's row exactly when its fields are a command with that opcode. -/
theorem and_row_eq_iff (w : Word) (o : Opcode) : w &&& o.row.1 = o.row.2 ↔ (fieldsOf w).IsCommand o := by
  conv_lhs => rw [← wordOf_fieldsOf w]
  rw [Opcode.row, wordOf_and_wordOf, wordOf_injective.eq_iff]
  simp only [CmdFields.ofOpcode, Opcode.maskFields, CmdFields.mk.injEq, and_fieldMask_eq_zero_iff, and_fieldMask_false]
  constructor
  · rintro ⟨hlen, hrsv15, hs2, hs1, hs0, hrsv7, hb, hst, hopc⟩
    exact ⟨hopc, hrsv15, hrsv7, (unusedFieldsZero_iff o _).mpr ⟨hlen, hs2, hs1, hs0, hb, hst⟩⟩
  · rintro ⟨hopc, hrsv15, hrsv7, hunused⟩
    obtain ⟨hlen, hs2, hs1, hs0, hb, hst⟩ := (unusedFieldsZero_iff o _).mp hunused
    exact ⟨hlen, hrsv15, hs2, hs1, hs0, hrsv7, hb, hst, hopc⟩

/-- Settles O4: both sides say that the word's fields are a command. -/
theorem decodeAcceptsExactlyTheTableRows : Obligations.DecodeAcceptsExactlyTheTableRows := by
  intro w
  constructor
  · rintro ⟨i, hi⟩
    obtain ⟨o, hcmd, -⟩ := decode_eq_ok_iff.mp hi
    exact ⟨o.row, (mem_tableRows_iff _).mpr ⟨o, rfl⟩, (and_row_eq_iff w o).mpr hcmd⟩
  · rintro ⟨r, hr, hmeets⟩
    obtain ⟨o, rfl⟩ := (mem_tableRows_iff r).mp hr
    exact ⟨_, decode_eq_ok_iff.mpr ⟨o, (and_row_eq_iff w o).mp hmeets, rfl⟩⟩

end Sys2Proof

namespace Sys2Proof.Machine

/-! ### A command word in one step (R76 to R78; 60_exceptions.md R220) -/

section Issue

variable {S P : Type} {run : Meaning S P} {w : Word} (s : Generic.State S P)

theorem issue_of_decode_ok {i : Instr} (h : decode w = .ok i) :
    issue run w s = absorbFault { s with cmd := w } (run i (beginCommand w s)) := by
  simp only [issue, h]

theorem issue_of_not_decodes (h : ¬ ∃ i, decode w = .ok i) :
    issue run w s = .next (raiseCmdError .illegal (beginCommand w s)) := by
  cases hdec : decode w with
  | ok i => exact absurd ⟨i, hdec⟩ h
  | error r => simp only [issue, hdec]

end Issue

/-- Settles O5: a word that meets no row does not decode, so issuing it raises `ILLEGAL`. -/
theorem illegalWordChangesOnlyStatus : Obligations.IllegalWordChangesOnlyStatus := by
  intro s rest w hp hrows
  have hdec : ¬ ∃ i, decode w = .ok i := fun h =>
    let ⟨r, hr, hmeets⟩ := (decodeAcceptsExactlyTheTableRows w).mp h
    hrows r hr hmeets
  rw [step, stepWith_command exec referenceEnc hp, issue_of_not_decodes _ hdec]
  rfl

/-- Settles O6: issuing a word that decodes runs the command, with a model fault of it absorbed. -/
theorem stepRunsTheDecodedCommand : Obligations.StepRunsTheDecodedCommand := by
  intro s rest w i hp hi
  rw [step, stepWith_command exec referenceEnc hp, issue_of_decode_ok _ hi]
  exact ⟨fun t ht => congrArg (absorbFault _) ht, fun f hf => congrArg (absorbFault _) hf⟩

end Sys2Proof.Machine
end

section
/-! SUPPORT. The code of the encoder: its transitions, its symbol distance, the sequence encoder on a written input, and what the
two predecessors of a node leave in it in the deterministic mode (40_encoder.md R101 to R116; 43_hard_viterbi.md R164 to R167). -/
namespace Sys2Proof.Machine

variable {S P : Type}

/-! ### One node of a time step without draws (43_hard_viterbi.md R166) -/

section Deterministic

variable {κ : Type}

/-- A walk over the nodes that hands its state on unchanged treats each node by itself. -/
theorem get_eachNode {β σ : Type} {node : EncState → σ → β × σ} {x : σ} (h : ∀ n, (node n x).2 = x) (n : EncState) :
    (eachNode node x).1.get n = (node n x).1 := by
  simp only [eachNode, h]
  obtain ⟨_ | _, _ | _⟩ := n <;> rfl

theorem candidate_of_get [Add κ] {prev : Column κ} {p : EncState} {e : Entry κ} (h : prev.get p = some e) (g : GenOrder)
    (metric : Sym → κ) (b : Bit) : candidate g metric prev p b = some ⟨e.cost + metric (outSym g p b), p, b⟩ := by
  rw [candidate, h, Option.map_some]

variable [LinearOrder κ]

/-- Of two candidates the upper one is kept only where it is strictly cheaper. -/
theorem settle_false_some (l u : Entry κ) (d : DrawSource) :
    settle false (some l) (some u) d = (if u.cost < l.cost then some u else some l, d) := by
  simp only [settle, Bool.false_eq_true, and_false, if_false]
  split_ifs <;> rfl

theorem settle_false_draws (lower upper : Option (Entry κ)) (d : DrawSource) : (settle false lower upper d).2 = d := by
  cases lower with
  | none => rfl
  | some l =>
    cases upper with
    | none => rfl
    | some u => rw [settle_false_some]

/-- What the deterministic time step leaves in a node: its two candidates settled without a draw. -/
theorem get_advance_false [Add κ] (g : GenOrder) (metric : Sym → κ) (prev : Column κ) (d : DrawSource) (n : EncState) :
    (advance g false metric prev d).1.get n =
      (settle false (candidate g metric prev ⟨false, n.first⟩ n.second)
        (candidate g metric prev ⟨true, n.first⟩ n.second) d).1 := by
  rw [advance_eq_eachNode, get_eachNode fun m => settle_false_draws _ _ d]

end Deterministic

/-- Settles O39: each node settles its two candidates, the lower predecessor's first. -/
theorem lowerPredecessorWinsTies : Obligations.LowerPredecessorWinsTies := by
  intro κ _ _ g n d metric prev e0 e1 h0 h1
  rw [get_advance_false, candidate_of_get h0, candidate_of_get h1, settle_false_some]

/-! ### The transitions (40_encoder.md R101 to R108) -/

/-- `ENC_STEP` as a whole: it writes `next` and `out` of its operands (R110). -/
theorem execEncStep_eq (st : EncState) (b : Bit) (s : Generic.State S P) :
    execEncStep st b s = .next { s with
      result := { s.result with nextState := nextState st b, symbol := outSym s.params.genOrder st b },
      status := { s.status with err := .ok, busy := false } } := rfl

/-- Settles O27: `ENC_STEP` writes the transition's state and symbol, and the symbol is the two generators in the order of the
generator parameter. -/
theorem encStepWritesTheTransition : Obligations.EncStepWritesTheTransition := by
  intro s st b
  rw [exec_eq_execOf, execOf, execEncStep_eq]
  rfl

/-- `G57` emits the bits of `G75` in the other order (R104). -/
theorem outSym_g57 (s : EncState) (b : Bit) : outSym .g57 s b = ⟨(outSym .g75 s b).c1, (outSym .g75 s b).c0⟩ := rfl

/-- Settles O28: the eight rows are evaluated, and the generator order only exchanges the bits. -/
theorem transitionTableOfTheCode : Obligations.TransitionTableOfTheCode :=
  ⟨fun _ _ _ => rfl, rfl, rfl, rfl, rfl, rfl, rfl, rfl, rfl, outSym_g57⟩

/-- Both generators tap the input bit, so the other input bit complements the symbol (R107). -/
theorem outSym_not (g : GenOrder) (s : EncState) (b : Bit) :
    outSym g s (!b) = ⟨!(outSym g s b).c0, !(outSym g s b).c1⟩ := by
  cases g <;> simp [outSym]

/-- The edges into a node are those on its last bit from the two states whose last bit is its first (R108). -/
theorem nextState_eq_iff (p n : EncState) (b : Bit) :
    nextState p b = n ↔ (p = ⟨false, n.first⟩ ∨ p = ⟨true, n.first⟩) ∧ b = n.second := by
  obtain ⟨_ | _, _⟩ := p <;> obtain ⟨_, _⟩ := n <;> simp [nextState]

theorem bool_toNat_injective : Function.Injective Bool.toNat := by decide

theorem stateNumber_injective : Function.Injective stateNumber := by decide

/-- The predecessors `n >> 1` and `(n >> 1) + 2` of R108 are the states that end in the first bit of `n`. -/
theorem stateNumber_pred (f : Bit) (n : EncState) :
    stateNumber ⟨f, n.first⟩ = stateNumber n / 2 + 2 * f.toNat := by
  have := n.second.toNat_lt
  simp only [stateNumber]
  omega

theorem stateNumber_mod_two (n : EncState) : stateNumber n % 2 = n.second.toNat := by
  have := n.second.toNat_lt
  simp only [stateNumber]
  omega

/-- Settles O29: R107 from the complemented symbol, R108 from the edges into a node read as numbers. -/
theorem transitionsAreDistinctWithTwoPredecessors : Obligations.TransitionsAreDistinctWithTwoPredecessors := by
  refine ⟨fun g s => ⟨fun h => ?_, Bool.false_ne_true, (outSym_ne g s).symm, outSym_not g s false⟩, fun p n b => ?_⟩
  · exact Bool.false_ne_true (congrArg EncState.second h)
  · have hlower : stateNumber p = stateNumber n / 2 ↔ p = ⟨false, n.first⟩ := by
      rw [← stateNumber_injective.eq_iff, stateNumber_pred]
      rfl
    have hupper : stateNumber p = stateNumber n / 2 + 2 ↔ p = ⟨true, n.first⟩ := by
      rw [← stateNumber_injective.eq_iff, stateNumber_pred]
      rfl
    have hbit : b.toNat = stateNumber n % 2 ↔ b = n.second := by
      rw [stateNumber_mod_two, bool_toNat_injective.eq_iff]
    rw [nextState_eq_iff, hlower, hupper, hbit]

/-! ### The symbol distance (40_encoder.md R115, R116) -/

theorem toNat_xor_eq_ite (x y : Bit) : (x ^^ y).toNat = if x = y then 0 else 1 := by
  cases x <;> cases y <;> rfl

theorem toNat_xor_triangle (x y z : Bit) : (x ^^ z).toNat ≤ (x ^^ y).toNat + (y ^^ z).toNat := by
  revert x y z
  decide

/-- Settles O30: the distance is a sum over the two bits, and each clause that is not in the encoder's laws holds bit by bit. -/
theorem symbolDistanceIsAMetric : Obligations.SymbolDistanceIsAMetric := by
  refine ⟨fun a b => ?_, dist_comm, dist_eq_zero_iff, fun a b c => ?_⟩
  · rw [dist, toNat_xor_eq_ite, toNat_xor_eq_ite]
  · have h0 := toNat_xor_triangle a.c0 b.c0 c.c0
    have h1 := toNat_xor_triangle a.c1 b.c1 c.c1
    simp only [dist]
    omega

/-! ### `ENC_SEQ` on a written input (40_encoder.md R112, R114) -/

/-- `ENC_SEQ` on a written input of accepted length writes the encoder's symbols and its last state, and changes nothing else
(R112). -/
theorem execEncSeq_of_holds {s : Generic.State S P} {bits : List Bit} (st : EncState) (hlen : bits.length ≤ s.params.nMax)
    (hholds : s.mem.ibuf.Holds bits) :
    execEncSeq st bits.length s = .next { s with
      mem := { s.mem with symout := s.mem.symout.writeSeq 0 (encodeFrom s.params.genOrder st bits).2 },
      result := { s.result with finalState := endState st bits },
      status := { s.status with err := .ok, busy := false } } := by
  have haccepted : encodeLengthOk s bits.length = true := (encodeLengthOk_eq_true_iff s bits.length).mpr hlen
  simp [execEncSeq, haccepted, readSeq_of_holds hholds, complete, Generic.State.setFinalState, Generic.State.writeSymout]

/-- Settles O31: symbol by symbol, from what the encoder emits and what a run of writes leaves. -/
theorem encSeqEncodesTheInput : Obligations.EncSeqEncodesTheInput := by
  intro s st bits hlen hholds
  refine ⟨_, (exec_eq_execOf _ s).trans (execEncSeq_of_holds st hlen hholds), fun i => ?_⟩
  rw [wrote_writeSeq, length_encodeFrom]
  refine if_ctx_congr Iff.rfl (fun hi => ?_) fun _ => rfl
  rw [encodeFrom_get s.params.genOrder st bits i hi, List.getD_eq_getElem bits false hi]

/-- The encoder state is a window of two bits over the stream of the start state's bits and then the input (R100, R114). -/
theorem endState_window (st : EncState) (bits : List Bit) :
    (st.first :: st.second :: bits)[bits.length]? = some (endState st bits).first ∧
    (st.first :: st.second :: bits)[bits.length + 1]? = some (endState st bits).second := by
  induction bits generalizing st with
  | nil => exact ⟨rfl, rfl⟩
  | cons b bs ih => exact ih (nextState st b)

theorem eq_stateZero_iff (s : EncState) : s = stateZero ↔ s.first = false ∧ s.second = false := by
  revert s
  decide

/-- An `ENC_SEQ` without error has read its input, and its final state is the one the input leads to (R112). -/
theorem finalState_of_execEncSeq {st : EncState} {len : Nat} {s t : Generic.State S P} (h : execEncSeq st len s = .next t)
    (hok : t.status.err = .ok) :
    ∃ bits, s.mem.ibuf.readSeq 0 len = some bits ∧ t.result.finalState = endState st bits := by
  rcases execEncSeq_cases h with ⟨-, rfl⟩ | ⟨-, bits, hbits, rfl⟩
  · cases hok
  · exact ⟨bits, hbits, encodeFrom_state _ st bits⟩

/-- Settles O32: how far the window over the start state and the input has slid says which of the two its bits come from. -/
theorem finalStateIsTheLastTwoBits : Obligations.FinalStateIsTheLastTwoBits := by
  intro s t st len h hok
  rw [exec_eq_execOf] at h
  obtain ⟨bits, hbits, hfinal⟩ := finalState_of_execEncSeq h hok
  obtain ⟨rfl, hread⟩ := (readSeq_eq_some_iff s.mem.ibuf 0 len bits).mp hbits
  simp only [Nat.zero_add] at hread
  obtain ⟨hfirst, hsecond⟩ := endState_window st bits
  rw [hfinal]
  refine ⟨fun hlen => ?_, fun hlen => ?_, fun hlen => ?_⟩
  · obtain ⟨k, hk⟩ := Nat.exists_eq_add_of_le' hlen
    rw [hk] at hfirst hsecond
    have hread0 : s.mem.ibuf.read k = some (endState st bits).first := (hread k (by omega)).trans hfirst
    have hread1 : s.mem.ibuf.read (k + 1) = some (endState st bits).second := (hread (k + 1) (by omega)).trans hsecond
    rw [hk, show k + 2 - 2 = k from rfl, show k + 2 - 1 = k + 1 from rfl, hread0, hread1]
    simp [eq_stateZero_iff]
  · rw [hlen] at hfirst hsecond
    exact ⟨(Option.some.inj hfirst).symm, (hread 0 (by omega)).trans hsecond⟩
  · rw [List.eq_nil_of_length_eq_zero hlen, endState_nil]

end Sys2Proof.Machine
end

section
/-! SUPPORT. The host-side channel functions (41_channel_interface.md R121 to R124); the survivor of a node is a nearest path to it
(43_hard_viterbi.md R160 to R168), for costs of every kind; and observations that a decoder cannot mistake. -/
namespace Sys2Proof.Machine

variable {S P : Type}

/-! ### The channel functions (41_channel_interface.md R121 to R124) -/

section Channel

variable [CommRing S]

@[simp] theorem pm_true : (pm true : S) = 1 := rfl

@[simp] theorem pm_false : (pm false : S) = -1 := rfl

@[simp] theorem addNoise_zero (y : Sym) (g0 g1 : S) : addNoise y 0 g0 g1 = point y := by simp [addNoise, point]

variable [LinearOrder S] [IsStrictOrderedRing S]

/-- Noise of magnitude below 1 does not carry a coordinate over 0. -/
theorem decide_nonneg_pm_add (c : Bit) {e : S} (hlow : -1 < e) (hhigh : e < 1) : decide (0 ≤ pm c + e) = c := by
  cases c with
  | false =>
    rw [pm_false, decide_eq_false_iff_not]
    linarith
  | true =>
    rw [pm_true, decide_eq_true_iff]
    linarith

/-- Noise of magnitude below 1 leaves a coordinate strictly nearer to its own constellation value than to the other one. -/
theorem pm_add_sub_mul_self_lt {c c' : Bit} (hne : c' ≠ c) {e : S} (hlow : -1 < e) (hhigh : e < 1) :
    (pm c + e - pm c) * (pm c + e - pm c) < (pm c + e - pm c') * (pm c + e - pm c') := by
  obtain rfl : c' = !c := Bool.eq_not_of_ne hne
  cases c with
  | false =>
    rw [Bool.not_false, pm_false, pm_true]
    linarith
  | true =>
    rw [Bool.not_true, pm_false, pm_true]
    linarith

theorem pm_add_sub_mul_self_le (c c' : Bit) {e : S} (hlow : -1 < e) (hhigh : e < 1) :
    (pm c + e - pm c) * (pm c + e - pm c) ≤ (pm c + e - pm c') * (pm c + e - pm c') := by
  by_cases hc : c' = c
  · rw [hc]
  · exact (pm_add_sub_mul_self_lt hc hlow hhigh).le

end Channel

/-- Settles O52: the sign of each coordinate gives its bit back, and no noise is noise below 1. -/
theorem quantizeRemovesNoiseBelowOne : Obligations.QuantizeRemovesNoiseBelowOne := by
  intro S _ _ _
  have hnoise (y : Sym) (sigma g0 g1 : S) (hlow0 : -1 < sigma * g0) (hhigh0 : sigma * g0 < 1) (hlow1 : -1 < sigma * g1)
      (hhigh1 : sigma * g1 < 1) : quantize (addNoise y sigma g0 g1) = y :=
    congrArg₂ Sym.mk (decide_nonneg_pm_add y.c0 hlow0 hhigh0) (decide_nonneg_pm_add y.c1 hlow1 hhigh1)
  refine ⟨hnoise, addNoise_zero, fun y => ?_⟩
  rw [← addNoise_zero y 0 0]
  exact hnoise y 0 0 0 (by simp) (by simp) (by simp) (by simp)

/-! ### Symbols that an observation favours -/

/-- The two transitions out of a state emit different symbols (40_encoder.md R107). -/
theorem outSym_injective (g : GenOrder) (s : EncState) : Function.Injective (outSym g s) := by
  rintro (_ | _) (_ | _) heq
  · rfl
  · exact absurd heq.symm (outSym_ne g s)
  · exact absurd heq (outSym_ne g s)
  · rfl

section Favours

variable {κ ω : Type} [LinearOrder κ]

/-- The observation is strictly nearer to the symbol than to every other one. -/
def Favours (metric : ω → Sym → κ) (y : Sym) (o : ω) : Prop := ∀ y', y' ≠ y → metric o y < metric o y'

theorem Favours.le {metric : ω → Sym → κ} {y : Sym} {o : ω} (h : Favours metric y o) (y' : Sym) :
    metric o y ≤ metric o y' := by
  by_cases hy : y' = y
  · rw [hy]
  · exact (h y' hy).le

end Favours

/-! ### Input paths into a node (40_encoder.md R108; 43_hard_viterbi.md R160) -/

/-- An input path from state 0 over `len` time steps that ends in `n`. -/
def PathTo (len : Nat) (n : EncState) (bits : List Bit) : Prop := bits.length = len ∧ endState stateZero bits = n

/-- A path of one step or more into a node is a path into one of its two predecessors and an edge on the node's last bit. -/
theorem pathTo_succ_iff {len : Nat} {n : EncState} {bits : List Bit} :
    PathTo (len + 1) n bits ↔ ∃ older front, PathTo len ⟨older, n.first⟩ front ∧ bits = front ++ [n.second] := by
  constructor
  · rintro ⟨hlen, rfl⟩
    obtain ⟨front, b, rfl⟩ : ∃ front b, bits = front ++ [b] :=
      (List.eq_nil_or_concat' bits).resolve_left (List.ne_nil_of_length_eq_add_one hlen)
    rw [endState_append]
    exact ⟨(endState stateZero front).first, front, ⟨by simpa using hlen, rfl⟩, rfl⟩
  · rintro ⟨older, front, ⟨hlen, hend⟩, rfl⟩
    refine ⟨by simp [hlen], ?_⟩
    rw [endState_append, hend]
    rfl

section Nearest

variable {κ ω : Type}

theorem pathCost_append_one [AddMonoid κ] (g : GenOrder) (metric : ω → Sym → κ) (s : EncState) {bits : List Bit} {os : List ω}
    (hlen : bits.length = os.length) (b : Bit) (o : ω) :
    pathCost g metric s (bits ++ [b]) (os ++ [o]) =
      pathCost g metric s bits os + metric o (outSym g (endState s bits) b) := by
  induction bits generalizing s os with
  | nil =>
    obtain rfl := List.eq_nil_of_length_eq_zero hlen.symm
    simp
  | cons b' bits ih =>
    obtain ⟨o', os, rfl⟩ := List.exists_cons_of_length_eq_add_one hlen.symm
    simp [ih (nextState s b') (Nat.succ.inj hlen), add_assoc]

/-! ### The survivor of a node is a nearest path to it (43_hard_viterbi.md R165 to R168) -/

/-- The survivor of the predecessor `⟨older, n.first⟩` extended over its edge into `n` (R108, R165). -/
def alongEdge [Add κ] (g : GenOrder) (metric : Sym → κ) (v : Survivals κ) (n : EncState) (older : Bit) :
    Option (κ × List Bit) :=
  (v.1.get ⟨older, n.first⟩).map fun x => (x.1 + metric (outSym g ⟨older, n.first⟩ n.second), x.2 ++ [n.second])

/-- `x` is a path into `n` over the observations with its cost, and no other path into `n` is cheaper; it is none only where no path
leads to `n`. -/
structure NearestTo [Zero κ] [Add κ] [LE κ] (g : GenOrder) (metric : ω → Sym → κ) (os : List ω) (n : EncState)
    (x : Option (κ × List Bit)) : Prop where
  isPath : ∀ cost bits, x = some (cost, bits) → PathTo os.length n bits ∧ cost = pathCost g metric stateZero bits os
  isLeast : ∀ other, PathTo os.length n other → ∃ y, x = some y ∧ y.1 ≤ pathCost g metric stateZero other os

section LinearOrder

variable [LinearOrder κ]

/-- Everything the survivor of a node can be, in both tie modes and for every draw (R165 to R167): the one path there is, or one of
two that is not dearer than the other, or nothing. -/
theorem survivorOf_cases (rt : Bool) (draws : Nat → Bool) (k : Nat) (x y : Option (κ × List Bit)) :
    (x = none ∧ (survivorOf rt draws k x y).1 = y) ∨ (y = none ∧ (survivorOf rt draws k x y).1 = x) ∨
    ∃ lower upper, x = some lower ∧ y = some upper ∧
      (((survivorOf rt draws k x y).1 = some lower ∧ lower.1 ≤ upper.1) ∨
       ((survivorOf rt draws k x y).1 = some upper ∧ upper.1 ≤ lower.1)) := by
  cases x with
  | none => exact .inl ⟨rfl, rfl⟩
  | some lower =>
    cases y with
    | none => exact .inr (.inl ⟨rfl, rfl⟩)
    | some upper =>
      refine .inr (.inr ⟨lower, upper, rfl, rfl, ?_⟩)
      rcases lt_trichotomy lower.1 upper.1 with hlt | heq | hgt
      · exact .inl ⟨by simp [survivorOf, hlt], hlt.le⟩
      · cases rt with
        | false => exact .inl ⟨by simp [survivorOf, heq], heq.le⟩
        | true =>
          cases hdraw : draws k
          · exact .inl ⟨by simp [survivorOf, heq, hdraw], heq.le⟩
          · exact .inr ⟨by simp [survivorOf, heq, hdraw], heq.ge⟩
      · exact .inr ⟨by simp [survivorOf, hgt, hgt.not_gt], hgt.le⟩

/-- The survivor is one of the two paths that reach the node. -/
theorem exists_survivorOf_eq (rt : Bool) (draws : Nat → Bool) (k : Nat) (into : Bit → Option (κ × List Bit)) :
    ∃ older, (survivorOf rt draws k (into false) (into true)).1 = into older := by
  rcases survivorOf_cases rt draws k (into false) (into true) with
    ⟨-, h⟩ | ⟨-, h⟩ | ⟨lower, upper, hlower, hupper, ⟨h, -⟩ | ⟨h, -⟩⟩
  · exact ⟨true, h⟩
  · exact ⟨false, h⟩
  · exact ⟨false, h.trans hlower.symm⟩
  · exact ⟨true, h.trans hupper.symm⟩

/-- The survivor is not dearer than either path that reaches the node. -/
theorem survivorOf_le (rt : Bool) (draws : Nat → Bool) (k : Nat) {into : Bit → Option (κ × List Bit)} {older : Bit}
    {w : κ × List Bit} (hw : into older = some w) :
    ∃ z, (survivorOf rt draws k (into false) (into true)).1 = some z ∧ z.1 ≤ w.1 := by
  rcases survivorOf_cases rt draws k (into false) (into true) with
    ⟨hnone, h⟩ | ⟨hnone, h⟩ | ⟨lower, upper, hlower, hupper, ⟨h, hle⟩ | ⟨h, hle⟩⟩ <;> cases older
  · cases hnone.symm.trans hw
  · exact ⟨w, h.trans hw, le_rfl⟩
  · exact ⟨w, h.trans hw, le_rfl⟩
  · cases hnone.symm.trans hw
  · cases hlower.symm.trans hw
    exact ⟨w, h, le_rfl⟩
  · cases hupper.symm.trans hw
    exact ⟨lower, h, hle⟩
  · cases hlower.symm.trans hw
    exact ⟨upper, h, hle⟩
  · cases hupper.symm.trans hw
    exact ⟨w, h, le_rfl⟩

variable [Add κ]

/-- Each node of a time step has the survivor of the paths over its two predecessors (R164). -/
theorem extendSurvivors_get (g : GenOrder) (rt : Bool) (draws : Nat → Bool) (metric : Sym → κ) (v : Survivals κ)
    (n : EncState) :
    ∃ k, (extendSurvivors g rt draws metric v).1.get n =
      (survivorOf rt draws k (alongEdge g metric v n false) (alongEdge g metric v n true)).1 := by
  obtain ⟨_ | _, _ | _⟩ := n <;> exact ⟨_, rfl⟩

variable [Zero κ]

/-- Before the first step the one path is the empty one, at state 0 (R163). -/
theorem nearestTo_nil (g : GenOrder) (metric : ω → Sym → κ) (n : EncState) :
    NearestTo g metric [] n ((⟨some (0, []), none, none, none⟩ : PerState (Option (κ × List Bit))).get n) where
  isPath cost bits hx := by
    obtain ⟨_ | _, _ | _⟩ := n <;> cases hx
    exact ⟨⟨rfl, rfl⟩, (pathCost_nil ..).symm⟩
  isLeast other hother := by
    obtain ⟨hlen, rfl⟩ := hother
    obtain rfl := List.eq_nil_of_length_eq_zero hlen
    exact ⟨(0, []), rfl, (pathCost_nil ..).ge⟩

end LinearOrder

variable [AddCommMonoid κ] [LinearOrder κ] [IsOrderedCancelAddMonoid κ]

/-- One time step hands on that the survivors are nearest (R165, R168). -/
theorem nearestTo_extendSurvivors {g : GenOrder} {metric : ω → Sym → κ} {os : List ω} {v : Survivals κ}
    (h : ∀ n, NearestTo g metric os n (v.1.get n)) (rt : Bool) (draws : Nat → Bool) (o : ω) (n : EncState) :
    NearestTo g metric (os ++ [o]) n ((extendSurvivors g rt draws (metric o) v).1.get n) := by
  obtain ⟨k, hk⟩ := extendSurvivors_get g rt draws (metric o) v n
  rw [hk]
  constructor
  · intro cost bits hx
    obtain ⟨older, holder⟩ := exists_survivorOf_eq rt draws k (alongEdge g (metric o) v n)
    obtain ⟨⟨c, front⟩, hfront, heq⟩ := Option.map_eq_some_iff.mp (holder.symm.trans hx)
    cases heq
    obtain ⟨hpath, rfl⟩ := (h _).isPath c front hfront
    rw [List.length_append, pathCost_append_one g metric stateZero hpath.1, hpath.2]
    exact ⟨pathTo_succ_iff.mpr ⟨older, front, hpath, rfl⟩, rfl⟩
  · intro other hother
    rw [List.length_append] at hother
    obtain ⟨older, front, hpath, rfl⟩ := pathTo_succ_iff.mp hother
    obtain ⟨y, hy, hle⟩ := (h _).isLeast front hpath
    obtain ⟨z, hz, hzle⟩ := survivorOf_le rt draws k (into := alongEdge g (metric o) v n)
      (Option.map_eq_some_iff.mpr ⟨y, hy, rfl⟩)
    refine ⟨z, hz, hzle.trans ?_⟩
    rw [pathCost_append_one g metric stateZero hpath.1, hpath.2]
    exact add_le_add_left hle _

/-- The survivor of every node is a nearest path to it, by induction on the observations. -/
theorem survivorPaths_nearest (g : GenOrder) (rt : Bool) (draws : Nat → Bool) (metric : ω → Sym → κ) (os : List ω)
    (n : EncState) : NearestTo g metric os n ((survivorPaths g rt draws metric os).1.get n) := by
  induction os using List.reverseRecOn generalizing n with
  | nil => exact nearestTo_nil g metric n
  | append_singleton os o ih =>
    rw [survivorPaths, List.foldl_append]
    exact nearestTo_extendSurvivors ih rt draws o n

/-- The decoder's best path is a nearest path from state 0 to state 0, in both tie modes and for every draw (R168). -/
theorem bestPath_forward_nearest (g : GenOrder) (rt : Bool) (metric : ω → Sym → κ) {os : List ω} (hne : os ≠ [])
    (d : DrawSource) :
    ∃ bits, bestPath (forward g rt metric os (initialColumn κ) d).1 = some (bits, pathCost g metric stateZero bits os) ∧
      PathTo os.length stateZero bits ∧
      ∀ other, PathTo os.length stateZero other →
        pathCost g metric stateZero bits os ≤ pathCost g metric stateZero other os := by
  obtain ⟨⟨cost, bits⟩, hsurvivor⟩ :=
    Option.isSome_iff_exists.mp (survivorPaths_stateZero_isSome g rt (drawAt d) metric os)
  have hnearest := survivorPaths_nearest g rt (drawAt d) metric os stateZero
  obtain ⟨hpath, rfl⟩ := hnearest.isPath _ _ hsurvivor
  refine ⟨bits, ?_, hpath, fun other hother => ?_⟩
  · rw [(bestPath_forward g rt metric hne d).1, hsurvivor]
    rfl
  · obtain ⟨y, hy, hle⟩ := hnearest.isLeast other hother
    cases hsurvivor.symm.trans hy
    exact hle

/-! ### The decoder on observations that favour the symbols sent -/

/-- Where the observations favour the symbols of a path, no path is nearer, from whatever state it starts. -/
theorem pathCost_le_of_favours {g : GenOrder} {metric : ω → Sym → κ} {s : EncState} {bits : List Bit} {os : List ω}
    (h : List.Forall₂ (Favours metric) (encodeFrom g s bits).2 os) (s' : EncState) {other : List Bit}
    (hlen : other.length = bits.length) : pathCost g metric s bits os ≤ pathCost g metric s' other os := by
  induction bits generalizing s s' other os with
  | nil =>
    obtain rfl := List.eq_nil_of_length_eq_zero hlen
    simp
  | cons b bits ih =>
    obtain ⟨b', other, rfl⟩ := List.exists_cons_of_length_eq_add_one hlen
    obtain ⟨o, os, ho, hos, rfl⟩ := List.forall₂_cons_left_iff.mp h
    exact add_le_add (ho.le _) (ih hos _ (Nat.succ.inj hlen))

/-- Where the observations favour the symbols of a path, every other path from its start is dearer: where the two part, the
symbols differ (40_encoder.md R107). -/
theorem eq_of_pathCost_le_of_favours {g : GenOrder} {metric : ω → Sym → κ} {s : EncState} {bits : List Bit} {os : List ω}
    (h : List.Forall₂ (Favours metric) (encodeFrom g s bits).2 os) {other : List Bit} (hlen : other.length = bits.length)
    (hle : pathCost g metric s other os ≤ pathCost g metric s bits os) : other = bits := by
  induction bits generalizing s other os with
  | nil => exact List.eq_nil_of_length_eq_zero hlen
  | cons b bits ih =>
    obtain ⟨b', other, rfl⟩ := List.exists_cons_of_length_eq_add_one hlen
    obtain ⟨o, os, ho, hos, rfl⟩ := List.forall₂_cons_left_iff.mp h
    rw [pathCost_cons, pathCost_cons] at hle
    by_cases hb : b' = b
    · subst hb
      rw [ih hos (Nat.succ.inj hlen) (le_of_add_le_add_left hle)]
    · have hsym : outSym g s b' ≠ outSym g s b := fun heq => hb (outSym_injective g s heq)
      have hrest := pathCost_le_of_favours hos (nextState s b') (Nat.succ.inj hlen)
      exact absurd hle (add_lt_add_of_lt_of_le (ho _ hsym) hrest).not_ge

/-- The decoder returns an input that leads from state 0 to state 0 when every observation favours the symbol of its step. -/
theorem bestPath_forward_of_favours {g : GenOrder} {metric : ω → Sym → κ} {bits : List Bit} {os : List ω} (hne : bits ≠ [])
    (hend : endState stateZero bits = stateZero) (h : List.Forall₂ (Favours metric) (encodeFrom g stateZero bits).2 os)
    (rt : Bool) (d : DrawSource) :
    bestPath (forward g rt metric os (initialColumn κ) d).1 = some (bits, pathCost g metric stateZero bits os) := by
  have hlen : bits.length = os.length := (length_encodeFrom g stateZero bits).symm.trans h.length_eq
  have hos : os ≠ [] := fun hnil => hne (List.eq_nil_of_length_eq_zero (by rw [hlen, hnil, List.length_nil]))
  obtain ⟨best, hbest, hpath, hleast⟩ := bestPath_forward_nearest g rt metric hos d
  have heq : best = bits := eq_of_pathCost_le_of_favours h (hpath.1.trans hlen.symm) (hleast bits ⟨hlen, hend⟩)
  rw [hbest, heq]

end Nearest

theorem TailForced.two_le_length {bits : List Bit} (h : TailForced bits) : 2 ≤ bits.length := by
  obtain ⟨front, rfl⟩ := h
  simp

/-- A tail-forced input leads to state 0 (40_encoder.md R113, R114). -/
theorem TailForced.endState_eq {bits : List Bit} (h : TailForced bits) (s : EncState) : endState s bits = stateZero := by
  obtain ⟨front, rfl⟩ := h
  exact endState_append_two s front false false

/-! ### `SOFT_DP` on written observations (44_soft_viterbi.md R190, R196) -/

section Soft

theorem readSoftObs_of_holds {m : Memory S} {os : List (S × S)} (hx : m.sobsX.Holds (os.map (·.1)))
    (hy : m.sobsY.Holds (os.map (·.2))) : readSoftObs m os.length = some os := by
  have hxs := readSeq_of_holds hx
  have hys := readSeq_of_holds hy
  rw [List.length_map] at hxs hys
  simp only [readSoftObs, hxs, hys, Option.some.injEq]
  exact (List.zip_of_prod rfl rfl).symm

/-- Observations that stand at the indices of a list of symbols, each in a relation to its symbol, read. -/
theorem exists_readSoftObs {R : Sym → S × S → Prop} {m : Memory S} {ys : List Sym}
    (h : ∀ i (hi : i < ys.length), ∃ o, R ys[i] o ∧ m.sobsX.read i = some o.1 ∧ m.sobsY.read i = some o.2) :
    ∃ os, readSoftObs m ys.length = some os ∧ List.Forall₂ R ys os := by
  choose obs hrel hx hy using h
  let os := List.ofFn fun i : Fin ys.length => obs i i.isLt
  have hlen : os.length = ys.length := List.length_ofFn
  refine ⟨os, ?_, List.forall₂_of_length_eq_of_get hlen.symm fun i hi _ => ?_⟩
  · rw [← hlen]
    refine readSoftObs_of_holds (fun i hi => ?_) fun i hi => ?_ <;> rw [List.length_map, hlen] at hi
    · simp [os, hi, hx]
    · simp [os, hi, hy]
  · simpa [os] using hrel i hi

variable [CommRing S] [LinearOrder S]

/-- `SOFT_DP` on written observations of accepted length completes with the best path it finds, and changes nothing else but
`MEMO` (R196). -/
theorem execSoftDp_of_bestPath {s : Generic.State S P} {len : Nat} {os : List (S × S)} {bits : List Bit} {cost : S}
    (hlow : 2 ≤ len) (hhigh : len ≤ s.params.nMax) (hread : readSoftObs s.mem len = some os)
    (hbest : bestPath (softPass s os).1 = some (bits, cost)) :
    execSoftDp len s = .next { s with
      mem := { s.mem with bitout := s.mem.bitout.writeSeq 0 bits }, smetric := cost, memo := (afterSoftPass s os).memo,
      status := { s.status with err := .ok, busy := false } } := by
  have hok : decodeLengthOk s len = true := (decodeLengthOk_eq_true_iff s len).mpr ⟨hlow, hhigh⟩
  simp [execSoftDp, hok, hread, hbest, complete, Generic.State.setSmetric, Generic.State.writeBitout]

variable [IsStrictOrderedRing S]

/-- The noisy point of a symbol is strictly nearer to its point than to every other one (R190; 95_test_vectors.md §1.6). -/
theorem favours_of_noise_below_one (y : Sym) {e0 e1 : S} (hlow0 : -1 < e0) (hhigh0 : e0 < 1) (hlow1 : -1 < e1)
    (hhigh1 : e1 < 1) : Favours bmSoft y ((point y : S × S).1 + e0, (point y : S × S).2 + e1) := by
  intro y' hne
  by_cases h0 : y'.c0 = y.c0
  · have h1 : y'.c1 ≠ y.c1 := fun h1 => hne (congrArg₂ Sym.mk h0 h1)
    exact add_lt_add_of_le_of_lt (pm_add_sub_mul_self_le _ _ hlow0 hhigh0) (pm_add_sub_mul_self_lt h1 hlow1 hhigh1)
  · exact add_lt_add_of_lt_of_le (pm_add_sub_mul_self_lt h0 hlow0 hhigh0) (pm_add_sub_mul_self_le _ _ hlow1 hhigh1)

end Soft

/-- Settles O49: each observation favours the symbol sent, so the input is the one nearest path. -/
theorem softDpCorrectsNoiseBelowOne : Obligations.SoftDpCorrectsNoiseBelowOne := by
  intro S P _ _ _ s u bits hlen htail hholds hparams
  refine ⟨_, execEncSeq_of_holds stateZero hlen hholds, fun hnoise => ?_⟩
  have hobs (i : Nat) (hi : i < (encodeFrom s.params.genOrder stateZero bits).2.length) :
      ∃ o, Favours bmSoft (encodeFrom s.params.genOrder stateZero bits).2[i] o ∧
        u.mem.sobsX.read i = some o.1 ∧ u.mem.sobsY.read i = some o.2 := by
    have hsymout := ((wrote_writeSeq s.mem.symout _ i).trans (if_pos hi)).trans (List.getElem?_eq_getElem hi)
    obtain ⟨e0, e1, hlow0, hhigh0, hlow1, hhigh1, hx, hy⟩ := hnoise i (length_encodeFrom .. ▸ hi) _ hsymout
    exact ⟨_, favours_of_noise_below_one _ hlow0 hhigh0 hlow1 hhigh1, hx, hy⟩
  obtain ⟨os, hread, hfavours⟩ := exists_readSoftObs hobs
  rw [length_encodeFrom] at hread
  rw [← hparams] at hlen hfavours
  have hlow : 2 ≤ bits.length := htail.two_le_length
  have hbest := bestPath_forward_of_favours (List.ne_nil_of_length_pos (by omega)) (htail.endState_eq stateZero) hfavours
    false u.draws
  exact ⟨_, execSoftDp_of_bestPath hlow hlen hread hbest, rfl,
    fun i hi => (wrote_writeSeq u.mem.bitout bits i).trans (if_pos hi)⟩

end Sys2Proof.Machine
end

section
/-! SUPPORT. The look-ahead decoder: each cell of the build is the majority vote of the four survivors and no tie occurs, the
looked-up cell, and the sliding window on written observations and on the symbols of the encoder (42_lookahead.md R130 to R152). -/
namespace Sys2Proof.Machine

variable {S P : Type}

/-! ### The distances of a cell's hypotheses (40_encoder.md R104, R107, R115) -/

/-- Complementary symbols are, together, two bits away from every symbol. -/
theorem dist_outSym_not_add (g : GenOrder) (s : EncState) (b : Bit) (r : Sym) :
    dist (outSym g s (!b)) r + dist (outSym g s b) r = 2 := by
  rw [outSym_not]
  generalize outSym g s b = y
  revert y r
  decide

theorem dist_outSym_add (g : GenOrder) (s : EncState) (r : Sym) :
    dist (outSym g s true) r + dist (outSym g s false) r = 2 := dist_outSym_not_add g s false r

/-- Both generators tap the older state bit and the input bit, so flipping the one is flipping the other. -/
theorem outSym_older_true (g : GenOrder) (b b' : Bit) : outSym g ⟨true, b⟩ b' = outSym g ⟨false, b⟩ (!b') := by
  cases g <;> simp [outSym]

/-- One generator only taps the newer state bit, so flipping it moves the symbol by one bit. -/
theorem dist_outSym_newer_odd (g : GenOrder) (f b : Bit) (r : Sym) :
    (dist (outSym g ⟨f, true⟩ b) r + dist (outSym g ⟨f, false⟩ b) r) % 2 = 1 := by
  cases g <;> revert f b r <;> decide

/-- The distance of the hypothesis `(b0, b1, b2)` (42_lookahead.md R132), with the state spelled out at each step. -/
theorem pathCost_hypothesis (g : GenOrder) (s : EncState) (b0 b1 b2 : Bit) (r0 r1 r2 : Sym) :
    pathCost g bmHard s [b0, b1, b2] [r0, r1, r2] =
      dist (outSym g s b0) r0 + (dist (outSym g ⟨s.second, b0⟩ b1) r1 + dist (outSym g ⟨b0, b1⟩ b2) r2) := rfl

/-- The two hypotheses of an end state are never equally near: their distances have an odd sum (42_lookahead.md R140). -/
theorem pathCost_hypotheses_odd (g : GenOrder) (s : EncState) (b1 b2 : Bit) (r0 r1 r2 : Sym) :
    (pathCost g bmHard s [true, b1, b2] [r0, r1, r2] + pathCost g bmHard s [false, b1, b2] [r0, r1, r2]) % 2 = 1 := by
  have hfirst := dist_outSym_add g s r0
  have hsecond := dist_outSym_newer_odd g s.second b1 r1
  have hthird := dist_outSym_not_add g ⟨false, b1⟩ b2 r2
  rw [pathCost_hypothesis, pathCost_hypothesis, outSym_older_true]
  omega

/-- The first received symbol sways the vote: where it is the symbol of first bit 0 at most one end state votes 1, where it is the
symbol of first bit 1 at least three do, and otherwise one or three. For one second bit `b1` the third symbol gives neither first
bit an advantage; for the other it gives an advantage of two, to opposite first bits for the two third bits. -/
theorem onesVote_cases (g : GenOrder) (s : EncState) (r0 r1 r2 : Sym) :
    (dist (outSym g s false) r0 = 0 ∧ onesVote g s r0 r1 r2 ≤ 1) ∨
    (dist (outSym g s false) r0 = 1 ∧ (onesVote g s r0 r1 r2 = 1 ∨ onesVote g s r0 r1 r2 = 3)) ∨
    (dist (outSym g s false) r0 = 2 ∧ 3 ≤ onesVote g s r0 r1 r2) := by
  have hfirst := dist_outSym_add g s r0
  have hsecond1 := dist_outSym_add g ⟨s.second, true⟩ r1
  have hsecond0 := dist_outSym_add g ⟨s.second, false⟩ r1
  have hsecondOdd := dist_outSym_newer_odd g s.second false r1
  have hthird1 := dist_outSym_add g ⟨false, true⟩ r2
  have hthird0 := dist_outSym_add g ⟨false, false⟩ r2
  have hthirdOdd := dist_outSym_newer_odd g false false r2
  simp only [onesVote, pathCost_hypothesis, outSym_older_true, Bool.toNat, Bool.cond_decide, Bool.not_true, Bool.not_false]
  split_ifs <;> omega

/-- The vote of a cell is never 2 (42_lookahead.md R140). -/
theorem onesVote_ne_two (g : GenOrder) (s : EncState) (r0 r1 r2 : Sym) : onesVote g s r0 r1 r2 ≠ 2 := by
  rcases onesVote_cases g s r0 r1 r2 with ⟨-, h⟩ | ⟨-, h⟩ | ⟨-, h⟩ <;> omega

/-- A first symbol without an error decides the vote, whatever the other two are. -/
theorem majority_of_first_symbol (g : GenOrder) (s : EncState) (b : Bit) (r1 r2 : Sym) :
    decide (2 < onesVote g s (outSym g s b) r1 r2) = b := by
  have hcases := onesVote_cases g s (outSym g s b) r1 r2
  cases b with
  | false =>
    rw [dist_self] at hcases
    exact decide_eq_false (by omega)
  | true =>
    have hsum := dist_outSym_add g s (outSym g s true)
    rw [dist_self] at hsum
    exact decide_eq_true (by omega)

/-! ### One cell of the build (42_lookahead.md R130 to R136) -/

section Cell

variable (g : GenOrder) (laTie : Bool) (s : EncState) (r0 r1 r2 : Sym)

/-- `replay` adds up the branch metrics of the path it walks (R132). -/
theorem replay_eq (d : Nat) (pairs : List (Bit × Sym)) :
    replay g s d pairs = (endState s (pairs.map (·.1)), d + pathCost g bmHard s (pairs.map (·.1)) (pairs.map (·.2))) := by
  induction pairs generalizing s d with
  | nil => simp [replay]
  | cons p pairs ih => simp [replay, ih, bmHard, Nat.add_assoc]

variable {laTie} {e : EncState} {d : Nat} {b0 b1 b2 : Bit} {surv surv' : Survivors} {hyps : List (Bit × Bit × Bit)}

/-- The first hypothesis of an end state becomes its survivor (R133). -/
theorem consider_of_none (h : surv.get e = none) : consider laTie e d b0 surv = .ok (surv.set e (some ⟨d, b0⟩)) := by
  simp only [consider, h]

/-- A hypothesis that is not as near as the survivor leaves the nearer of the two, under both tie policies (R133). -/
theorem consider_of_some {old : Survivor} (h : surv.get e = some old) (hne : d ≠ old.d) :
    consider laTie e d b0 surv = .ok (surv.set e (some (if d < old.d then ⟨d, b0⟩ else old))) := by
  simp only [consider, h, hne, false_and, if_false]
  split
  · rfl
  · rw [set_get_self surv e h]

/-- The hypothesis `(b0, b1, b2)` as the survivor of its end state (R132). -/
def hypothesisSurvivor (b0 b1 b2 : Bit) : Survivor := ⟨pathCost g bmHard s [b0, b1, b2] [r0, r1, r2], b0⟩

/-- The nearer of the two hypotheses of the end state `(b1, b2)` (R133). -/
def nearestHypothesis (b1 b2 : Bit) : Survivor :=
  if (hypothesisSurvivor g s r0 r1 r2 true b1 b2).d < (hypothesisSurvivor g s r0 r1 r2 false b1 b2).d
  then hypothesisSurvivor g s r0 r1 r2 true b1 b2 else hypothesisSurvivor g s r0 r1 r2 false b1 b2

/-- The survivors of a cell: the nearer hypothesis of each end state (R133, R139). -/
def nearestSurvivors : Survivors where
  at0 := some (nearestHypothesis g s r0 r1 r2 false false)
  at1 := some (nearestHypothesis g s r0 r1 r2 false true)
  at2 := some (nearestHypothesis g s r0 r1 r2 true false)
  at3 := some (nearestHypothesis g s r0 r1 r2 true true)

theorem nearestHypothesis_b0 (b1 b2 : Bit) :
    (nearestHypothesis g s r0 r1 r2 b1 b2).b0 =
      decide (pathCost g bmHard s [true, b1, b2] [r0, r1, r2] < pathCost g bmHard s [false, b1, b2] [r0, r1, r2]) := by
  unfold nearestHypothesis
  split
  · rename_i hnearer
    exact (decide_eq_true hnearer).symm
  · rename_i hnearer
    exact (decide_eq_false hnearer).symm

variable {g s r0 r1 r2}

theorem survivorsOf_cons
    (h : consider laTie ⟨b1, b2⟩ (hypothesisSurvivor g s r0 r1 r2 b0 b1 b2).d b0 surv = .ok surv') :
    survivorsOf g laTie s r0 r1 r2 ((b0, b1, b2) :: hyps) surv = survivorsOf g laTie s r0 r1 r2 hyps surv' := by
  have hreplay : replay g s 0 [(b0, r0), (b1, r1), (b2, r2)] = (⟨b1, b2⟩, (hypothesisSurvivor g s r0 r1 r2 b0 b1 b2).d) := by
    rw [replay_eq, Nat.zero_add]
    rfl
  simp only [survivorsOf, hreplay, h]

theorem survivorsOf_cons_of_none (h : surv.get ⟨b1, b2⟩ = none) :
    survivorsOf g laTie s r0 r1 r2 ((b0, b1, b2) :: hyps) surv =
      survivorsOf g laTie s r0 r1 r2 hyps (surv.set ⟨b1, b2⟩ (some (hypothesisSurvivor g s r0 r1 r2 b0 b1 b2))) :=
  survivorsOf_cons (consider_of_none h)

/-- The two hypotheses of an end state never tie (R140). -/
theorem survivorsOf_cons_of_some (h : surv.get ⟨b1, b2⟩ = some (hypothesisSurvivor g s r0 r1 r2 false b1 b2)) :
    survivorsOf g laTie s r0 r1 r2 ((true, b1, b2) :: hyps) surv =
      survivorsOf g laTie s r0 r1 r2 hyps (surv.set ⟨b1, b2⟩ (some (nearestHypothesis g s r0 r1 r2 b1 b2))) := by
  have hne : (hypothesisSurvivor g s r0 r1 r2 true b1 b2).d ≠ (hypothesisSurvivor g s r0 r1 r2 false b1 b2).d := fun heq => by
    have hodd := pathCost_hypotheses_odd g s b1 b2 r0 r1 r2
    simp only [hypothesisSurvivor] at heq
    omega
  exact survivorsOf_cons (consider_of_some h hne)

/-- The build takes the hypotheses in two passes over the end states, first those with first bit 0, then those with first bit 1
(R131, R134). -/
theorem survivorsOf_hypotheses :
    survivorsOf g laTie s r0 r1 r2 hypotheses ⟨none, none, none, none⟩ = .ok (nearestSurvivors g s r0 r1 r2) :=
  (survivorsOf_cons_of_none rfl).trans <| (survivorsOf_cons_of_none rfl).trans <|
  (survivorsOf_cons_of_none rfl).trans <| (survivorsOf_cons_of_none rfl).trans <|
  (survivorsOf_cons_of_some rfl).trans <| (survivorsOf_cons_of_some rfl).trans <|
  (survivorsOf_cons_of_some rfl).trans <| survivorsOf_cons_of_some rfl

theorem voteSum_nearestSurvivors : voteSum (nearestSurvivors g s r0 r1 r2) = onesVote g s r0 r1 r2 := by
  simp only [voteSum, nearestSurvivors, firstBitOf, nearestHypothesis_b0, onesVote]

theorem vote_of_ne_two {surv : Survivors} (h : voteSum surv ≠ 2) : vote laTie surv = .ok (decide (2 < voteSum surv)) := by
  unfold vote
  rcases Nat.lt_or_gt_of_ne h with hlow | hhigh
  · rw [if_pos hlow, decide_eq_false (by omega)]
  · rw [if_neg (by omega), if_pos hhigh, decide_eq_true hhigh]

/-- Every cell is the majority vote, under both tie policies (R134, R135, R140). -/
theorem laCell_eq : laCell g laTie s r0 r1 r2 = .ok (decide (2 < onesVote g s r0 r1 r2)) := by
  simp only [laCell, survivorsOf_hypotheses]
  rw [← voteSum_nearestSurvivors]
  exact vote_of_ne_two (voteSum_nearestSurvivors ▸ onesVote_ne_two g s r0 r1 r2)

end Cell

/-! ### The whole build (42_lookahead.md R134, R138, R140) -/

/-- No cell ends the build with a tie (R140). -/
theorem buildTable_finishes (g : GenOrder) (laTie : Bool) (cells : List (EncState × Sym × Sym × Sym)) (t : LaTable) :
    (buildTable g laTie cells t).2 = none := by
  induction cells generalizing t with
  | nil => rfl
  | cons c cells ih =>
    rw [buildTable, laCell_eq]
    exact ih _

theorem buildTable_laCells (g : GenOrder) (laTie : Bool) (t : LaTable) :
    buildTable g laTie laCells t = (builtTable g, none) :=
  Prod.ext (buildTable_eq_builtTable (buildTable_finishes g laTie laCells t)) (buildTable_finishes g laTie laCells t)

theorem read_builtTable (g : GenOrder) (s : EncState) (r0 r1 r2 : Sym) :
    readTable (builtTable g) s r0 r1 r2 = decide (2 < onesVote g s r0 r1 r2) :=
  (Except.ok.inj (laCell_eq.symm.trans
    (read_buildTable_of_none (buildTable_finishes g false laCells 0) (mem_laCells s r0 r1 r2)))).symm

/-- `LA_BUILD` as a whole: it leaves the one table of the generator order, under both tie policies (R138, R140). -/
theorem execLaBuild_eq (s : Generic.State S P) :
    execLaBuild s = .next { s with
      laTable := builtTable s.params.genOrder,
      status := { err := .ok, laValid := true, sticky := s.status.sticky, busy := false } } := by
  rw [execLaBuild, buildTable_laCells]
  rfl

/-- Settles O33: no cell has a tie, so the build ends with the table of the generator order, whose cells are the votes. -/
theorem laBuildWritesTheMajorityVote : Obligations.LaBuildWritesTheMajorityVote := fun s =>
  ⟨builtTable s.params.genOrder, (exec_eq_execOf .laBuild s).trans (execLaBuild_eq s), fun st r0 r1 r2 =>
    ⟨onesVote_ne_two s.params.genOrder st r0 r1 r2, read_builtTable s.params.genOrder st r0 r1 r2⟩⟩

/-! ### The looked-up cell (42_lookahead.md R145) -/

theorem execLaLookup_of_valid {s : Generic.State S P} (st : EncState) (s0 s1 s2 : Sym) (hvalid : s.status.laValid = true) :
    execLaLookup st s0 s1 s2 s = .next { s with
      result := { s.result with lbit := readTable s.laTable st s0 s1 s2 },
      status := { s.status with err := .ok, busy := false } } := by
  rw [execLaLookup, if_pos hvalid]
  rfl

/-- Settles O34: the linear index of R41 is that number. -/
theorem laLookupReadsTheCell : Obligations.LaLookupReadsTheCell := by
  intro s st s0 s1 s2 hvalid
  rw [exec_eq_execOf, execOf, execLaLookup_of_valid st s0 s1 s2 hvalid, readTable, laIndex_eq]
  simp only [toNat_toBits_state, toNat_toBits_sym]

/-! ### The sliding window (42_lookahead.md R150, R151) -/

/-- Bit `i` is the cell of the state the bits before it lead to and the three symbols from `i` on. -/
theorem lookupBits_get (t : LaTable) (st : EncState) (hs : List Sym) {i : Nat} (h : i + 2 < hs.length) :
    (lookupBits t st hs)[i]? = some (readTable t (endState st ((lookupBits t st hs).take i))
      (hs.getD i ⟨false, false⟩) (hs.getD (i + 1) ⟨false, false⟩) (hs.getD (i + 2) ⟨false, false⟩)) := by
  fun_induction lookupBits t st hs generalizing i with
  | case1 st h0 h1 h2 rest ih =>
    cases i with
    | zero => rfl
    | succ i => exact ih (Nat.lt_of_succ_lt_succ h)
  | case2 hs st hshort =>
    have hnil : (lookupBits t st hs).length = 0 := by
      rw [lookupBits]
      exacts [rfl, hshort]
    rw [length_lookupBits] at hnil
    omega

/-- The windows read the observations written, and without a window there is nothing to look up (R150, 20_memory.md R69). -/
theorem lookupBits_windowInput {b : Buf Sym} {hs : List Sym} (h : 3 ≤ hs.length → b.Holds hs) (t : LaTable) (st : EncState) :
    ∃ window, windowInput b hs.length = some window ∧ lookupBits t st window = lookupBits t st hs := by
  by_cases hlen : 3 ≤ hs.length
  · exact ⟨hs, (if_pos hlen).trans (readSeq_of_holds (h hlen)), rfl⟩
  · have hnil : lookupBits t st hs = [] := List.eq_nil_of_length_eq_zero (by rw [length_lookupBits]; omega)
    exact ⟨[], if_neg hlen, hnil.symm⟩

/-- `LA_DECODE` on a valid table and written observations of accepted length writes the looked-up bits and two zeros, and changes
nothing else (R150, R151). -/
theorem execLaDecode_of_holds {s : Generic.State S P} {hs : List Sym} (hlow : 2 ≤ hs.length)
    (hhigh : hs.length ≤ s.params.nMax) (hvalid : s.status.laValid = true) (hholds : 3 ≤ hs.length → s.mem.hobs.Holds hs) :
    execLaDecode hs.length s = .next { s with
      mem := { s.mem with bitout := s.mem.bitout.writeSeq 0 (lookupBits s.laTable stateZero hs ++ [false, false]) },
      status := { s.status with err := .ok, busy := false } } := by
  have hok : decodeLengthOk s hs.length = true := (decodeLengthOk_eq_true_iff s hs.length).mpr ⟨hlow, hhigh⟩
  obtain ⟨window, hwindow, hbits⟩ := lookupBits_windowInput hholds s.laTable stateZero
  simp [execLaDecode, hok, hvalid, hwindow, hbits, complete, Generic.State.writeBitout]

/-- Settles O36: the looked-up bits come first, and the two zeros stand at their end. -/
theorem laDecodeSlidesTheWindow : Obligations.LaDecodeSlidesTheWindow := by
  intro s hs hlow hhigh hvalid hholds
  have hlen : (lookupBits s.laTable stateZero hs).length = hs.length - 2 := length_lookupBits ..
  refine ⟨_, lookupBits s.laTable stateZero hs ++ [false, false],
    (exec_eq_execOf _ s).trans (execLaDecode_of_holds hlow hhigh hvalid hholds), ?_, wrote_writeSeq s.mem.bitout _,
    fun i hi => ?_, ?_, ?_⟩
  · rw [List.length_append, hlen]
    exact Nat.sub_add_cancel hlow
  · rw [List.getElem?_append_left (by omega), List.take_append_of_le_length (by omega)]
    exact lookupBits_get s.laTable stateZero hs hi
  · rw [← hlen, List.getElem?_append_right le_rfl, Nat.sub_self]
    rfl
  · rw [List.getElem?_append_right (by omega), hlen, show hs.length - 1 - (hs.length - 2) = 1 by omega]
    rfl

/-! ### No noise (42_lookahead.md R152) -/

/-- The window over a symbol that is the encoder's gives the encoder's bit, whatever the two symbols after it are. -/
theorem read_builtTable_outSym (g : GenOrder) (s : EncState) (b : Bit) (r1 r2 : Sym) :
    readTable (builtTable g) s (outSym g s b) r1 r2 = b :=
  (read_builtTable g s (outSym g s b) r1 r2).trans (majority_of_first_symbol g s b r1 r2)

theorem lookupBits_builtTable_cons (g : GenOrder) (s : EncState) (b : Bit) {hs : List Sym} (h : 2 ≤ hs.length) :
    lookupBits (builtTable g) s (outSym g s b :: hs) = b :: lookupBits (builtTable g) (nextState s b) hs := by
  obtain ⟨h1, tail, rfl⟩ := List.exists_cons_of_length_pos (Nat.zero_lt_of_lt h)
  obtain ⟨h2, rest, rfl⟩ := List.exists_cons_of_length_pos (Nat.lt_of_succ_lt_succ h)
  rw [lookupBits, read_builtTable_outSym]

/-- The windows over the symbols of an input give it back, up to its last two bits. -/
theorem lookupBits_encodeFrom (g : GenOrder) (s : EncState) (front : List Bit) (x y : Bit) :
    lookupBits (builtTable g) s (encodeFrom g s (front ++ [x, y])).2 = front := by
  induction front generalizing s with
  | nil => rfl
  | cons b front ih =>
    rw [List.cons_append, encodeFrom, lookupBits_builtTable_cons g s b (by simp), ih]

/-- Settles O37: every symbol of the encoder decides its own vote, so the windows follow the encoder's states. -/
theorem laDecodeRoundTripsAtZeroNoise : Obligations.LaDecodeRoundTripsAtZeroNoise := by
  refine ⟨fun g x b0 b1 b2 => read_builtTable_outSym g x b0 _ _, ?_⟩
  intro s u bits hlen htail hholds hparams hvalid htable
  refine ⟨_, (exec_eq_execOf _ s).trans (execEncSeq_of_holds stateZero hlen hholds), fun hobs => ?_⟩
  have hsymbols : u.mem.hobs.Holds (encodeFrom s.params.genOrder stateZero bits).2 := fun i hi =>
    (hobs i (length_encodeFrom .. ▸ hi)).trans ((wrote_writeSeq s.mem.symout _ i).trans (if_pos hi))
  have hdecoded : lookupBits u.laTable stateZero (encodeFrom s.params.genOrder stateZero bits).2 ++ [false, false] = bits := by
    obtain ⟨front, rfl⟩ := htail
    rw [htable, hparams, lookupBits_encodeFrom]
  have hdecode := execLaDecode_of_holds (s := u) (by rw [length_encodeFrom]; exact htail.two_le_length)
    (by rwa [length_encodeFrom, hparams]) hvalid fun _ => hsymbols
  rw [length_encodeFrom, hdecoded] at hdecode
  exact ⟨_, (exec_eq_execOf _ u).trans hdecode, rfl, fun i hi => (wrote_writeSeq u.mem.bitout bits i).trans (if_pos hi)⟩

end Sys2Proof.Machine
end

section
/-! SUPPORT. The hard decoder at the command: what one relaxation answers in each case, how many draws a forward pass takes, that
without the randomized mode the memo does not depend on the draw source, and the nearest path in `BITOUT` and `HMETRIC`
(43_hard_viterbi.md R164 to R175). -/
namespace Sys2Proof.Machine

variable {S P : Type}

/-! ### One relaxation, case by case (R165 to R167) -/

section Relaxation

variable {κ : Type} [LinearOrder κ] {rt : Bool} {n : EncState} {e old : Entry κ} {c : Column κ}

theorem relax_of_none (h : c.get n = none) (d : DrawSource) : relax rt n e (c, d) = (c.set n (some e), d) := by
  simp only [relax, h]

theorem relax_of_cheaper (h : c.get n = some old) (hlt : e.cost < old.cost) (d : DrawSource) :
    relax rt n e (c, d) = (c.set n (some e), d) := by
  simp only [relax, h, if_pos hlt]

/-- A candidate that is not cheaper, at no tie event, leaves the node and the source as they were. -/
theorem relax_of_not_cheaper (h : c.get n = some old) (hle : old.cost ≤ e.cost) (htie : ¬ (e.cost = old.cost ∧ rt = true))
    (d : DrawSource) : relax rt n e (c, d) = (c, d) := by
  simp only [relax, h, if_neg hle.not_gt, if_neg htie]

theorem relax_of_tie (h : c.get n = some old) (heq : e.cost = old.cost) (d : DrawSource) :
    relax true n e (c, d) = (if d.draw.1 then c.set n (some e) else c, d.draw.2) := by
  simp [relax, h, heq]

end Relaxation

/-- Settles O38: the cases of a relaxation, and what a draw is with and without a supplied Boolean. -/
theorem relaxReplacesKeepsOrDraws : Obligations.RelaxReplacesKeepsOrDraws := by
  intro κ _ rt n e c d
  refine ⟨fun h => relax_of_none h d, fun old h => ⟨fun hlt => relax_of_cheaper h hlt d, fun hgt => ?_, ?_, ?_⟩⟩
  · exact relax_of_not_cheaper h hgt.le (fun htie => hgt.ne' htie.1) d
  · rintro heq rfl
    exact relax_of_not_cheaper h heq.ge (fun htie => Bool.false_ne_true htie.2) d
  · rintro heq rfl
    obtain ⟨supplied, taken⟩ := d
    rw [relax_of_tie h heq]
    refine ⟨?_, ?_⟩
    · rintro v vs rfl
      rfl
    · rintro rfl
      rfl

/-! ### The draws of a forward pass (R164, R167) -/

section Draws

variable {κ ω : Type} [LinearOrder κ]

/-- A node takes at most one draw. -/
theorem survivorOf_draws_le (rt : Bool) (draws : Nat → Bool) (k : Nat) (x y : Option (κ × List Bit)) :
    (survivorOf rt draws k x y).2 ≤ k + 1 := by
  cases x with
  | none => exact Nat.le_succ k
  | some lower =>
    cases y with
    | none => exact Nat.le_succ k
    | some upper =>
      simp only [survivorOf]
      split_ifs <;> simp

/-- A walk over the four nodes that adds at most one at each adds at most four. -/
theorem eachNode_snd_le {β : Type} {node : EncState → Nat → β × Nat} (h : ∀ n k, (node n k).2 ≤ k + 1) (k : Nat) :
    (eachNode node k).2 ≤ k + 4 := by
  simp only [eachNode]
  have h0 := h ⟨false, false⟩ k
  have h1 := h ⟨false, true⟩ (node ⟨false, false⟩ k).2
  have h2 := h ⟨true, false⟩ (node ⟨false, true⟩ (node ⟨false, false⟩ k).2).2
  have h3 := h ⟨true, true⟩ (node ⟨true, false⟩ (node ⟨false, true⟩ (node ⟨false, false⟩ k).2).2).2
  omega

variable [Add κ]

theorem extendSurvivors_eq_eachNode (g : GenOrder) (rt : Bool) (draws : Nat → Bool) (metric : Sym → κ) (v : Survivals κ) :
    extendSurvivors g rt draws metric v = eachNode (fun n k =>
      survivorOf rt draws k (alongEdge g metric v n false) (alongEdge g metric v n true)) v.2 := rfl

theorem extendSurvivors_draws_le (g : GenOrder) (rt : Bool) (draws : Nat → Bool) (metric : Sym → κ) (v : Survivals κ) :
    (extendSurvivors g rt draws metric v).2 ≤ v.2 + 4 := by
  rw [extendSurvivors_eq_eachNode]
  exact eachNode_snd_le (fun _ k => survivorOf_draws_le rt draws k _ _) v.2

/-- Every step takes at most four draws. -/
theorem survivorPaths_draws_le [Zero κ] (g : GenOrder) (rt : Bool) (draws : Nat → Bool) (metric : ω → Sym → κ) (os : List ω) :
    (survivorPaths g rt draws metric os).2 ≤ 4 * os.length := by
  induction os using List.reverseRecOn with
  | nil => exact Nat.zero_le _
  | append_singleton os o ih =>
    rw [survivorPaths, List.foldl_append, List.length_append]
    exact (extendSurvivors_draws_le g rt draws (metric o) _).trans (Nat.add_le_add_right ih 4)

end Draws

/-- The first `k` draws of a source that has supplied as many are the supplied Booleans, in their order. -/
theorem map_drawAt_range {d : DrawSource} {k : Nat} (h : k ≤ d.supplied.length) :
    (List.range k).map (drawAt d) = d.supplied.take k := by
  refine List.ext_getElem (by simp [h]) fun i hi _ => ?_
  have hlt : i < d.supplied.length := by
    rw [List.length_map, List.length_range] at hi
    omega
  simp [drawAt, List.getElem?_eq_getElem hlt]

/-- Settles O42: the draws of the command are as many as its tie events, at most four for each step. -/
theorem hardDpTakesDrawsInOrder : Obligations.HardDpTakesDrawsInOrder := by
  intro s hs hlow hhigh hholds hsupplied
  obtain ⟨m, bits, cost, memo, -, -, -, hexec⟩ := hardDpResolvesEachTieByOneDraw s hs hlow hhigh hholds
  have hk := survivorPaths_draws_le s.params.genOrder s.config.hardTie (drawAt s.draws) bmHard hs
  refine ⟨_, _, hexec, hk, ?_⟩
  rw [← map_drawAt_range (hk.trans hsupplied)]
  rfl

/-! ### Without the randomized mode the draw source has no part (R166) -/

section Deterministic

variable {κ ω : Type} [LinearOrder κ]

theorem settle_false_fst (lower upper : Option (Entry κ)) (d d' : DrawSource) :
    (settle false lower upper d).1 = (settle false lower upper d').1 := by
  cases lower with
  | none => rfl
  | some l =>
    cases upper with
    | none => rfl
    | some u => rw [settle_false_some, settle_false_some]

variable [Add κ]

theorem advance_false_fst (g : GenOrder) (metric : Sym → κ) (prev : Column κ) (d d' : DrawSource) :
    (advance g false metric prev d).1 = (advance g false metric prev d').1 := by
  refine perState_ext fun n => ?_
  rw [get_advance_false, get_advance_false, settle_false_fst]

theorem forward_false_fst (g : GenOrder) (metric : ω → Sym → κ) (os : List ω) (c : Column κ) (d d' : DrawSource) :
    (forward g false metric os c d).1 = (forward g false metric os c d').1 := by
  induction os generalizing c d d' with
  | nil => rfl
  | cons o os ih =>
    simp only [forward]
    rw [advance_false_fst g (metric o) c d d', ih]

end Deterministic

/-- The deterministic pass finds the same columns with every draw source, and leaves each source as it was. -/
theorem hardPass_of_hardTie_false {s : Generic.State S P} (h : s.config.hardTie = false) (hs : List Sym) (d : DrawSource) :
    hardPass { s with draws := d } hs = ((hardPass s hs).1, d) := by
  refine Prod.ext ?_ ?_ <;> simp only [hardPass, h]
  · exact forward_false_fst ..
  · exact forward_false_draws ..

/-! ### The nearest path (R168 to R173) -/

/-- The best path of the pass of `HARD_DP`: a nearest path from state 0 to state 0, with its distance. -/
theorem hardPass_nearest (s : Generic.State S P) {hs : List Sym} (hlow : 2 ≤ hs.length) :
    ∃ bits, bestPath (hardPass s hs).1 = some (bits, pathCost s.params.genOrder bmHard stateZero bits hs) ∧
      PathTo hs.length stateZero bits ∧
      ∀ other, PathTo hs.length stateZero other →
        pathCost s.params.genOrder bmHard stateZero bits hs ≤ pathCost s.params.genOrder bmHard stateZero other hs :=
  bestPath_forward_nearest s.params.genOrder s.config.hardTie bmHard (List.ne_nil_of_length_pos (by omega)) s.draws

/-- Settles O40: the best path is a nearest one, and its distance of at most 2 for each step fits `HMETRIC`. -/
theorem hardDpFindsTheNearestPath : Obligations.HardDpFindsTheNearestPath := by
  intro s hs hlegal hlow hhigh hholds
  obtain ⟨bits, hbest, hpath, hleast⟩ := hardPass_nearest s hlow
  refine ⟨_, bits, _, _, _, (exec_eq_execOf _ s).trans (execHardDp_of_bestPath hlow hhigh hholds hbest), hpath.1,
    wrote_writeSeq s.mem.bitout bits, hpath.2, ?_, fun other hlen hend => hleast other ⟨hlen, hend⟩⟩
  have hcost := hardPass_cost_le hbest
  obtain ⟨-, hmax⟩ := hlegal
  rw [BitVec.toNat_ofNat, Nat.mod_eq_of_lt (by omega)]

/-- Settles O41: the two runs have the columns in common, and each keeps its draw source. -/
theorem hardDpModeZeroIgnoresDraws : Obligations.HardDpModeZeroIgnoresDraws := by
  intro s hs d hlow hhigh hholds hmode
  obtain ⟨bits, hbest, -, -⟩ := hardPass_nearest s hlow
  have hpass := hardPass_of_hardTie_false hmode hs
  have hbest' : bestPath (hardPass { s with draws := d } hs).1 = bestPath (hardPass s hs).1 := by rw [hpass d]
  have hmemo : (afterHardPass { s with draws := d } hs).memo = (afterHardPass s hs).memo := by
    simp only [afterHardPass, hpass d]
    rfl
  refine ⟨_, (exec_eq_execOf _ s).trans (execHardDp_of_bestPath hlow hhigh hholds hbest),
    congrArg Prod.snd (hpass s.draws), ?_⟩
  rw [exec_eq_execOf, execOf, execHardDp_of_bestPath (s := { s with draws := d }) hlow hhigh hholds (hbest'.trans hbest),
    hpass d, hmemo]

/-- Settles O43: the paths found with two draw sources are each no dearer than the other. -/
theorem hardMetricIgnoresDraws : Obligations.HardMetricIgnoresDraws := by
  intro s hs d hlow hhigh hholds
  obtain ⟨bits, hbest, hpath, hleast⟩ := hardPass_nearest s hlow
  obtain ⟨bits', hbest', hpath', hleast'⟩ := hardPass_nearest { s with draws := d } hlow
  have hcost := le_antisymm (hleast' bits hpath) (hleast bits' hpath')
  exact ⟨_, _, (exec_eq_execOf _ s).trans (execHardDp_of_bestPath hlow hhigh hholds hbest),
    (exec_eq_execOf _ _).trans (execHardDp_of_bestPath (s := { s with draws := d }) hlow hhigh hholds hbest'),
    congrArg (BitVec.ofNat 32) hcost, rfl⟩

/-! ### No noise (R174) -/

/-- A symbol received as sent is nearer to itself than to every other symbol (40_encoder.md R116). -/
theorem favours_bmHard_self (y : Sym) : Favours bmHard y y := by
  intro y' hne
  rw [bmHard, bmHard, dist_self]
  exact Nat.pos_of_ne_zero fun hzero => hne ((dist_eq_zero_iff y' y).mp hzero)

theorem pathCost_bmHard_encodeFrom (g : GenOrder) (s : EncState) (bits : List Bit) :
    pathCost g bmHard s bits (encodeFrom g s bits).2 = 0 := by
  induction bits generalizing s with
  | nil => rfl
  | cons b bits ih =>
    rw [encodeFrom, pathCost_cons, ih, bmHard, dist_self]

/-- Settles O44: each observation favours the symbol sent, so the input is the one nearest path, at distance 0. -/
theorem hardDpRoundTripsAtZeroNoise : Obligations.HardDpRoundTripsAtZeroNoise := by
  intro s u bits hlen htail hholds hparams
  refine ⟨_, (exec_eq_execOf _ s).trans (execEncSeq_of_holds stateZero hlen hholds), fun hobs => ?_⟩
  have hsymbols : u.mem.hobs.Holds (encodeFrom s.params.genOrder stateZero bits).2 := fun i hi =>
    (hobs i (length_encodeFrom .. ▸ hi)).trans ((wrote_writeSeq s.mem.symout _ i).trans (if_pos hi))
  rw [← hparams] at hlen hsymbols
  have hlow : 2 ≤ bits.length := htail.two_le_length
  have hbest : bestPath (hardPass u (encodeFrom u.params.genOrder stateZero bits).2).1 = some (bits, _) :=
    bestPath_forward_of_favours (List.ne_nil_of_length_pos (by omega)) (htail.endState_eq stateZero)
      (List.forall₂_same.mpr fun y _ => favours_bmHard_self y) u.config.hardTie u.draws
  rw [pathCost_bmHard_encodeFrom] at hbest
  have hdecode := execHardDp_of_bestPath (by rwa [length_encodeFrom]) (by rwa [length_encodeFrom]) hsymbols hbest
  rw [length_encodeFrom] at hdecode
  exact ⟨_, (exec_eq_execOf _ u).trans hdecode, rfl, rfl, fun i hi => (wrote_writeSeq u.mem.bitout bits i).trans (if_pos hi)⟩

/-! ### The tail of a decoded path (R175) -/

/-- Writing a path into state 0 writes zeros at its last two positions: they are the bits of the state (40_encoder.md R114). -/
theorem read_tail_writeSeq (b : Buf Bit) {len : Nat} {bits : List Bit} (hlow : 2 ≤ len) (h : PathTo len stateZero bits) :
    (b.writeSeq 0 bits).read (len - 2) = some false ∧ (b.writeSeq 0 bits).read (len - 1) = some false := by
  obtain ⟨rfl, hend⟩ := h
  obtain ⟨k, hk⟩ := Nat.exists_eq_add_of_le' hlow
  obtain ⟨hfirst, hsecond⟩ := endState_window stateZero bits
  rw [hend, hk] at hfirst hsecond
  rw [wrote_writeSeq, wrote_writeSeq, if_pos (by omega), if_pos (by omega), hk]
  exact ⟨hfirst, hsecond⟩

/-- What the decoder finds is a path from state 0 to state 0 (R169, R170). -/
theorem pathTo_of_bestPath {κ ω : Type} [AddCommMonoid κ] [LinearOrder κ] [IsOrderedCancelAddMonoid κ] {g : GenOrder}
    {rt : Bool} {metric : ω → Sym → κ} {os : List ω} {d : DrawSource} {bits : List Bit} {cost : κ} (hne : os ≠ [])
    (h : bestPath (forward g rt metric os (initialColumn κ) d).1 = some (bits, cost)) : PathTo os.length stateZero bits := by
  obtain ⟨best, hbest, hpath, -⟩ := bestPath_forward_nearest g rt metric hne d
  cases hbest.symm.trans h
  exact hpath

/-- The looked-up bits with the two zeros appended are a path into state 0 (42_lookahead.md R151). -/
theorem pathTo_lookupBits {b : Buf Sym} {len : Nat} {hs : List Sym} (hlow : 2 ≤ len) (h : windowInput b len = some hs)
    (t : LaTable) : PathTo len stateZero (lookupBits t stateZero hs ++ [false, false]) := by
  refine ⟨?_, endState_append_two ..⟩
  rw [List.length_append, length_lookupBits, length_of_windowInput h]
  simp only [List.length_cons, List.length_nil]
  split <;> omega

section Tail

variable {s t : Generic.State S P} {len : Nat}

theorem bitout_tail_of_execHardDp (h : execHardDp len s = .next t) (hok : t.status.err = .ok) :
    t.mem.bitout.read (len - 2) = some false ∧ t.mem.bitout.read (len - 1) = some false := by
  rcases execHardDp_cases h with ⟨-, rfl⟩ | ⟨hlen, hs, hhs, ⟨-, rfl⟩ | ⟨bits, cost, hbest, rfl⟩⟩
  · cases hok
  · cases hok
  · obtain ⟨hlow, -⟩ := (decodeLengthOk_eq_true_iff s len).mp hlen
    obtain rfl := length_of_readSeq hhs
    exact read_tail_writeSeq _ hlow (pathTo_of_bestPath (List.ne_nil_of_length_pos (by omega)) hbest)

theorem bitout_tail_of_execSoftDp [CommRing S] [LinearOrder S] [IsStrictOrderedRing S] (h : execSoftDp len s = .next t)
    (hok : t.status.err = .ok) :
    t.mem.bitout.read (len - 2) = some false ∧ t.mem.bitout.read (len - 1) = some false := by
  rcases execSoftDp_cases h with ⟨-, rfl⟩ | ⟨hlen, os, hos, ⟨-, rfl⟩ | ⟨bits, cost, hbest, rfl⟩⟩
  · cases hok
  · cases hok
  · obtain ⟨hlow, -⟩ := (decodeLengthOk_eq_true_iff s len).mp hlen
    obtain rfl := length_of_readSoftObs hos
    exact read_tail_writeSeq _ hlow (pathTo_of_bestPath (List.ne_nil_of_length_pos (by omega)) hbest)

theorem bitout_tail_of_execLaDecode (h : execLaDecode len s = .next t) (hok : t.status.err = .ok) :
    t.mem.bitout.read (len - 2) = some false ∧ t.mem.bitout.read (len - 1) = some false := by
  rcases execLaDecode_cases h with ⟨-, rfl⟩ | ⟨-, -, rfl⟩ | ⟨hlen, -, hs, hhs, rfl⟩
  · cases hok
  · cases hok
  · obtain ⟨hlow, -⟩ := (decodeLengthOk_eq_true_iff s len).mp hlen
    exact read_tail_writeSeq _ hlow (pathTo_lookupBits hlow hhs s.laTable)

end Tail

/-- Settles O45: each decoder writes a path into state 0. -/
theorem decodedTailBitsAreZero : Obligations.DecodedTailBitsAreZero := by
  intro s t len h hok
  simp only [exec_eq_execOf] at h
  rcases h with h | h | h
  · exact bitout_tail_of_execHardDp h hok
  · exact bitout_tail_of_execSoftDp h hok
  · exact bitout_tail_of_execLaDecode h hok

end Sys2Proof.Machine
end

section
/-! SUPPORT. The soft decoder at the command: the branch metric over ±1 constellation points, the nearest path and the survivor
path in `BITOUT` and `SMETRIC`, what `SOFT_DP` does not read, and its answers to noiseless and to all-zero observations
(44_soft_viterbi.md R190 to R200). -/
namespace Sys2Proof.Machine

variable {S P : Type}

/-! ### The branch metric (R190, R194, R197) -/

section Metric

variable [CommRing S]

theorem pm_mul_self (c : Bit) : (pm c : S) * pm c = 1 := by
  cases c <;> simp

/-- Every constellation point has the squared norm 2, which turns the squared distance into a correlation (R197). -/
theorem bmSoft_eq_correlation (x0 x1 : S) (y : Sym) :
    bmSoft (x0, x1) y = (x0 ^ 2 + x1 ^ 2 + 2) - 2 * (x0 * pm y.c0 + x1 * pm y.c1) := by
  have h0 := pm_mul_self (S := S) y.c0
  have h1 := pm_mul_self (S := S) y.c1
  simp only [bmSoft, point]
  linear_combination h0 + h1

@[simp] theorem bmSoft_point (y : Sym) : bmSoft (point y : S × S) y = 0 := by simp [bmSoft]

/-- The origin is equally far from the four constellation points (R200). -/
theorem bmSoft_zero (y : Sym) : bmSoft ((0, 0) : S × S) y = 2 := by simp [bmSoft_eq_correlation]

theorem eq_point_of_bmSoft_eq_zero [LinearOrder S] [IsStrictOrderedRing S] {obs : S × S} {y : Sym} (h : bmSoft obs y = 0) :
    obs = point y := by
  obtain ⟨h0, h1⟩ := mul_self_add_mul_self_eq_zero.mp h
  exact Prod.ext (sub_eq_zero.mp h0) (sub_eq_zero.mp h1)

end Metric

/-- Settles O51: a sum of two squares, expanded with the squares of the constellation values. -/
theorem softBranchMetricIsSquaredDistance : Obligations.SoftBranchMetricIsSquaredDistance := by
  intro S _ _ _ x0 x1 y
  refine ⟨?_, bmSoft_nonneg (x0, x1) y, fun hzero => ?_, bmSoft_eq_correlation x0 x1 y⟩
  · rw [sq, sq]
    rfl
  · exact Prod.ext_iff.mp (eq_point_of_bmSoft_eq_zero hzero)

/-! ### The nearest path and the survivor path (R193 to R196, R199) -/

/-- The best path of the pass of `SOFT_DP`: a nearest path from state 0 to state 0, with its squared distance (R193, R199). -/
theorem softPass_nearest [CommRing S] [LinearOrder S] [IsStrictOrderedRing S] (s : Generic.State S P) {os : List (S × S)}
    (hlow : 2 ≤ os.length) :
    ∃ bits, bestPath (softPass s os).1 = some (bits, pathCost s.params.genOrder bmSoft stateZero bits os) ∧
      PathTo os.length stateZero bits ∧
      ∀ other, PathTo os.length stateZero other →
        pathCost s.params.genOrder bmSoft stateZero bits os ≤ pathCost s.params.genOrder bmSoft stateZero other os :=
  bestPath_forward_nearest s.params.genOrder false bmSoft (List.ne_nil_of_length_pos (by omega)) s.draws

/-- Settles O46: the best path of the forward pass is a nearest one. -/
theorem softDpFindsTheNearestPath : Obligations.SoftDpFindsTheNearestPath := by
  refine ⟨fun S P _ _ _ s os hlow hhigh hx hy => ?_, fun s len => exec_eq_execOf _ s⟩
  obtain ⟨bits, hbest, hpath, hleast⟩ := softPass_nearest s hlow
  exact ⟨_, bits, _, execSoftDp_of_bestPath hlow hhigh (readSoftObs_of_holds hx hy) hbest, hpath.1,
    wrote_writeSeq s.mem.bitout bits, hpath.2, fun other hlen hend => hleast other ⟨hlen, hend⟩⟩

/-- The best path of the pass of `SOFT_DP` is the survivor of state 0, the lower predecessor keeping every tie (R195). -/
theorem bestPath_softPass [CommRing S] [LinearOrder S] (s : Generic.State S P) {os : List (S × S)} (hne : os ≠ []) :
    bestPath (softPass s os).1 =
      ((survivorPaths s.params.genOrder false (drawAt s.draws) bmSoft os).1.get stateZero).map Prod.swap :=
  (bestPath_forward s.params.genOrder false bmSoft hne s.draws).1

/-- Settles O55: the memo of the forward pass tells of the survivors, and state 0 always has one. -/
theorem softDpKeepsTheLowerSurvivor : Obligations.SoftDpKeepsTheLowerSurvivor := by
  intro S P _ _ _ s os hlow hhigh hx hy
  obtain ⟨⟨cost, bits⟩, hsurvivor⟩ := Option.isSome_iff_exists.mp
    (survivorPaths_stateZero_isSome s.params.genOrder false (drawAt s.draws) bmSoft os)
  have hbest : bestPath (softPass s os).1 = some (bits, cost) := by
    rw [bestPath_softPass s (List.ne_nil_of_length_pos (by omega)), hsurvivor]
    rfl
  exact ⟨_, bits, cost, _, hsurvivor, (bestPath_length hbest).trans (length_softPass s os), wrote_writeSeq s.mem.bitout bits,
    execSoftDp_of_bestPath hlow hhigh (readSoftObs_of_holds hx hy) hbest⟩

/-- Observations that stand at their indices, one by one, read. -/
theorem readSoftObs_of_read {m : Memory S} {os : List (S × S)}
    (h : ∀ i (hi : i < os.length), m.sobsX.read i = some os[i].1 ∧ m.sobsY.read i = some os[i].2) :
    readSoftObs m os.length = some os := by
  refine readSoftObs_of_holds (fun i hi => ?_) fun i hi => ?_ <;> rw [List.length_map] at hi <;> simp [h i hi, hi]

/-! ### What `SOFT_DP` does not read (R191, R195) -/

section Reads

variable [CommRing S] [LinearOrder S] (s : Generic.State S P) (c : ConfigReg) (d : DrawSource) (m : Memory S) (os : List (S × S))

/-- `CONFIG`, the draw source and the memory have no part in the columns of the pass over given observations. -/
theorem softPass_columns_eq : (softPass { s with config := c, draws := d, mem := m } os).1 = (softPass s os).1 :=
  forward_false_fst ..

theorem afterSoftPass_memo_eq :
    (afterSoftPass { s with config := c, draws := d, mem := m } os).memo = (afterSoftPass s os).memo := by
  simp only [afterSoftPass, Generic.State.storeMemo, softPass_columns_eq]

end Reads

/-- Settles O47: the two runs read the same observations and have the columns in common. -/
theorem softDpIgnoresTieModeAndDraws : Obligations.SoftDpIgnoresTieModeAndDraws := by
  intro s os c d h hlow hhigh hx hy
  have hread := readSoftObs_of_holds hx hy
  obtain ⟨bits, hbest, -, -⟩ := softPass_nearest s hlow
  have hbest' := (congrArg bestPath (softPass_columns_eq s c d { s.mem with hobs := h } os)).trans hbest
  refine ⟨_, (exec_eq_execOf _ s).trans (execSoftDp_of_bestPath hlow hhigh hread hbest), rfl, ?_⟩
  rw [exec_eq_execOf, execOf,
    execSoftDp_of_bestPath (s := { s with config := c, draws := d, mem := { s.mem with hobs := h } }) hlow hhigh hread hbest',
    afterSoftPass_memo_eq]

/-! ### No noise (R198) -/

theorem pathCost_bmSoft_points [CommRing S] (g : GenOrder) (s : EncState) (bits : List Bit) :
    pathCost g bmSoft s bits ((encodeFrom g s bits).2.map (point (S := S))) = 0 := by
  induction bits generalizing s with
  | nil => rfl
  | cons b bits ih => rw [encodeFrom, List.map_cons, pathCost_cons, ih, bmSoft_point, add_zero]

/-- A constellation point is nearer to its symbol than to every other one (R194). -/
theorem favours_bmSoft_point [CommRing S] [LinearOrder S] [IsStrictOrderedRing S] (y : Sym) :
    Favours bmSoft y (point y : S × S) := by
  intro y' hne
  simpa using favours_of_noise_below_one y (e0 := (0 : S)) (e1 := 0) (by simp) (by simp) (by simp) (by simp) y' hne

/-- Settles O48: each observation favours the symbol sent, so the input is the one nearest path, at distance 0. -/
theorem softDpRoundTripsAtZeroNoise : Obligations.SoftDpRoundTripsAtZeroNoise := by
  intro S P _ _ _ s u bits hlen htail hholds hparams
  refine ⟨_, execEncSeq_of_holds stateZero hlen hholds, fun hobs => ?_⟩
  have hread : readSoftObs u.mem _ = some ((encodeFrom s.params.genOrder stateZero bits).2.map point) :=
    readSoftObs_of_read fun i hi => by
      rw [List.length_map] at hi
      have hsymout := ((wrote_writeSeq s.mem.symout _ i).trans (if_pos hi)).trans (List.getElem?_eq_getElem hi)
      rw [List.getElem_map]
      exact hobs i (length_encodeFrom .. ▸ hi) _ hsymout
  rw [List.length_map, length_encodeFrom] at hread
  rw [← hparams] at hlen hread
  have hlow : 2 ≤ bits.length := htail.two_le_length
  have hbest : bestPath (softPass u ((encodeFrom u.params.genOrder stateZero bits).2.map point)).1 = some (bits, _) :=
    bestPath_forward_of_favours (List.ne_nil_of_length_pos (by omega)) (htail.endState_eq stateZero)
      (List.forall₂_map_right_iff.mpr (List.forall₂_same.mpr fun y _ => favours_bmSoft_point y)) false u.draws
  rw [pathCost_bmSoft_points] at hbest
  exact ⟨_, execSoftDp_of_bestPath hlow hlen hread hbest, rfl, rfl,
    fun i hi => (wrote_writeSeq u.mem.bitout bits i).trans (if_pos hi)⟩

/-! ### Observations equally far from every symbol (R200) -/

/-- The lower predecessor's path survives when the upper one's is not cheaper (R165, R195). -/
theorem survivorOf_false_of_le {κ : Type} [LinearOrder κ] (draws : Nat → Bool) (k : Nat) {lower : κ × List Bit}
    {upper : Option (κ × List Bit)} (h : ∀ z, upper = some z → lower.1 ≤ z.1) :
    survivorOf false draws k (some lower) upper = (some lower, k) := by
  cases upper with
  | none => rfl
  | some z => simp [survivorOf, (h z rfl).not_gt]

/-- A path that stays in state 0 survives a step when the one from state 2, its upper predecessor, is not cheaper (40_encoder.md
R108). -/
theorem extendSurvivors_stateZero_of_le {κ : Type} [LinearOrder κ] [Add κ] {g : GenOrder} (draws : Nat → Bool)
    {metric : Sym → κ} {v : Survivals κ} {x : κ × List Bit} (hx : v.1.get stateZero = some x)
    (hle : ∀ z, v.1.get ⟨true, false⟩ = some z →
      x.1 + metric (outSym g stateZero false) ≤ z.1 + metric (outSym g ⟨true, false⟩ false)) :
    (extendSurvivors g false draws metric v).1.get stateZero =
      some (x.1 + metric (outSym g stateZero false), x.2 ++ [false]) := by
  obtain ⟨k, hk⟩ := extendSurvivors_get g false draws metric v stateZero
  have hlower : alongEdge g metric v stateZero false = some (x.1 + metric (outSym g stateZero false), x.2 ++ [false]) :=
    Option.map_eq_some_iff.mpr ⟨x, hx, rfl⟩
  rw [hk, hlower, survivorOf_false_of_le]
  intro w hw
  obtain ⟨z, hz, rfl⟩ := Option.map_eq_some_iff.mp hw
  exact hle z hz

section Constant

variable {κ ω : Type} {metric : ω → Sym → κ} {o : ω} {c : κ}

/-- Where every symbol costs the same, every path does. -/
theorem pathCost_replicate [AddMonoid κ] (h : ∀ y, metric o y = c) (g : GenOrder) (s : EncState) (bits : List Bit) :
    pathCost g metric s bits (List.replicate bits.length o) = bits.length • c := by
  induction bits generalizing s with
  | nil => simp
  | cons b bits ih => rw [List.length_cons, List.replicate_succ, pathCost_cons, h, ih, succ_nsmul']

variable [AddCommMonoid κ] [LinearOrder κ] [IsOrderedCancelAddMonoid κ]

theorem survivorPaths_replicate_cost (h : ∀ y, metric o y = c) (g : GenOrder) (rt : Bool) (draws : Nat → Bool) (n : Nat)
    (m : EncState) {x : κ × List Bit}
    (hx : (survivorPaths g rt draws metric (List.replicate n o)).1.get m = some x) : x.1 = n • c := by
  obtain ⟨⟨hlen, -⟩, hcost⟩ := (survivorPaths_nearest g rt draws metric (List.replicate n o) m).isPath x.1 x.2 hx
  rw [List.length_replicate] at hlen
  rw [hcost, ← hlen, pathCost_replicate h]

/-- Where every symbol costs the same, the survivor of state 0 stays in state 0: each step there is a tie at most, which the lower
predecessor, state 0 itself, wins. -/
theorem survivorPaths_replicate_stateZero (h : ∀ y, metric o y = c) (g : GenOrder) (draws : Nat → Bool) (n : Nat) :
    (survivorPaths g false draws metric (List.replicate n o)).1.get stateZero = some (n • c, List.replicate n false) := by
  induction n with
  | zero => simp [survivorPaths, PerState.get, stateZero]
  | succ n ih =>
    rw [List.replicate_succ', survivorPaths, List.foldl_append]
    refine (extendSurvivors_stateZero_of_le draws ih fun z hz => ?_).trans ?_
    · rw [survivorPaths_replicate_cost h g false draws n _ hz, h, h]
    · rw [h, succ_nsmul, List.replicate_succ']

end Constant

/-- Settles O50: every symbol costs 2 at every step, so the path that stays in state 0 survives. -/
theorem softDpDecodesAllZeroObservations : Obligations.SoftDpDecodesAllZeroObservations := by
  intro S P _ _ _ s n hlow hhigh hzero
  have hread : readSoftObs s.mem _ = some (List.replicate n (0, 0)) :=
    readSoftObs_of_read fun i hi => by simpa using hzero i (by simpa using hi)
  rw [List.length_replicate] at hread
  have hbest : bestPath (softPass s (List.replicate n (0, 0))).1 = some (List.replicate n false, n • 2) := by
    rw [bestPath_softPass s (List.ne_nil_of_length_pos (by rw [List.length_replicate]; omega)),
      survivorPaths_replicate_stateZero bmSoft_zero]
    rfl
  refine ⟨_, execSoftDp_of_bestPath hlow hhigh hread hbest, rfl, ?_, fun i hi => ?_⟩
  · simp [mul_comm]
  · rw [wrote_writeSeq, List.length_replicate, if_pos hi, List.getElem?_replicate, if_pos hi]

end Sys2Proof.Machine
end

section
/-! SUPPORT. Errors and model faults at the command: which commands raise `LENGTH` and which `NOT_BUILT`, that no other error
arises, and that nothing but the reset input clears `faulted` (60_exceptions.md R211 to R220). -/
namespace Sys2Proof.Machine

variable {S P : Type}

/-! ### The two errors of a decoded command (R211, R212) -/

/-- The command's `LEN` is in its range; a command without `LEN` has none to refuse (R212). -/
def acceptsLength (s : Generic.State S P) : Instr → Bool
  | .encSeq _ len => encodeLengthOk s len
  | .laDecode len | .hardDp len | .softDp len => decodeLengthOk s len
  | .encStep .. | .laBuild | .laLookup .. => true

/-- The commands that read `LA_TABLE` (R211). -/
def readsTable : Instr → Bool
  | .laLookup .. | .laDecode _ => true
  | .encStep .. | .encSeq .. | .laBuild | .hardDp _ | .softDp _ => false

/-- How a command ends: with `LENGTH`, with `NOT_BUILT`, both raised on the state it found, or without error (R211, R212, R216).
A tie of the build and a missing path, the further errors a command checks for, are not among them. -/
inductive CommandEnd (s : Generic.State S P) (i : Instr) (t : Generic.State S P) : Prop where
  | length (hrefused : acceptsLength s i = false) (ht : t = raiseCmdError .length s)
  | notBuilt (hlen : acceptsLength s i = true) (hreads : readsTable i = true) (hvalid : s.status.laValid = false)
      (ht : t = raiseCmdError .notBuilt s)
  | noError (hlen : acceptsLength s i = true) (hok : t.status.err = .ok)

theorem decodeLengthOk_eq_false_iff (s : Generic.State S P) (len : Nat) :
    decodeLengthOk s len = false ↔ len < 2 ∨ s.params.nMax < len := by
  rw [Bool.eq_false_iff, Ne, decodeLengthOk_eq_true_iff]
  omega

theorem encodeLengthOk_eq_false_iff (s : Generic.State S P) (len : Nat) :
    encodeLengthOk s len = false ↔ s.params.nMax < len := by
  rw [Bool.eq_false_iff, Ne, encodeLengthOk_eq_true_iff, Nat.not_le]

/-- A decode of an accepted length always finds a path (43_hard_viterbi.md R170). -/
theorem bestPath_forward_ne_none {κ ω : Type} [AddCommMonoid κ] [LinearOrder κ] (g : GenOrder) (rt : Bool)
    (metric : ω → Sym → κ) {os : List ω} (hlow : 2 ≤ os.length) (d : DrawSource) :
    bestPath (forward g rt metric os (initialColumn κ) d).1 ≠ none := by
  rw [(bestPath_forward g rt metric (List.ne_nil_of_length_pos (by omega)) d).1, Ne, Option.map_eq_none_iff]
  exact Option.isSome_iff_ne_none.mp (survivorPaths_stateZero_isSome ..)

section Errors

variable [CommRing S] [LinearOrder S] {i : Instr} {s t : Generic.State S P}

theorem execOf_of_length_refused (h : acceptsLength s i = false) : execOf i s = .next (raiseCmdError .length s) := by
  cases i with
  | encSeq st len => exact if_neg (Bool.eq_false_iff.mp h)
  | laDecode len => exact if_neg (Bool.eq_false_iff.mp h)
  | hardDp len => exact if_neg (Bool.eq_false_iff.mp h)
  | softDp len => exact if_neg (Bool.eq_false_iff.mp h)
  | encStep | laBuild | laLookup => cases h

theorem execOf_of_not_built (hlen : acceptsLength s i = true) (hreads : readsTable i = true)
    (hvalid : s.status.laValid = false) : execOf i s = .next (raiseCmdError .notBuilt s) := by
  cases i with
  | laLookup st s0 s1 s2 => exact if_neg (Bool.eq_false_iff.mp hvalid)
  | laDecode len => exact (if_pos hlen).trans (if_neg (Bool.eq_false_iff.mp hvalid))
  | encStep | encSeq | laBuild | hardDp | softDp => cases hreads

/-- Every command ends so: no tie and no missing path arises (42_lookahead.md R140, 43_hard_viterbi.md R170). -/
theorem commandEnd_of_execOf (h : execOf i s = .next t) : CommandEnd s i t := by
  cases i with
  | encStep st b =>
    cases h
    exact .noError rfl rfl
  | encSeq st len =>
    rcases execEncSeq_cases h with ⟨hrefused, ht⟩ | ⟨hlen, bits, -, rfl⟩
    · exact .length hrefused ht
    · exact .noError hlen rfl
  | laBuild =>
    cases (execLaBuild_eq s).symm.trans h
    exact .noError rfl rfl
  | laLookup st s0 s1 s2 =>
    rcases execLaLookup_cases h with ⟨-, rfl⟩ | ⟨hvalid, rfl⟩
    · exact .noError rfl rfl
    · exact .notBuilt rfl rfl hvalid rfl
  | laDecode len =>
    rcases execLaDecode_cases h with ⟨hrefused, ht⟩ | ⟨hlen, hvalid, rfl⟩ | ⟨hlen, -, hs, -, rfl⟩
    · exact .length hrefused ht
    · exact .notBuilt hlen rfl hvalid rfl
    · exact .noError hlen rfl
  | hardDp len =>
    rcases execHardDp_cases h with ⟨hrefused, ht⟩ | ⟨hlen, hs, hread, ⟨hnone, -⟩ | ⟨bits, cost, -, rfl⟩⟩
    · exact .length hrefused ht
    · obtain ⟨hlow, -⟩ := (decodeLengthOk_eq_true_iff s len).mp hlen
      exact absurd hnone (bestPath_forward_ne_none _ _ _ (hlow.trans_eq (length_of_readSeq hread).symm) _)
    · exact .noError hlen rfl
  | softDp len =>
    rcases execSoftDp_cases h with ⟨hrefused, ht⟩ | ⟨hlen, os, hread, ⟨hnone, -⟩ | ⟨bits, cost, -, rfl⟩⟩
    · exact .length hrefused ht
    · obtain ⟨hlow, -⟩ := (decodeLengthOk_eq_true_iff s len).mp hlen
      exact absurd hnone (bestPath_forward_ne_none _ _ _ (hlow.trans_eq (length_of_readSoftObs hread).symm) _)
    · exact .noError hlen rfl

/-- With `LEN` in its range no command reports `LENGTH` (R212). -/
theorem err_ne_length_of_execOf (h : execOf i s = .next t) (hlen : acceptsLength s i = true) : t.status.err ≠ .length := by
  cases commandEnd_of_execOf h with
  | length hrefused => exact absurd hlen (Bool.eq_false_iff.mp hrefused)
  | notBuilt _ _ _ ht =>
    subst ht
    nofun
  | noError _ hok =>
    rw [hok]
    nofun

end Errors

/-- Settles O25: both errors are raised on the state the command found. -/
theorem commandErrorsArePrecise : Obligations.CommandErrorsArePrecise := by
  intro i s t h herr
  rw [exec_eq_execOf] at h
  cases commandEnd_of_execOf h with
  | length _ ht =>
    subst ht
    exact ⟨.inl rfl, rfl⟩
  | notBuilt _ _ _ ht =>
    subst ht
    exact ⟨.inr rfl, rfl⟩
  | noError _ hok => exact absurd hok herr

/-- Settles O26: a length that is not accepted is refused before anything else, and an accepted one is not refused. -/
theorem lengthOutOfRangeRaisesLength : Obligations.LengthOutOfRangeRaisesLength := by
  intro s len
  simp only [exec_eq_execOf]
  refine ⟨fun hout st => ?_, fun hout => ?_, fun hin st t ht => ?_, fun hlow hhigh t ht => ?_⟩
  · exact execOf_of_length_refused ((encodeLengthOk_eq_false_iff s len).mpr hout)
  · have hrefused : decodeLengthOk s len = false := (decodeLengthOk_eq_false_iff s len).mpr hout
    exact ⟨execOf_of_length_refused hrefused, execOf_of_length_refused hrefused, execOf_of_length_refused hrefused⟩
  · exact err_ne_length_of_execOf ht ((encodeLengthOk_eq_true_iff s len).mpr hin)
  · have hok : decodeLengthOk s len = true := (decodeLengthOk_eq_true_iff s len).mpr ⟨hlow, hhigh⟩
    rcases ht with ht | ht | ht <;> exact err_ne_length_of_execOf ht hok

/-- Settles O35: the two commands that read the table, `LA_DECODE` after its length is accepted. -/
theorem lookAheadNeedsABuiltTable : Obligations.LookAheadNeedsABuiltTable := by
  intro s hvalid
  simp only [exec_eq_execOf]
  exact ⟨fun st s0 s1 s2 => execOf_of_not_built rfl rfl hvalid, fun len hlow hhigh =>
    execOf_of_not_built ((decodeLengthOk_eq_true_iff s len).mpr ⟨hlow, hhigh⟩) rfl hvalid⟩

/-! ### `faulted` (R220) -/

/-- No command word clears `faulted`: commands keep it, a model fault sets it. -/
theorem faulted_of_issue {w : Word} {s t : State} (h : issue exec w s = .next t) (hset : s.faulted = true) :
    t.faulted = true := by
  rcases issue_cases h with ⟨i, -, hrun | ⟨-, rfl⟩⟩ | ⟨-, rfl⟩
  · obtain ⟨-, hkeep, -⟩ := commandsKeepTheOtherState _ _ _ hrun
    exact hkeep.trans hset
  · rfl
  · exact hset

theorem faulted_of_runEvent {e : Event SoftBits} {s t : State} (hreset : e ≠ .reset)
    (h : runEvent exec referenceEnc e s = .next t) (hset : s.faulted = true) : t.faulted = true := by
  cases e with
  | read a =>
    rw [runEvent] at h
    rcases hostRead_cases referenceEnc a s with ⟨v, -, hread⟩ | ⟨-, hread⟩ <;> rw [hread] at h <;> cases h
    · exact hset
    · rfl
  | write a v =>
    simp only [runEvent] at h
    split at h
    · exact faulted_of_issue h hset
    · rcases hostWrite_cases referenceEnc a v s with ⟨u, hu, hwrite⟩ | ⟨-, hwrite⟩ <;> rw [hwrite] at h <;> cases h
      · rw [(hostWritten_frame hu).1]
        exact hset
      · rfl
  | reset => exact absurd rfl hreset

/-- Settles O9: a waiting block changes nothing, and no other event than reset clears `faulted`. -/
theorem faultedIsClearedByResetOnly : Obligations.FaultedIsClearedByResetOnly := by
  intro s t hset hreset h
  cases hp : s.pending with
  | nil =>
    rw [step, stepWith, nextEvent, hp] at h
    cases h
    exact hset
  | cons e rest =>
    rw [step, stepWith_cons exec referenceEnc hp] at h
    exact faulted_of_runEvent (fun he => hreset rest (he ▸ hp)) h hset

end Sys2Proof.Machine
end

section
/-! SUPPORT. The two steps that perform no host access: the wait with none pending, and the reset input
(70_reset_and_hazards.md R240). -/
namespace Sys2Proof.Machine

variable {S P : Type} [Zero S]

/-- A step with no event pending waits. -/
theorem stepWith_nil (run : Meaning S P) (enc : SoftEnc S P) {s : Generic.State S P} (h : s.pending = []) :
    stepWith run enc s = .next s := by
  rw [stepWith, nextEvent, h]

/-- A step with the reset input next resets the state that keeps the further events. -/
theorem stepWith_reset (run : Meaning S P) (enc : SoftEnc S P) {s : Generic.State S P} {rest : List (Event P)}
    (h : s.pending = .reset :: rest) :
    stepWith run enc s = .next (applyReset { s with pending := rest }) := by
  rw [stepWith_cons run enc h, runEvent]

/-- Settles O7: the wait of every meaning and format, at the machine's own. -/
theorem blockWaitsWithoutHostAccess : Obligations.BlockWaitsWithoutHostAccess :=
  fun _ hp => stepWith_nil exec referenceEnc hp

/-- Settles O18: the reset takes the parameters and the draw source from the state whose event was consumed. -/
theorem resetInputRestoresResetValues : Obligations.ResetInputRestoresResetValues := by
  intro s rest hp
  rw [step, stepWith_reset exec referenceEnc hp, applyReset]

end Sys2Proof.Machine
end
